-- ==== Sys2Proof/Word.lean ====
section
/-! DEFINITION. The machine's words: bytes, 22-bit addresses and 16-bit data, all unsigned, bit 0 the least
significant (spec 00_scope.md R4). -/

namespace Sys2Proof

/-- A byte of a frame, of the inbound stream or of a status field (00_scope.md R4). -/
abbrev Byte := BitVec 8

/-- An address of the console address space, 22 bits (20_memory.md R40, R41). -/
abbrev Addr := BitVec 22

/-- A datum, 16 bits (30_encoding.md R64). -/
abbrev Datum := BitVec 16

end Sys2Proof
end

