-- ==== Sys2Proof/Syntax.lean ====
section
/-! DEFINITION. The operations of the block: one constructor of `Instr` for each row of spec/opcode_table.json
(30_encoding.md R74, R75), with the operand types they use. -/

namespace Sys2Proof

/-- The operand `field` of `set_bit`: status field 0 or 1 (42_status_manager.md R122). -/
inductive StatusField where
  | f0
  | f1
deriving DecidableEq, Repr, Inhabited

/-- The operand `level` of `set_ring_protection` (42_status_manager.md R123). A raw fourth pattern is outside
this type (U4, log 20). -/
inductive RingLevel where
  | kernel
  | super
  | user
deriving DecidableEq, Repr, Inhabited

/-- The two directions of the wire, and the host's calls, which are not on the wire (30_encoding.md R60, R74). -/
inductive Direction where
  | outbound
  | inbound
  | call
deriving DecidableEq, Repr

/-- The nine symbols an inbound byte decodes to (41_inbound_decode.md R100). -/
inductive Symbol where
  | noCommand
  | haltDown
  | haltUp
  | continue_
  | deposit
  | loadAddress
  | start
  | examine
  | ignored
deriving DecidableEq, Repr

/-- The operations of the opcode table (30_encoding.md R74), in the table's order. -/
inductive Instr where
  /-- `SEND_A(a)`: address-only frame (40_outbound_frames.md R80). -/
  | sendA (a : Addr)
  /-- `SEND_D(d)`: data-only frame (R81). -/
  | sendD (d : Datum)
  /-- `SEND_B(a, d)`: address and data (R82). -/
  | sendB (a : Addr) (d : Datum)
  /-- `SEND_U(a, d)`: address, data and status (R83). -/
  | sendU (a : Addr) (d : Datum)
  /-- `SEND_F()`: status-only frame (R84). -/
  | sendF
  /-- `SEND_Q()`: query the switches (R85). -/
  | sendQ
  /-- `SEND_R()`: query the rotary knobs (R86). -/
  | sendR
  /-- `SEND_c(p, m)`: acknowledge one toggle (R87). -/
  | sendAck (port mask : Byte)
  /-- `SEND_i()`: clear all toggles (R88). -/
  | sendClearI
  /-- `SEND_a()`: clear all toggles, second tag (R89). -/
  | sendClearA
  /-- `CMD_NUL`, byte 0x00: no command pending (41_inbound_decode.md R107). -/
  | cmdNul
  /-- `CMD_H`: HALT key down (R101). -/
  | cmdH
  /-- `CMD_E`: HALT key up (R102). -/
  | cmdE
  /-- `CMD_c`: continue (R103). -/
  | cmdC
  /-- `CMD_d`: deposit (R104). -/
  | cmdD
  /-- `CMD_l`: load-address (R105). -/
  | cmdL
  /-- `CMD_s`: start (R106). -/
  | cmdS
  /-- `CMD_x`: examine (R108). -/
  | cmdX
  /-- `CMD_IGN`: any other byte, kept as the operand (R109). -/
  | cmdIgn (b : Byte)
  /-- `SET_BIT`: `set_bit(field, flag, on)` (42_status_manager.md R122). -/
  | setBit (field : StatusField) (flag : Byte) (on : Bool)
  /-- `SET_RING`: `set_ring_protection(level)` (R123). -/
  | setRing (level : RingLevel)
  /-- `SET_MMU`: `set_mmu_mode(enable_18, enable_22)` (R124). -/
  | setMmu (enable18 enable22 : Bool)
  /-- `TICK`: one scheduler tick with its display pair (44_scheduler_cadence.md R170, R171). -/
  | tick (a : Addr) (d : Datum)
deriving DecidableEq, Repr

/-- The direction of an operation: the `direction` key of its row of the opcode table (30_encoding.md R74). -/
def Instr.direction : Instr → Direction
  | .sendA _ => .outbound
  | .sendD _ => .outbound
  | .sendB _ _ => .outbound
  | .sendU _ _ => .outbound
  | .sendF => .outbound
  | .sendQ => .outbound
  | .sendR => .outbound
  | .sendAck _ _ => .outbound
  | .sendClearI => .outbound
  | .sendClearA => .outbound
  | .cmdNul => .inbound
  | .cmdH => .inbound
  | .cmdE => .inbound
  | .cmdC => .inbound
  | .cmdD => .inbound
  | .cmdL => .inbound
  | .cmdS => .inbound
  | .cmdX => .inbound
  | .cmdIgn _ => .inbound
  | .setBit _ _ _ => .call
  | .setRing _ => .call
  | .setMmu _ _ => .call
  | .tick _ _ => .call

end Sys2Proof
end

