-- ==== Sys2Proof/Config.lean ====
section
/-! DEFINITION. The configuration record of the block (00_scope.md R3) as types, and the opaque constants: the
OPEN parameters, which no source fixes (log 8), and the free values of the environment (log 2). The values the
spec does fix stand in Machine/Params.lean. -/

namespace Sys2Proof

/-- The three address widths, which are also the width modes `wm` (00_scope.md R3). -/
inductive Width where
  | w16
  | w18
  | w22
deriving DecidableEq, Repr, Inhabited

/-- The five model profiles, in order of non-decreasing width (00_scope.md R3, 10_state.md R12). -/
inductive Model where
  | m0
  | m1
  | m2
  | m3
  | m4
deriving DecidableEq, Repr, Inhabited

/-- The MMU-width encoding rule of a profile (10_state.md R11, R12). -/
inductive MmuRule where
  | singleVirtualBit
  | threeWidthBits
deriving DecidableEq, Repr, Inhabited

/-- How many bytes the address field has (30_encoding.md R67). -/
inductive AddrLen where
  | two
  | three
deriving DecidableEq, Repr, Inhabited

/-- The frames of a fifth tick (44_scheduler_cadence.md R172). -/
inductive StatusTick where
  | bThenF
  | uOnly
  | bThenU
deriving DecidableEq, Repr, Inhabited

/-- The position of a named status bit: a field and a bit number (10_state.md R17). -/
structure BitPos where
  field : StatusField
  bit : Fin 8
deriving DecidableEq, Repr, Inhabited

/-- `StatusLayout`: the positions of the nine named bits (10_state.md R14, R17). -/
structure StatusLayout where
  master : BitPos
  run : BitPos
  addrErr : BitPos
  virt : BitPos
  w16 : BitPos
  w18 : BitPos
  w22 : BitPos
  ringHi : BitPos
  ringLo : BitPos
deriving DecidableEq, Repr, Inhabited

/-- `RING_CODE`: the 2-bit code of each level, `RING_HI` being bit 1 and `RING_LO` bit 0 (10_state.md R15, R17). -/
structure RingCode where
  kernel : BitVec 2
  super : BitVec 2
  user : BitVec 2
deriving DecidableEq, Repr, Inhabited

/-- The operands of an acknowledge frame (30_encoding.md R76), and the value `ACKQ` holds (10_state.md R20). -/
structure Ack where
  port : Byte
  mask : Byte
deriving DecidableEq, Repr, Inhabited

/-- The five raw bytes of the switch snapshot, `SW[0]` being the first byte received (10_state.md R18). -/
structure Snapshot where
  b0 : Byte
  b1 : Byte
  b2 : Byte
  b3 : Byte
  b4 : Byte
deriving DecidableEq, Repr, Inhabited

/-- How one `Send` ends. -/
inductive SendResult where
  /-- The panel has got the whole frame (20_memory.md R46). -/
  | ok
  /-- `fail`: only a proper part of the frame reached the panel, its length drawn from `k` (R46, U6; log 3). -/
  | fail (k : Nat)
  /-- The host detaches while the operation is in this `Send` or in the wait that follows it: the operation is
  abandoned, and how much of the frame reached the panel is unspecified, its length drawn from `k`
  (70_reset_and_hazards.md R201, U6; log 13). -/
  | abandoned (k : Nat)
deriving DecidableEq, Repr, Inhabited

/-- The OPEN parameters of 00_scope.md R3: no source gives their values (U11, log 8). -/
structure OpenParams where
  width : Model → Width
  rotary : Model → Bool
  hasRing : Model → Bool
  keySwitchBits : Model → List Nat
  layout : StatusLayout
  ringCode : RingCode
  ackLoad : Ack
  ackExam : Ack
  ackDepo : Ack
  swAddr : Model → Snapshot → Addr
  fmtAddr : Addr → List Char
  fmtData : Datum → List Char
deriving Inhabited

/-- The configuration record of 00_scope.md R3, whole: the OPEN parameters and those the spec sets itself
(Machine/Params.lean). `MODELS` is the type `Model`; `TOPMASK` and the profile fields that 10_state.md R12 fixes
for each model are functions of Machine/Params.lean. -/
structure Config where
  width : Model → Width
  rotary : Model → Bool
  hasRing : Model → Bool
  keySwitchBits : Model → List Nat
  layout : StatusLayout
  ringCode : RingCode
  ackLoad : Ack
  ackExam : Ack
  ackDepo : Ack
  swAddr : Model → Snapshot → Addr
  fmtAddr : Addr → List Char
  fmtData : Datum → List Char
  addrLen : Width → AddrLen
  widthOf : Bool → Bool → Width
  swData : Model → Snapshot → Datum
  regWindow : Addr → Bool
  romWindow : Width → Addr → Bool
  crossReset : Bool
  eEmitsClearAll : Bool
  statusTick : StatusTick
  tickPollAccept : Byte → Bool
  updateThreshold : Nat
  rotaryThreshold : Nat

/-- A model profile: "immutable, one per hardware variant" (10_state.md R11), with the three derived fields. -/
structure Profile where
  addressMask : Addr
  addressWidth : Width
  keySwitchBits : List Nat
  rotary : Bool
  mmuRule : MmuRule
  freezeOnInvalid : Bool
  addrErrBit : Bool
  hasRing : Bool
deriving DecidableEq, Repr

/-- The hardware's own OPEN parameters, before the constraints of the spec are put on them
(Machine/Params.lean): nothing in Lean can evaluate them (log 8). -/
opaque Config.rawParams : OpenParams

/-- FREE VALUE: how the n-th `Send` drawn where the transport's input list ends comes out: `ok`, `fail`, or
abandoned by a detach, and nothing says which (70_reset_and_hazards.md R205: a model "must not assume `ok`"; R214: the
host may detach "at any moment"; log 2). -/
opaque Config.freeSend : Nat → SendResult

/-- FREE VALUE: what the n-th read of the inbound stream drawn where the panel's input list ends finds: a byte,
or nothing within the timeout (70_reset_and_hazards.md R214: the panel may send "any byte value at any time, any
number, also none"; log 2). -/
opaque Config.freeRx : Nat → Option Byte

end Sys2Proof
end

