-- ==== Sys2Proof/WellFormed.lean ====
section
/-! DEFINITION. Which terms of `Instr` are operations of the block. The operand types carry every other bound of
the spec (22-bit addresses, 16-bit data, 8-bit flags, three ring levels); the one check is that `CMD_IGN`
stands for a byte outside the alphabet (41_inbound_decode.md R109). -/

namespace Sys2Proof

/-- The eight byte values that `CMD_IGN` does not stand for, as 41_inbound_decode.md R109 lists them. -/
def reservedInboundBytes : List Byte := [0x00, 0x45, 0x48, 0x63, 0x64, 0x6C, 0x73, 0x78]

/-- The operation is well formed: a `CMD_IGN` carries none of the eight bytes of R109. -/
def Instr.wellFormed : Instr → Bool
  | .sendA _ => true
  | .sendD _ => true
  | .sendB _ _ => true
  | .sendU _ _ => true
  | .sendF => true
  | .sendQ => true
  | .sendR => true
  | .sendAck _ _ => true
  | .sendClearI => true
  | .sendClearA => true
  | .cmdNul => true
  | .cmdH => true
  | .cmdE => true
  | .cmdC => true
  | .cmdD => true
  | .cmdL => true
  | .cmdS => true
  | .cmdX => true
  | .cmdIgn b => !reservedInboundBytes.contains b
  | .setBit _ _ _ => true
  | .setRing _ => true
  | .setMmu _ _ => true
  | .tick _ _ => true

end Sys2Proof
end

