-- ==== Sys2Proof/Decode.lean ====
section
/-! DEFINITION. The wire encoding: the total decoder of inbound bytes (41_inbound_decode.md R100), the reference
decoder of outbound frames (30_encoding.md R68), the reader of opcode-table words (log 14), and after them the
frame encoder (30_encoding.md R62 to R67, R76). Byte codes: 30_encoding.md R61 (D1, log 7). -/

namespace Sys2Proof

/-! ## Inbound -/

/-- `Decode`: the symbol of an inbound byte, total on the 256 values (R100; letters by D6, log 7). -/
def decodeSymbol (b : Byte) : Symbol :=
  if b = 0x00 then .noCommand
  else if b = 0x48 then .haltDown
  else if b = 0x45 then .haltUp
  else if b = 0x63 then .continue_
  else if b = 0x64 then .deposit
  else if b = 0x6C then .loadAddress
  else if b = 0x73 then .start
  else if b = 0x78 then .examine
  else .ignored

/-- The operation of a byte whose symbol is `sym`: the `RX1` rows of the opcode table (30_encoding.md R69, R74). -/
def Symbol.instr (sym : Symbol) (b : Byte) : Instr :=
  match sym with
  | .noCommand => .cmdNul
  | .haltDown => .cmdH
  | .haltUp => .cmdE
  | .continue_ => .cmdC
  | .deposit => .cmdD
  | .loadAddress => .cmdL
  | .start => .cmdS
  | .examine => .cmdX
  | .ignored => .cmdIgn b

/-- The operation an inbound byte selects (R69, R70: no byte is illegal). -/
def decodeIn (b : Byte) : Instr := (decodeSymbol b).instr b

/-! ## Outbound: the reference decoder of 30_encoding.md R68 -/

/-- Why a byte sequence is no frame of the codec (30_encoding.md R70: "it never emits any other first byte"). -/
inductive DecodeError where
  /-- Raised on the empty sequence. Safe: no frame is empty (20_memory.md R52). -/
  | noBytes
  /-- Raised on a first byte that is none of the ten tags (R62, R70). Safe: the codec never emits it. -/
  | unknownTag (b : Byte)
  /-- Raised on a payload shorter than the tag fixes (R60, R62). Safe: the codec sends whole frames. -/
  | shortFrame (tag : Byte)
  /-- Raised on a top address byte with a bit outside `TOPMASK(wm)` (R63). Safe: the codec masks it off. -/
  | addressBitsAboveMode (ah : Byte)
deriving DecidableEq, Repr

/-- `TOPMASK(wm)`: 0x00, 0x03, 0x3F (R63). -/
def Width.topMask : Width → Byte
  | .w16 => 0x00
  | .w18 => 0x03
  | .w22 => 0x3F

/-- `FULLMASK(wm)`: the largest address of a width (20_memory.md R41; R68). -/
def Width.fullMask : Width → Addr
  | .w16 => 0x00FFFF
  | .w18 => 0x03FFFF
  | .w22 => 0x3FFFFF

/-- The ten outbound tags (R61, R62). -/
def tagA : Byte := 0x41
/-- Tag `D` (R61). -/
def tagD : Byte := 0x44
/-- Tag `B` (R61). -/
def tagB : Byte := 0x42
/-- Tag `U` (R61). -/
def tagU : Byte := 0x55
/-- Tag `F` (R61). -/
def tagF : Byte := 0x46
/-- Tag `Q` (R61). -/
def tagQ : Byte := 0x51
/-- Tag `R` (R61). -/
def tagR : Byte := 0x52
/-- Tag `c`, the acknowledge; the same byte inbound is continue (R60). -/
def tagAck : Byte := 0x63
/-- Tag `i` (R61). -/
def tagClearI : Byte := 0x69
/-- Tag `a` (R61). -/
def tagClearA : Byte := 0x61

/-- `DecAddr`, a 24-bit result (R68). -/
def decAddr (ah am al : Byte) : BitVec 24 :=
  (ah.setWidth 24 <<< 16) ||| (am.setWidth 24 <<< 8) ||| al.setWidth 24

/-- `DecData` (R68). -/
def decData (dh dl : Byte) : Datum := (dh.setWidth 16 <<< 8) ||| dl.setWidth 16

/-- Reads the address field of a frame with tag `tag` (R63, R67). -/
def decodeAddrField (wm : Width) (alen : AddrLen) (tag : Byte) (bytes : List Byte) :
    Except DecodeError (Addr × List Byte) :=
  match alen, bytes with
  | .three, ah :: am :: al :: rest =>
    if ah &&& ~~~wm.topMask = 0 then .ok ((decAddr ah am al).setWidth 22, rest)
    else .error (.addressBitsAboveMode ah)
  | .two, am :: al :: rest => .ok ((decAddr 0 am al).setWidth 22, rest)
  | _, _ => .error (.shortFrame tag)

/-- Reads a two-byte field of a frame with tag `tag`: data, status, or port and mask (R64, R65, R76). -/
def decodePair (tag : Byte) (bytes : List Byte) : Except DecodeError (Byte × Byte × List Byte) :=
  match bytes with
  | x :: y :: rest => .ok (x, y, rest)
  | _ => .error (.shortFrame tag)

/-- The payload of a frame whose tag is `tag` (R62). The status bytes of `U` and `F` are not operands of the
operation: they are read and dropped. -/
def decodePayload (wm : Width) (alen : AddrLen) (tag : Byte) (bytes : List Byte) :
    Except DecodeError (Instr × List Byte) :=
  if tag = tagA then
    match decodeAddrField wm alen tag bytes with
    | .ok (a, rest) => .ok (.sendA a, rest)
    | .error e => .error e
  else if tag = tagD then
    match decodePair tag bytes with
    | .ok (dh, dl, rest) => .ok (.sendD (decData dh dl), rest)
    | .error e => .error e
  else if tag = tagB then
    match decodeAddrField wm alen tag bytes with
    | .ok (a, rest) =>
      match decodePair tag rest with
      | .ok (dh, dl, rest) => .ok (.sendB a (decData dh dl), rest)
      | .error e => .error e
    | .error e => .error e
  else if tag = tagU then
    match decodeAddrField wm alen tag bytes with
    | .ok (a, rest) =>
      match decodePair tag rest with
      | .ok (dh, dl, rest) =>
        match decodePair tag rest with
        | .ok (_, _, rest) => .ok (.sendU a (decData dh dl), rest)
        | .error e => .error e
      | .error e => .error e
    | .error e => .error e
  else if tag = tagF then
    match decodePair tag bytes with
    | .ok (_, _, rest) => .ok (.sendF, rest)
    | .error e => .error e
  else if tag = tagQ then .ok (.sendQ, bytes)
  else if tag = tagR then .ok (.sendR, bytes)
  else if tag = tagAck then
    match decodePair tag bytes with
    | .ok (p, m, rest) => .ok (.sendAck p m, rest)
    | .error e => .error e
  else if tag = tagClearI then .ok (.sendClearI, bytes)
  else if tag = tagClearA then .ok (.sendClearA, bytes)
  else .error (.unknownTag tag)

/-- The frame at the head of an outbound byte sequence: its operation, and the bytes after it (R68). -/
def decodeOut (wm : Width) (alen : AddrLen) (bytes : List Byte) : Except DecodeError (Instr × List Byte) :=
  match bytes with
  | [] => .error .noBytes
  | tag :: payload => decodePayload wm alen tag payload

/-! ## Words of the opcode table (log 14) -/

/-- The call a selector of the opcode table stands for, with every operand bit zero. The numbers exist in the
table only (30_encoding.md R75): nothing else of the model reads them. -/
def callOfSelector (op : BitVec 2) : Instr :=
  if op = 0 then .setBit .f0 0x00 false
  else if op = 1 then .setRing .kernel
  else if op = 2 then .setMmu false false
  else .tick 0 0

/-- The ten tags (R62). -/
def outboundTags : List Byte :=
  [tagA, tagD, tagB, tagU, tagF, tagQ, tagR, tagAck, tagClearI, tagClearA]

/-- The direction under which a word of the opcode table is read: the table compares rows of one direction only
(R74) and a bare word carries none, so the model picks one (log 14). -/
def tableDirection (nbits : Nat) (b : Byte) : Direction :=
  if nbits < 8 then .call
  else if 8 < nbits then .outbound
  else if decodeSymbol b ≠ .ignored then .inbound
  else if outboundTags.contains b then .outbound
  else if b = 1 ∨ b = 2 ∨ b = 3 then .call
  else .inbound

/-- The first `n` bytes of a word, the first byte in bits 7 to 0. -/
def bytesOfWord : Nat → Nat → List Byte
  | 0, _ => []
  | n + 1, w => BitVec.ofNat 8 w :: bytesOfWord n (w / 256)

/-- The operation the decoder reads from an opcode-table word of `nbits` bits, every bit above them zero. -/
def decodeTableWord (nbits w : Nat) : Option Instr :=
  let w := w % 2 ^ nbits
  let b := BitVec.ofNat 8 w
  match tableDirection nbits b with
  | .inbound => some (decodeIn b)
  | .outbound =>
    match decodeOut .w22 .three (bytesOfWord 8 w) with
    | .ok (i, _) => some i
    | .error _ => none
  | .call => some (callOfSelector (BitVec.ofNat 2 w))

/-! ## The encoder -/

/-- `AddrBytes(a, wm)`, big-endian, only the top byte masked; `AH` is left out where `ADDR_LEN(wm)` is 2
(R63, R67). -/
def addrBytes (wm : Width) (alen : AddrLen) (a : Addr) : List Byte :=
  let ah : Byte := (a.extractLsb' 16 6).setWidth 8 &&& wm.topMask
  let am : Byte := a.extractLsb' 8 8
  let al : Byte := a.extractLsb' 0 8
  match alen with
  | .three => [ah, am, al]
  | .two => [am, al]

/-- `DataBytes(d)`, big-endian (R64). -/
def dataBytes (d : Datum) : List Byte := [d.extractLsb' 8 8, d.extractLsb' 0 8]

/-- The `A` frame (R62, R80). -/
def frameA (wm : Width) (alen : AddrLen) (a : Addr) : List Byte := tagA :: addrBytes wm alen a
/-- The `D` frame (R62, R81). -/
def frameD (d : Datum) : List Byte := tagD :: dataBytes d
/-- The `B` frame (R62, R82). -/
def frameB (wm : Width) (alen : AddrLen) (a : Addr) (d : Datum) : List Byte :=
  tagB :: (addrBytes wm alen a ++ dataBytes d)
/-- The `U` frame (R62, R83). -/
def frameU (wm : Width) (alen : AddrLen) (a : Addr) (d : Datum) (s0 s1 : Byte) : List Byte :=
  tagU :: (addrBytes wm alen a ++ dataBytes d ++ [s0, s1])
/-- The `F` frame (R62, R65, R84). -/
def frameF (s0 s1 : Byte) : List Byte := [tagF, s0, s1]
/-- The `Q` frame (R62, R85). -/
def frameQ : List Byte := [tagQ]
/-- The `R` frame (R62, R86). -/
def frameR : List Byte := [tagR]
/-- The `c` frame (R62, R76, R87). -/
def frameAck (k : Ack) : List Byte := [tagAck, k.port, k.mask]
/-- The `i` frame (R62, R88). -/
def frameClearI : List Byte := [tagClearI]
/-- The `a` frame (R62, R89). -/
def frameClearA : List Byte := [tagClearA]

/-- The bytes of an operation on the wire: an outbound operation's frame, given the width mode, the address
length and the status fields (R62, R92), or an inbound operation's byte (R69). A host call has no encoding
(R75). -/
def encode (wm : Width) (alen : AddrLen) (s0 s1 : Byte) : Instr → Option (List Byte)
  | .sendA a => some (frameA wm alen a)
  | .sendD d => some (frameD d)
  | .sendB a d => some (frameB wm alen a d)
  | .sendU a d => some (frameU wm alen a d s0 s1)
  | .sendF => some (frameF s0 s1)
  | .sendQ => some frameQ
  | .sendR => some frameR
  | .sendAck p m => some (frameAck ⟨p, m⟩)
  | .sendClearI => some frameClearI
  | .sendClearA => some frameClearA
  | .cmdNul => some [0x00]
  | .cmdH => some [0x48]
  | .cmdE => some [0x45]
  | .cmdC => some [0x63]
  | .cmdD => some [0x64]
  | .cmdL => some [0x6C]
  | .cmdS => some [0x73]
  | .cmdX => some [0x78]
  | .cmdIgn b => some [b]
  | .setBit _ _ _ => none
  | .setRing _ => none
  | .setMmu _ _ => none
  | .tick _ _ => none

/-- The address operand of an outbound operation that has one (R62). -/
def Instr.frameAddr : Instr → Option Addr
  | .sendA a => some a
  | .sendB a _ => some a
  | .sendU a _ => some a
  | _ => none

/-- The address operand survives the address field of this width mode and length: the masked-off bits are zero
(R63, R67, R68). -/
def Instr.fits (i : Instr) (wm : Width) (alen : AddrLen) : Prop :=
  ∀ a, i.frameAddr = some a → a ≤ wm.fullMask ∧ (alen = .two → a ≤ 0xFFFF)

/-- The decoder of one direction, total on any bytes; a host call is on no wire (R60, R75). -/
def decode (dir : Direction) (wm : Width) (alen : AddrLen) (bytes : List Byte) :
    Except DecodeError (Instr × List Byte) :=
  match dir, bytes with
  | .inbound, b :: rest => .ok (decodeIn b, rest)
  | .inbound, [] => .error .noBytes
  | .outbound, bytes => decodeOut wm alen bytes
  | .call, b :: _ => .error (.unknownTag b)
  | .call, [] => .error .noBytes

end Sys2Proof
end

