-- ==== Sys2Proof/Machine/Params.lean ====
section
/-! DEFINITION. The values of the configuration record (00_scope.md R3): what 10_state.md R12 fixes for each
model, the constraints on the OPEN parameters (R12, R15, R17), the values the spec sets itself, and
`Config.hw`, the configuration the machine runs under (log 6, log 7, log 8). -/

namespace Sys2Proof

/-- Every model, narrowest first (10_state.md R12). -/
def Model.all : List Model := [.m0, .m1, .m2, .m3, .m4]

/-- `profile.mmu_rule`: three width bits on "the widest model" only (10_state.md R12 (c)). -/
def Model.mmuRule : Model → MmuRule
  | .m0 => .singleVirtualBit
  | .m1 => .singleVirtualBit
  | .m2 => .singleVirtualBit
  | .m3 => .singleVirtualBit
  | .m4 => .threeWidthBits

/-- `profile.freeze_on_invalid`: "the two narrowest models" (10_state.md R12 (d)). -/
def Model.freezeOnInvalid : Model → Bool
  | .m0 => true
  | .m1 => true
  | .m2 => false
  | .m3 => false
  | .m4 => false

/-- `profile.addr_err_bit`: "the two widest models" (10_state.md R12 (e)). -/
def Model.addrErrBit : Model → Bool
  | .m0 => false
  | .m1 => false
  | .m2 => false
  | .m3 => true
  | .m4 => true

/-- The code of a level (10_state.md R15). -/
def RingCode.code (c : RingCode) : RingLevel → BitVec 2
  | .kernel => c.kernel
  | .super => c.super
  | .user => c.user

/-- `RING_CODE` is injective and 0b00 is in its range (00_scope.md R3, 10_state.md R15). -/
def RingCode.valid (c : RingCode) : Bool :=
  c.kernel != c.super && c.kernel != c.user && c.super != c.user &&
    (c.kernel == 0 || c.super == 0 || c.user == 0)

/-- The positions that `set_mmu_mode` and `set_ring_protection` own on a model (10_state.md R14). -/
def StatusLayout.ownedOn (l : StatusLayout) (rule : MmuRule) (ring : Bool) : List BitPos :=
  (match rule with
    | .singleVirtualBit => [l.virt]
    | .threeWidthBits => [l.w16, l.w18, l.w22]) ++
  (if ring then [l.ringHi, l.ringLo] else [])

/-- The positions of the named bits that exist on a model (10_state.md R14). -/
def StatusLayout.bitsOn (l : StatusLayout) (rule : MmuRule) (ring addrErr : Bool) : List BitPos :=
  l.ownedOn rule ring ++ (if addrErr then [l.addrErr] else []) ++ [l.master, l.run]

/-- "The positions of the bits that exist on one model are pairwise distinct" (10_state.md R17). -/
def OpenParams.layoutValid (o : OpenParams) : Bool :=
  Model.all.all fun m => decide (o.layout.bitsOn m.mmuRule (o.hasRing m) m.addrErrBit).Nodup

/-- The rank of a width, for the order of 10_state.md R12 (b). -/
def Width.rank : Width → Nat
  | .w16 => 0
  | .w18 => 1
  | .w22 => 2

/-- Widths are non-decreasing from `M0` to `M4`, and `M4` has 22 bits (10_state.md R12 (b), (c)). -/
def OpenParams.widthsValid (o : OpenParams) : Bool :=
  decide ((o.width .m0).rank ≤ (o.width .m1).rank) && decide ((o.width .m1).rank ≤ (o.width .m2).rank) &&
    decide ((o.width .m2).rank ≤ (o.width .m3).rank) && decide (o.width .m4 = .w22)

/-- "Exactly two profiles have `rotary = true`" (10_state.md R12 (f)). -/
def OpenParams.rotaryValid (o : OpenParams) : Bool := (Model.all.countP o.rotary) == 2

/-- The constraints the spec puts on the OPEN parameters (10_state.md R12, R15, R17). -/
def OpenParams.valid (o : OpenParams) : Bool :=
  o.widthsValid && o.rotaryValid && o.layoutValid && o.ringCode.valid

/-- `SwAddr_T`, the test instantiation of 41_inbound_decode.md R115; it "says nothing of the panel". -/
def swAddrT (sw : Snapshot) : Addr :=
  ((sw.b2.extractLsb' 0 6).setWidth 22 <<< 16) ||| (sw.b1.setWidth 22 <<< 8) ||| sw.b0.setWidth 22

/-- The hexadecimal digit of a value below 16, in capitals as 95_test_vectors.md section 4 writes it. -/
def hexDigit (d : Nat) : Char := Char.ofNat (if d < 10 then 48 + d else 55 + d)

/-- The last `digits` hexadecimal digits of `n`, with leading zeros. -/
def hexText : Nat → Nat → List Char
  | 0, _ => []
  | digits + 1, n => hexText digits (n / 16) ++ [hexDigit (n % 16)]

/-- An operand in the placeholder spelling of `TESTCFG`, `<0x...>` (95_test_vectors.md section 1). `NUMFMT` is
OPEN (30_encoding.md R72; D37); that an address has six digits and a datum four, as in the programs of
95_test_vectors.md section 4, is the model's choice for `TESTCFG` alone (DESIGN CHOICE, log 8). -/
def placeholderText (digits n : Nat) : List Char := ['<', '0', 'x'] ++ hexText digits n ++ ['>']

/-- The OPEN parameters of `TESTCFG` (95_test_vectors.md section 1): "this spec's own instantiation", which
says nothing of the hardware. It stands here because some parameters that meet the constraints must be shown
(`OpenParams.constrained`), and for the tests. Two of them `TESTCFG` does not settle, and the model does (DESIGN
CHOICE, log 8): how many digits an operand has (`fmtAddr`, `fmtData`: the placeholder of D37, see
`placeholderText`), and `keySwitchBits`, empty on every model (D47), which no rule reads. -/
def OpenParams.testcfg : OpenParams where
  width := fun
    | .m0 => .w16
    | .m1 => .w16
    | .m2 => .w18
    | .m3 => .w18
    | .m4 => .w22
  rotary := fun
    | .m0 => false
    | .m1 => false
    | .m2 => false
    | .m3 => true
    | .m4 => true
  hasRing := fun
    | .m0 => false
    | .m1 => false
    | .m2 => true
    | .m3 => true
    | .m4 => true
  keySwitchBits := fun _ => []
  layout := {
    ringLo := ⟨.f0, 0⟩, ringHi := ⟨.f0, 1⟩, addrErr := ⟨.f0, 2⟩, virt := ⟨.f0, 3⟩,
    w16 := ⟨.f0, 4⟩, w18 := ⟨.f0, 5⟩, w22 := ⟨.f0, 6⟩, run := ⟨.f1, 0⟩, master := ⟨.f1, 1⟩ }
  ringCode := ⟨0b00, 0b01, 0b11⟩
  ackLoad := ⟨0x01, 0x01⟩
  ackExam := ⟨0x01, 0x02⟩
  ackDepo := ⟨0x01, 0x04⟩
  swAddr := fun _ => swAddrT
  fmtAddr := fun a => placeholderText 6 a.toNat
  fmtData := fun d => placeholderText 4 d.toNat

/-- OPEN parameters that meet the constraints: `o` itself where it does (log 8). -/
def OpenParams.constrained (o : OpenParams) : OpenParams := if o.valid then o else OpenParams.testcfg

/-- `InRom(a)`, half-open windows, mirrored at +0x3F0000 on the 22-bit model only (20_memory.md R42). -/
def inRom (w : Width) (a : Addr) : Bool :=
  (decide (0xEA00 ≤ a) && decide (a < 0xEC00)) || (decide (0xF600 ≤ a) && decide (a < 0xF800)) ||
    (decide (w = .w22) &&
      ((decide (0x3FEA00 ≤ a) && decide (a < 0x3FEC00)) || (decide (0x3FF600 ≤ a) && decide (a < 0x3FF800))))

/-- `InRegWindow(a)` (20_memory.md R43; D24, log 7). -/
def inRegWindow (a : Addr) : Bool := decide (0x3FFC0 ≤ a) && decide (a ≤ 0x3FFC7)

/-- `WIDTH_OF` (42_status_manager.md R124; D12, log 7). -/
def widthOfEnables (enable18 enable22 : Bool) : Width :=
  match enable18, enable22 with
  | false, false => .w16
  | true, false => .w18
  | true, true => .w22
  | false, true => .w16

/-- The configuration with OPEN parameters `o` and every other parameter at the spec's own value (00_scope.md R3;
log 6, log 7). -/
def Config.ofOpen (o : OpenParams) : Config where
  width := o.width
  rotary := o.rotary
  hasRing := o.hasRing
  keySwitchBits := o.keySwitchBits
  layout := o.layout
  ringCode := o.ringCode
  ackLoad := o.ackLoad
  ackExam := o.ackExam
  ackDepo := o.ackDepo
  swAddr := o.swAddr
  fmtAddr := o.fmtAddr
  fmtData := o.fmtData
  addrLen := fun _ => .three
  widthOf := widthOfEnables
  swData := fun m sw => (o.swAddr m sw).setWidth 16
  regWindow := inRegWindow
  romWindow := inRom
  crossReset := false
  eEmitsClearAll := false
  statusTick := .bThenF
  tickPollAccept := fun b => b == 0x48
  updateThreshold := 5
  rotaryThreshold := 3

/-- The configuration of the hardware: its OPEN parameters are opaque, under the spec's constraints (log 8). -/
def Config.hw : Config := Config.ofOpen Config.rawParams.constrained

/-- The active profile, `lookup(model)` (10_state.md R11, R12). -/
def Config.profile (c : Config) (m : Model) : Profile where
  addressMask := (c.width m).fullMask
  addressWidth := c.width m
  keySwitchBits := c.keySwitchBits m
  rotary := c.rotary m
  mmuRule := m.mmuRule
  freezeOnInvalid := m.freezeOnInvalid
  addrErrBit := m.addrErrBit
  hasRing := c.hasRing m

/-- The width mode `wm` of the address encoder: the active model's width (30_encoding.md R66; D4, log 7). -/
def Config.wm (c : Config) (m : Model) : Width := (c.profile m).addressWidth

/-- The positions that `set_mmu_mode` and `set_ring_protection` own on model `m` (10_state.md R14). -/
def Config.ownedBits (c : Config) (m : Model) : List BitPos :=
  c.layout.ownedOn (c.profile m).mmuRule (c.profile m).hasRing

end Sys2Proof
end

