-- ==== Sys2Proof/Machine/State.lean ====
section
/-! DEFINITION. The state of the machine: every register of 10_state.md R10, the output histories of R27, and the
inputs of the step relation as plain lists (log 1, log 2). The reset state is the table of R28. -/

namespace Sys2Proof.Machine

/-- `halt_mode` (10_state.md R24). -/
inductive HaltMode where
  | run
  | enableIdle
  | haltDown
deriving DecidableEq, Repr, Inhabited

/-- `transport_kind` (10_state.md R26). -/
inductive TransportKind where
  | inline
  | bridged
deriving DecidableEq, Repr, Inhabited

/-- The five error kinds, a closed type with no numbers (60_exceptions.md R188). -/
inductive ErrorKind where
  | configError
  | linkError
  | transportIOError
  | invalidAddress
  | bootRomProtected
deriving DecidableEq, Repr

/-- What `Signal` hands to the external processor: the six pseudo-commands of 30_encoding.md R72 and the
abstract `FREEZE` of 43_console_commands.md R148 (D36). Their text is `Signal.text` (Machine/Operands.lean). -/
inductive Signal where
  | examine
  | deposit (a : Addr) (d : Datum)
  | continue_
  | step
  | run (a : Addr)
  | resetAll
  | freeze
deriving DecidableEq, Repr

/-- One entry of the TX history: a frame handed to `Send` and how many of its bytes got through, all of them
when `Send` answered `ok` (20_memory.md R40, R46, 70_reset_and_hazards.md R201; log 3, log 13). -/
structure Sent where
  frame : List Byte
  delivered : Nat
deriving DecidableEq, Repr

/-- One input of the step relation, taken between two operations (10_state.md R27, 70_reset_and_hazards.md R214;
log 1). -/
inductive Event where
  /-- An operation asked of the block by its name and operands: a frame, a status-manager call, a tick, or a
  decoded command (00_scope.md R6, 30_encoding.md R75). -/
  | invoke (i : Instr)
  /-- The host's poll for a command, `PollCommand` (41_inbound_decode.md R113). -/
  | poll
  /-- Attach with the looked-up model (`none`: an unsupported variant) and whether the transport opened
  (70_reset_and_hazards.md R200). -/
  | attach (variant : Option Model) (kind : TransportKind) (line : List Char) (opened : Bool)
  /-- Detach (70_reset_and_hazards.md R201); one that lands inside an operation is put here by the `Send` it
  abandons (log 13). -/
  | detach
  /-- The loss of the link, `LinkDown` (60_exceptions.md R186). -/
  | linkDown
deriving DecidableEq, Repr

/-- Why a step has no next state: a breach of a duty of the host for which the spec states no state. -/
inductive Fault where
  /-- Raised by the session step on an attach while attached: the host may "attach once per session"
  (70_reset_and_hazards.md R214). Safe: the model stops where the spec says nothing (log 10). -/
  | attachWithinSession
deriving DecidableEq, Repr

/-- Why a step is refused. -/
inductive Refusal where
  /-- Raised by an arm of `exec` for an instruction that has no meaning yet. Safe. No arm raises it. -/
  | notModelled (mnemonic : String)
  /-- Raised by `SET_BIT` when `flag` names a bit that `set_ring_protection` or `set_mmu_mode` owns on the active
  model (42_status_manager.md R122, U3). Safe: the source states no result (log 19). -/
  | bitOwnedByAnotherProducer
  /-- Raised by the fetch on an invoked operation that is not well formed: a `CMD_IGN` of a command byte, which
  is no operation of the table (41_inbound_decode.md R109). Safe (log 17). -/
  | illFormedOperation
deriving DecidableEq, Repr

/-- The state of the block. -/
structure State where
  /-- `S[0]` (R13). -/
  s0 : Byte
  /-- `S[1]` (R13). -/
  s1 : Byte
  /-- `SW[0..4]` (R18). -/
  sw : Snapshot
  /-- `ROT` (R19). -/
  rot : Byte
  /-- `ACKQ` (R20). -/
  ackq : Option Ack
  /-- `act_addr` (R21). -/
  actAddr : Addr
  /-- `inv_addr` (R22). -/
  invAddr : Bool
  /-- `first_exam` (R23). -/
  firstExam : Bool
  /-- `first_dep` (R23). -/
  firstDep : Bool
  /-- `halt_mode` (R24). -/
  haltMode : HaltMode
  /-- `update_count` (R25). -/
  updateCount : Nat
  /-- `rotary_count` (R25). -/
  rotaryCount : Nat
  /-- Whether a session exists: the opposite of the absent mode (60_exceptions.md R193). -/
  attached : Bool
  /-- `connected` (R26). -/
  connected : Bool
  /-- `dormant` (R26). -/
  dormant : Bool
  /-- `model` (R11). -/
  model : Model
  /-- `transport_kind` (R26). -/
  transportKind : TransportKind
  /-- `line_config` (R26); no rule reads it. -/
  lineConfig : List Char
  /-- The frames handed to `Send`, oldest first (20_memory.md R40, R55). -/
  tx : List Sent
  /-- The signals, oldest first (43_console_commands.md R156). -/
  signals : List Signal
  /-- The reports, oldest first (43_console_commands.md R156). -/
  reports : List ErrorKind
  /-- MODEL'S OWN: the inputs of the host and the link, next first (log 1). -/
  events : List Event
  /-- MODEL'S OWN: the panel's input, one entry a read: a byte, or nothing within the timeout (log 2). -/
  rx : List (Option Byte)
  /-- MODEL'S OWN: how the coming `Send`s end (log 2). -/
  sends : List SendResult
  /-- MODEL'S OWN: how many free values have been drawn (log 2). -/
  draws : Nat
deriving DecidableEq, Repr

/-- The default line configuration, the text `9600-8N1` (10_state.md R26). -/
def defaultLineConfig : List Char := ['9', '6', '0', '0', '-', '8', 'N', '1']

/-- The machine right after reset, that is after a successful attach (10_state.md R28, 70_reset_and_hazards.md
R200, R215). `SW` and `ROT` are unspecified there (log 4); model, transport and line are as given to attach
(log 5); the input lists are empty (log 1, log 2). -/
def State.reset : State where
  s0 := 0x00
  s1 := 0x00
  sw := ⟨0x00, 0x00, 0x00, 0x00, 0x00⟩
  rot := 0x00
  ackq := none
  actAddr := 0
  invAddr := false
  firstExam := false
  firstDep := false
  haltMode := .run
  updateCount := 0
  rotaryCount := 0
  attached := true
  connected := true
  dormant := false
  model := .m0
  transportKind := .inline
  lineConfig := defaultLineConfig
  tx := []
  signals := []
  reports := []
  events := []
  rx := []
  sends := []
  draws := 0

end Sys2Proof.Machine
end

