-- ==== Sys2Proof/Machine/Operands.lean ====
section
/-! DEFINITION. The operands of the console commands: the target address of examine and deposit
(43_console_commands.md R144, R150), the switch values (41_inbound_decode.md R110, R111), and the text of the
pseudo-commands (30_encoding.md R72). -/

namespace Sys2Proof.Machine

/-- `Incr(a)`: one step inside the register alias window, else the next even address, wrapping at 2^22 (R144). -/
def incr (c : Config) (a : Addr) : Addr :=
  if c.regWindow a then a + 1 else (a + 2) &&& 0x3FFFFE

/-- `Target(first)`: no step when the operation is the first one (R144). -/
def State.target (c : Config) (s : State) (first : Bool) : Addr :=
  if first then s.actAddr else incr c s.actAddr

/-- `t` is in range on the active model (R150). -/
def State.inRange (c : Config) (s : State) (t : Addr) : Bool := decide (t ≤ (c.profile s.model).addressMask)

/-- `InRom(t)` on the active model (20_memory.md R42). -/
def State.inRomWindow (c : Config) (s : State) (t : Addr) : Bool :=
  c.romWindow (c.profile s.model).addressWidth t

/-- The switch value masked to the model: what load-address loads (43_console_commands.md R145, 20_memory.md
R41). -/
def State.switchAddr (c : Config) (s : State) : Addr :=
  c.swAddr s.model s.sw &&& (c.profile s.model).addressMask

/-- The data switch field (41_inbound_decode.md R111). -/
def State.switchData (c : Config) (s : State) : Datum := c.swData s.model s.sw

/-- The text of a signal under the spelling `NUMFMT` of its operands; the abstract `FREEZE` has none
(30_encoding.md R72, 43_console_commands.md R148). -/
def Signal.text (c : Config) : Signal → Option (List Char)
  | .examine => some ['e', 'x', 'a', 'm', 'i', 'n', 'e']
  | .deposit a d =>
    some (['d', 'e', 'p', 'o', 's', 'i', 't', ' '] ++ c.fmtAddr a ++ [' '] ++ c.fmtData d)
  | .continue_ => some ['c', 'o', 'n', 't', 'i', 'n', 'u', 'e']
  | .step => some ['s', 't', 'e', 'p']
  | .run a => some (['r', 'u', 'n', ' '] ++ c.fmtAddr a)
  | .resetAll => some ['r', 'e', 's', 'e', 't', ' ', 'a', 'l', 'l']
  | .freeze => none

end Sys2Proof.Machine
end

