-- ==== Sys2Proof/Machine/Flags.lean ====
section
/-! DEFINITION. The status fields: reading and driving their bits, and the three computations of the status
manager (42_status_manager.md R122, R123, R124). -/

namespace Sys2Proof.Machine

/-- `S[f]` (00_scope.md R5). -/
def State.status (s : State) : StatusField → Byte
  | .f0 => s.s0
  | .f1 => s.s1

/-- `S[f] <- v` (00_scope.md R5). -/
def State.setStatus (s : State) (f : StatusField) (v : Byte) : State :=
  match f with
  | .f0 => { s with s0 := v }
  | .f1 => { s with s1 := v }

/-- The named bits of `old` driven to `on` (R122). -/
def driveBits (old flag : Byte) (on : Bool) : Byte := if on then old ||| flag else old &&& ~~~flag

/-- The mask of a position within its field (R125). -/
def bitMask (p : BitPos) : Byte := BitVec.ofNat 8 (2 ^ p.bit.val)

/-- The status bit at a position. -/
def State.statusBit (s : State) (p : BitPos) : Bool := (s.status p.field).getLsbD p.bit.val

/-- `set_bit(field, flag, on)`: the effect of R122 on `S`, without its precondition. -/
def State.driveStatus (s : State) (f : StatusField) (flag : Byte) (on : Bool) : State :=
  s.setStatus f (driveBits (s.status f) flag on)

/-- `S[P.f][P.b] <- v`, the single-bit producer of R125. -/
def State.writeBit (s : State) (p : BitPos) (v : Bool) : State := s.driveStatus p.field (bitMask p) v

/-- The two ring bits for a 2-bit code, `RING_HI` being its bit 1 (R123). -/
def State.writeRing (s : State) (l : StatusLayout) (code : BitVec 2) : State :=
  (s.writeBit l.ringHi (code.getLsbD 1)).writeBit l.ringLo (code.getLsbD 0)

/-- `set_ring_protection(level)`: no change on a model without ring display (R123). -/
def State.applyRing (c : Config) (s : State) (level : RingLevel) : State :=
  if (c.profile s.model).hasRing then s.writeRing c.layout (c.ringCode.code level) else s

/-- The width bits for an effective width (R124). -/
def State.writeWidth (s : State) (l : StatusLayout) (rule : MmuRule) (w : Width) : State :=
  match rule with
  | .singleVirtualBit => s.writeBit l.virt (decide (w ≠ .w16))
  | .threeWidthBits =>
    ((s.writeBit l.w16 (decide (w = .w16))).writeBit l.w18 (decide (w = .w18))).writeBit l.w22 (decide (w = .w22))

/-- `set_mmu_mode(enable_18, enable_22)` (R124). -/
def State.applyMmu (c : Config) (s : State) (enable18 enable22 : Bool) : State :=
  s.writeWidth c.layout (c.profile s.model).mmuRule (c.widthOf enable18 enable22)

/-- `flag` names a bit of `field` that another producer owns on the active model: the breach of R122's
precondition. The empty mask names none. -/
def State.flagBreaks (c : Config) (s : State) (f : StatusField) (flag : Byte) : Bool :=
  flag != 0 && (c.ownedBits s.model).any fun p => decide (p.field = f) && flag.getLsbD p.bit.val

/-- The address-error bit driven to `on`, on the models that have it (R125, R148, R152). -/
def State.driveAddrErr (c : Config) (s : State) (on : Bool) : State :=
  if (c.profile s.model).addrErrBit then s.writeBit c.layout.addrErr on else s

/-- The 2-bit ring value shown, `RING_HI` as bit 1 (10_state.md R15, R17). -/
def State.ringShown (s : State) (l : StatusLayout) : BitVec 2 :=
  BitVec.ofBool (s.statusBit l.ringHi) ++ BitVec.ofBool (s.statusBit l.ringLo)

end Sys2Proof.Machine
end

