-- ==== Sys2Proof/Machine/Ops.lean ====
section
/-! DEFINITION. The primitives of 00_scope.md R5 over the state: `Send`, `Recv`, `PollRecv`, `Signal`, `Report`,
register writes, and how an operation ends early (43_console_commands.md R142, 70_reset_and_hazards.md R201). The block has no trap:
"taking an exception" is `State.report`, the ONE shared operation of every error kind, and there is no
return (60_exceptions.md R180, R192). The block owns no memory (20_memory.md R40). -/

namespace Sys2Proof.Machine

/-! ## How far an operation has come -/

/-- A running operation: it goes on from a state, or the rest of it is skipped (R142, 44_scheduler_cadence.md
R170, 70_reset_and_hazards.md R201). What was written before stays written. -/
inductive Ran where
  | on (s : State)
  | stop (s : State)
deriving DecidableEq, Repr

/-- The next part of an operation, skipped after a stop. -/
def Ran.andThen (r : Ran) (next : State → Ran) : Ran :=
  match r with
  | .on s => next s
  | .stop s => .stop s

/-- The state an operation leaves. -/
def Ran.state : Ran → State
  | .on s => s
  | .stop s => s

/-- The link is up: the active mode of 60_exceptions.md R193. -/
def State.active (s : State) : Bool := s.attached && s.connected && !s.dormant

/-- The guard of every operation: a no-op unless active (40_outbound_frames.md R90, 42_status_manager.md R127,
43_console_commands.md R142, 60_exceptions.md R185). -/
def State.guarded (s : State) (op : State → Ran) : State := if s.active then (op s).state else s

/-! ## Register writes -/

/-- `SW[0..4]` written together (40_outbound_frames.md R85). -/
def State.setSw (s : State) (v : Snapshot) : State := { s with sw := v }
/-- `ROT` written (R86). -/
def State.setRot (s : State) (v : Byte) : State := { s with rot := v }
/-- `ACKQ` written (R87). -/
def State.setAckq (s : State) (v : Option Ack) : State := { s with ackq := v }
/-- `act_addr` written (10_state.md R21). -/
def State.setActAddr (s : State) (v : Addr) : State := { s with actAddr := v }
/-- `inv_addr` written (10_state.md R22). -/
def State.setInvAddr (s : State) (v : Bool) : State := { s with invAddr := v }
/-- `first_exam` written (10_state.md R23). -/
def State.setFirstExam (s : State) (v : Bool) : State := { s with firstExam := v }
/-- `first_dep` written (10_state.md R23). -/
def State.setFirstDep (s : State) (v : Bool) : State := { s with firstDep := v }
/-- `halt_mode` written (10_state.md R24). -/
def State.setHaltMode (s : State) (v : HaltMode) : State := { s with haltMode := v }
/-- `update_count` written (10_state.md R25). -/
def State.setUpdateCount (s : State) (v : Nat) : State := { s with updateCount := v }
/-- `rotary_count` written (10_state.md R25). -/
def State.setRotaryCount (s : State) (v : Nat) : State := { s with rotaryCount := v }
/-- `connected` written (10_state.md R26). -/
def State.setConnected (s : State) (v : Bool) : State := { s with connected := v }
/-- The pending events written (log 1). -/
def State.setEvents (s : State) (v : List Event) : State := { s with events := v }
/-- The panel's input written (log 2). -/
def State.setRx (s : State) (v : List (Option Byte)) : State := { s with rx := v }
/-- The transport's input written (log 2). -/
def State.setSends (s : State) (v : List SendResult) : State := { s with sends := v }
/-- A detach is the next input: it has landed inside the running operation (70_reset_and_hazards.md R201; log 13). -/
def State.detachNext (s : State) : State := s.setEvents (.detach :: s.events)
/-- One more free value drawn (log 2). -/
def State.countDraw (s : State) : State := { s with draws := s.draws + 1 }

/-! ## Outputs -/

/-- A frame handed to `Send` enters the TX history (20_memory.md R55). -/
def State.recordTx (s : State) (frame : List Byte) (delivered : Nat) : State :=
  { s with tx := s.tx ++ [⟨frame, delivered⟩] }

/-- `Signal(text)` (30_encoding.md R72). -/
def State.signal (s : State) (x : Signal) : State := { s with signals := s.signals ++ [x] }

/-- `Report(kind)`: the one way every error is taken. It transfers no control and saves nothing
(60_exceptions.md R180). -/
def State.report (s : State) (k : ErrorKind) : State := { s with reports := s.reports ++ [k] }

/-! ## The transport -/

/-- The outcome of the next `Send`, and the state after taking it: the head of the transport's input, or a free
value where the list ends (log 2). -/
def State.takeSend (s : State) : SendResult × State :=
  match s.sends with
  | r :: rest => (r, s.setSends rest)
  | [] => (Config.freeSend s.draws, s.countDraw)

/-- What the next read of the inbound stream finds, and the state after it: the head of the panel's input, or a
free value where the list ends (log 2). A byte read is consumed (20_memory.md R47). -/
def State.takeRx (s : State) : Option Byte × State :=
  match s.rx with
  | b :: rest => (b, s.setRx rest)
  | [] => (Config.freeRx s.draws, s.countDraw)

/-- `PollRecv()` (20_memory.md R47). -/
def State.pollRecv (s : State) : Option Byte × State := s.takeRx

/-- `Recv(n)`: the next `n` bytes in arrival order, or `none` on a shortfall, the bytes that did come being
consumed (20_memory.md R48; log 9, log 22). -/
def recv : Nat → State → Option (List Byte) × State
  | 0, s => (some [], s)
  | n + 1, s =>
    match s.takeRx with
    | (none, s) => (none, s)
    | (some b, s) =>
      match recv n s with
      | (some bs, s) => (some (b :: bs), s)
      | (none, s) => (none, s)

/-- `Send(bytes)` with its report: on `ok` every byte of the frame got through and the operation goes on; on
`fail` a proper part of it did (log 3), `TransportIOError` is reported and the rest of the operation is skipped
(20_memory.md R46, 40_outbound_frames.md R91, 60_exceptions.md R183). A `Send` that a detach abandons reports nothing:
some part of the frame got through, the rest of the operation is not run, and the detach is taken next
(70_reset_and_hazards.md R201; log 13). -/
def send (frame : List Byte) (s : State) : Ran :=
  match s.takeSend with
  | (.ok, s) => .on (s.recordTx frame frame.length)
  | (.fail k, s) => .stop ((s.recordTx frame (k % frame.length)).report .transportIOError)
  | (.abandoned k, s) => .stop (s.recordTx frame (k % (frame.length + 1))).detachNext

/-- The response to a query just sent: `store` takes it, or a shortfall is a `TransportIOError`
(40_outbound_frames.md R85, R86). -/
def receive (n : Nat) (store : List Byte → State → State) (s : State) : Ran :=
  match recv n s with
  | (some bytes, s) => .on (store bytes s)
  | (none, s) => .stop (s.report .transportIOError)

/-- The five bytes of a switch response stored raw, in arrival order (R85). -/
def storeSnapshot (bytes : List Byte) (s : State) : State :=
  match bytes with
  | [b0, b1, b2, b3, b4] => s.setSw ⟨b0, b1, b2, b3, b4⟩
  | _ => s

/-- The one byte of a rotary response stored raw (R86). -/
def storeRotary (bytes : List Byte) (s : State) : State :=
  match bytes with
  | [b] => s.setRot b
  | _ => s

end Sys2Proof.Machine
end

