-- ==== Sys2Proof/Machine/Outbound.lean ====
section
/-! DEFINITION. The outbound frame encoder: one operation and one meaning for each frame
(40_outbound_frames.md R80 to R92). The operations take the configuration; the meanings put the guard of R90
before them and run under `Config.hw`. -/

namespace Sys2Proof.Machine

/-! ## The operations -/

/-- `SEND_A(a)` (R80). -/
def putA (c : Config) (a : Addr) (s : State) : Ran :=
  send (frameA (c.wm s.model) (c.addrLen (c.wm s.model)) a) s

/-- `SEND_D(d)` (R81). -/
def putD (d : Datum) (s : State) : Ran := send (frameD d) s

/-- `SEND_B(a, d)` (R82). -/
def putB (c : Config) (a : Addr) (d : Datum) (s : State) : Ran :=
  send (frameB (c.wm s.model) (c.addrLen (c.wm s.model)) a d) s

/-- `SEND_U(a, d)`: carries the status fields at the moment of the send (R83, 20_memory.md R55). -/
def putU (c : Config) (a : Addr) (d : Datum) (s : State) : Ran :=
  send (frameU (c.wm s.model) (c.addrLen (c.wm s.model)) a d s.s0 s.s1) s

/-- `SEND_F()` (R84). -/
def putF (s : State) : Ran := send (frameF s.s0 s.s1) s

/-- `SEND_Q()`: the query and its five-byte response (R85). -/
def querySwitches (s : State) : Ran := (send frameQ s).andThen (receive 5 storeSnapshot)

/-- `SEND_R()`: the query and its one-byte response (R86). -/
def queryRotary (s : State) : Ran := (send frameR s).andThen (receive 1 storeRotary)

/-- `SEND_c(p, m)`: pending in `ACKQ` until the frame is sent; it stays pending after a failed send (R87). -/
def acknowledge (k : Ack) (s : State) : Ran :=
  (send (frameAck k) (s.setAckq (some k))).andThen fun s => .on (s.setAckq none)

/-- `SEND_i()` (R88). -/
def putClearI (s : State) : Ran := send frameClearI s

/-- `SEND_a()` (R89). -/
def putClearA (s : State) : Ran := send frameClearA s

/-! ## The meanings -/

/-- `SEND_A` (R80, R90). -/
def execSendA (a : Addr) (s : State) : Host.Outcome State Fault Refusal := .next (s.guarded (putA Config.hw a))

/-- `SEND_D` (R81, R90). -/
def execSendD (d : Datum) (s : State) : Host.Outcome State Fault Refusal := .next (s.guarded (putD d))

/-- `SEND_B` (R82, R90). -/
def execSendB (a : Addr) (d : Datum) (s : State) : Host.Outcome State Fault Refusal :=
  .next (s.guarded (putB Config.hw a d))

/-- `SEND_U` (R83, R90). -/
def execSendU (a : Addr) (d : Datum) (s : State) : Host.Outcome State Fault Refusal :=
  .next (s.guarded (putU Config.hw a d))

/-- `SEND_F` (R84, R90). -/
def execSendF (s : State) : Host.Outcome State Fault Refusal := .next (s.guarded putF)

/-- `SEND_Q` (R85, R90). -/
def execSendQ (s : State) : Host.Outcome State Fault Refusal := .next (s.guarded querySwitches)

/-- `SEND_R` (R86, R90). -/
def execSendR (s : State) : Host.Outcome State Fault Refusal := .next (s.guarded queryRotary)

/-- `SEND_c` (R87, R90). -/
def execSendAck (port mask : Byte) (s : State) : Host.Outcome State Fault Refusal :=
  .next (s.guarded (acknowledge ⟨port, mask⟩))

/-- `SEND_i` (R88, R90). -/
def execSendClearI (s : State) : Host.Outcome State Fault Refusal := .next (s.guarded putClearI)

/-- `SEND_a` (R89, R90). -/
def execSendClearA (s : State) : Host.Outcome State Fault Refusal := .next (s.guarded putClearA)

end Sys2Proof.Machine
end

