-- ==== Sys2Proof/Machine/Console.lean ====
section
/-! DEFINITION. The console commands: what each decoded inbound byte does (43_console_commands.md R140 to R157).
The commands take the configuration; the meanings put the guard of R142 before them and run under `Config.hw`. -/

namespace Sys2Proof.Machine

/-! ## Shared paths -/

/-- `Invalid()`: marks `inv_addr`, freezes the processor on the two narrowest models, sets the address-error bit
on the two widest, and reports (R148, 60_exceptions.md R184). -/
def invalidPath (c : Config) (s : State) : State :=
  let s := s.setInvAddr true
  let s := if (c.profile s.model).freezeOnInvalid then s.signal .freeze else s
  (s.driveAddrErr c true).report .invalidAddress

/-- A successful examine before its frames: the address moves and the collaborator is told (R146). -/
def examineAt (c : Config) (t : Addr) (s : State) : State :=
  let s := (s.setActAddr t).setFirstExam false
  let s := if c.crossReset then s.setFirstDep true else s
  s.signal .examine

/-- Examine up to its frames: the invalid path or the move (R146). -/
def examineStep (c : Config) (s : State) : State :=
  if s.invAddr then invalidPath c s
  else
    let t := s.target c s.firstExam
    if s.inRange c t then examineAt c t s else invalidPath c s

/-- A successful deposit after its query: the address moves, the collaborator is told, and the display frame
and the acknowledge go out (R147). -/
def depositAt (c : Config) (t : Addr) (s : State) : Ran :=
  let d := s.switchData c
  let s := (s.setActAddr t).setFirstDep false
  let s := if c.crossReset then s.setFirstExam true else s
  (putB c t d (s.signal (.deposit t d))).andThen (acknowledge c.ackDepo)

/-- Deposit up to its closing frame: the invalid path, the ROM rejection or the deposit (R147, R149). -/
def depositStep (c : Config) (s : State) : Ran :=
  if s.invAddr then .on (invalidPath c s)
  else
    let t := s.target c s.firstDep
    if s.inRange c t then
      if s.inRomWindow c t then .on (s.report .bootRomProtected)
      else (querySwitches s).andThen (depositAt c t)
    else .on (invalidPath c s)

/-- What load-address writes after its query (R145). -/
def loadSwitchAddr (c : Config) (s : State) : State :=
  (((s.setActAddr (s.switchAddr c)).setInvAddr false).setFirstExam true).setFirstDep true

/-! ## The commands -/

/-- Load-address (R145). -/
def runLoadAddress (c : Config) (s : State) : Ran :=
  (querySwitches s).andThen fun s =>
  let s := loadSwitchAddr c s
  (putA c s.actAddr s).andThen fun s =>
  (acknowledge c.ackLoad s).andThen putF

/-- Examine (R146): the address frame and the acknowledge go out on the invalid path too. -/
def runExamine (c : Config) (s : State) : Ran :=
  let s := examineStep c s
  (putA c s.actAddr s).andThen fun s =>
  (acknowledge c.ackExam s).andThen putF

/-- Deposit (R147): the closing status frame goes out on every path (R141). -/
def runDeposit (c : Config) (s : State) : Ran := (depositStep c s).andThen putF

/-- Continue (R152): no acknowledge (R155). -/
def runContinue (c : Config) (s : State) : Ran :=
  if s.haltMode = .haltDown then putF (s.signal .step)
  else putF ((s.signal .continue_).driveAddrErr c false)

/-- Start (R151). -/
def runStart (s : State) : Ran :=
  let s := if s.haltMode = .haltDown then s.signal .resetAll else s.signal (.run s.actAddr)
  putF (s.setHaltMode .run)

/-- HALT key down (R153). -/
def runHaltDown (s : State) : Ran := putF (s.setHaltMode .haltDown)

/-- HALT key up (R154). -/
def runHaltUp (c : Config) (s : State) : Ran :=
  let s := (s.setHaltMode .enableIdle).setAckq none
  (if c.eEmitsClearAll then putClearI s else .on s).andThen putF

/-- `Exec(sym)` (R140). -/
def runSymbol (c : Config) (sym : Symbol) (s : State) : Ran :=
  match sym with
  | .noCommand => .on s
  | .haltDown => runHaltDown s
  | .haltUp => runHaltUp c s
  | .continue_ => runContinue c s
  | .deposit => runDeposit c s
  | .loadAddress => runLoadAddress c s
  | .start => runStart s
  | .examine => runExamine c s
  | .ignored => .on s

/-! ## The meanings -/

/-- `CMD_NUL`: nothing at all (41_inbound_decode.md R107). -/
def execCmdNul (s : State) : Host.Outcome State Fault Refusal :=
  .next (s.guarded (runSymbol Config.hw .noCommand))

/-- `CMD_H` (41_inbound_decode.md R101). -/
def execCmdH (s : State) : Host.Outcome State Fault Refusal :=
  .next (s.guarded (runSymbol Config.hw .haltDown))

/-- `CMD_E` (41_inbound_decode.md R102). -/
def execCmdE (s : State) : Host.Outcome State Fault Refusal :=
  .next (s.guarded (runSymbol Config.hw .haltUp))

/-- `CMD_c` (41_inbound_decode.md R103). -/
def execCmdC (s : State) : Host.Outcome State Fault Refusal :=
  .next (s.guarded (runSymbol Config.hw .continue_))

/-- `CMD_d` (41_inbound_decode.md R104). -/
def execCmdD (s : State) : Host.Outcome State Fault Refusal :=
  .next (s.guarded (runSymbol Config.hw .deposit))

/-- `CMD_l` (41_inbound_decode.md R105). -/
def execCmdL (s : State) : Host.Outcome State Fault Refusal :=
  .next (s.guarded (runSymbol Config.hw .loadAddress))

/-- `CMD_s` (41_inbound_decode.md R106). -/
def execCmdS (s : State) : Host.Outcome State Fault Refusal :=
  .next (s.guarded (runSymbol Config.hw .start))

/-- `CMD_x` (41_inbound_decode.md R108). -/
def execCmdX (s : State) : Host.Outcome State Fault Refusal :=
  .next (s.guarded (runSymbol Config.hw .examine))

/-- `CMD_IGN`: nothing at all, whatever the byte (41_inbound_decode.md R109). -/
def execCmdIgn (_b : Byte) (s : State) : Host.Outcome State Fault Refusal :=
  .next (s.guarded (runSymbol Config.hw .ignored))

end Sys2Proof.Machine
end

