-- ==== Sys2Proof/Machine/Scheduler.lean ====
section
/-! DEFINITION. The scheduler tick and its frame cadence (44_scheduler_cadence.md R170 to R175). -/

namespace Sys2Proof.Machine

/-- The frames of a tick (R172). -/
def displayFrames (c : Config) (a : Addr) (d : Datum) (fifth : Bool) (s : State) : Ran :=
  match c.statusTick with
  | .bThenF => (putB c a d s).andThen fun s => if fifth then putF s else .on s
  | .uOnly => if fifth then putU c a d s else putB c a d s
  | .bThenU => (putB c a d s).andThen fun s => if fifth then putU c a d s else .on s

/-- The second counter and, on its threshold, the rotary re-poll on a model that has one (R170, R173). -/
def rotaryStep (c : Config) (s : State) : Ran :=
  if s.rotaryCount + 1 = c.rotaryThreshold then
    let s := s.setRotaryCount 0
    if (c.profile s.model).rotary then queryRotary s else .on s
  else .on (s.setRotaryCount (s.rotaryCount + 1))

/-- `HaltPoll()`: an accepted byte is executed, any other is consumed and dropped (R174). -/
def haltPoll (c : Config) (s : State) : Ran :=
  match s.pollRecv with
  | (none, s) => .on s
  | (some b, s) => if c.tickPollAccept b then runSymbol c (decodeSymbol b) s else .on s

/-- `Tick(a, d)` after its guard (R170). -/
def runTick (c : Config) (a : Addr) (d : Datum) (s : State) : Ran :=
  let fifth := decide (s.updateCount + 1 = c.updateThreshold)
  (displayFrames c a d fifth s).andThen fun s =>
  if fifth then (rotaryStep c (s.setUpdateCount 0)).andThen (haltPoll c)
  else .on (s.setUpdateCount (s.updateCount + 1))

/-- `TICK` (R170). -/
def execTick (a : Addr) (d : Datum) (s : State) : Host.Outcome State Fault Refusal :=
  .next (s.guarded (runTick Config.hw a d))

end Sys2Proof.Machine
end

