-- ==== Sys2Proof/Machine/StatusManager.lean ====
section
/-! DEFINITION. The status bit-field manager (42_status_manager.md R120 to R128). No operation of it sends a frame
(R128), and each is a no-op while inactive (R127). -/

namespace Sys2Proof.Machine

/-- `SET_BIT`: drives the bits of `flag`; a flag that names a bit of another producer is refused (R122, U3; log
19). -/
def execSetBit (field : StatusField) (flag : Byte) (on : Bool) (s : State) : Host.Outcome State Fault Refusal :=
  if s.active then
    if s.flagBreaks Config.hw field flag then .refused .bitOwnedByAnotherProducer
    else .next (s.driveStatus field flag on)
  else .next s

/-- `SET_RING` (R123, R127). -/
def execSetRing (level : RingLevel) (s : State) : Host.Outcome State Fault Refusal :=
  .next (s.guarded fun s => .on (s.applyRing Config.hw level))

/-- `SET_MMU` (R124, R127). -/
def execSetMmu (enable18 enable22 : Bool) (s : State) : Host.Outcome State Fault Refusal :=
  .next (s.guarded fun s => .on (s.applyMmu Config.hw enable18 enable22))

end Sys2Proof.Machine
end

