-- ==== Sys2Proof/Machine/Dispatch.lean ====
section
/-! DEFINITION. `exec`: the meaning of each operation of the opcode table, one arm each. -/

namespace Sys2Proof.Machine

def exec (i : Instr) (s : State) : Host.Outcome State Fault Refusal :=
  match i with
  | .sendA a => Sys2Proof.Machine.execSendA a s
  | .sendD d => Sys2Proof.Machine.execSendD d s
  | .sendB a d => Sys2Proof.Machine.execSendB a d s
  | .sendU a d => Sys2Proof.Machine.execSendU a d s
  | .sendF => Sys2Proof.Machine.execSendF s
  | .sendQ => Sys2Proof.Machine.execSendQ s
  | .sendR => Sys2Proof.Machine.execSendR s
  | .sendAck port mask => Sys2Proof.Machine.execSendAck port mask s
  | .sendClearI => Sys2Proof.Machine.execSendClearI s
  | .sendClearA => Sys2Proof.Machine.execSendClearA s
  | .cmdNul => Sys2Proof.Machine.execCmdNul s
  | .cmdH => Sys2Proof.Machine.execCmdH s
  | .cmdE => Sys2Proof.Machine.execCmdE s
  | .cmdC => Sys2Proof.Machine.execCmdC s
  | .cmdD => Sys2Proof.Machine.execCmdD s
  | .cmdL => Sys2Proof.Machine.execCmdL s
  | .cmdS => Sys2Proof.Machine.execCmdS s
  | .cmdX => Sys2Proof.Machine.execCmdX s
  | .cmdIgn b => Sys2Proof.Machine.execCmdIgn b s
  | .setBit field flag on => Sys2Proof.Machine.execSetBit field flag on s
  | .setRing level => Sys2Proof.Machine.execSetRing level s
  | .setMmu enable18 enable22 => Sys2Proof.Machine.execSetMmu enable18 enable22 s
  | .tick a d => Sys2Proof.Machine.execTick a d s

end Sys2Proof.Machine
end

