-- ==== Sys2Proof/Machine/Session.lean ====
section
/-! DEFINITION. The session: attach, which is reset (70_reset_and_hazards.md R200), detach (R201), and the loss of
the link (60_exceptions.md R186). None of them is a row of the opcode table. -/

namespace Sys2Proof.Machine

/-- Every register of 10_state.md R10 at its value of R28, for a session with this model, transport and line.
The histories and the inputs are not registers and stay (log 21). -/
def State.clearRegisters (s : State) (m : Model) (kind : TransportKind) (line : List Char) : State :=
  { State.reset with
    model := m, transportKind := kind, lineConfig := line
    tx := s.tx, signals := s.signals, reports := s.reports
    events := s.events, rx := s.rx, sends := s.sends, draws := s.draws }

/-- No session: the state is discarded and every operation is a no-op (10_state.md R29, 60_exceptions.md R193;
log 12). -/
def State.discard (s : State) : State :=
  { s.clearRegisters State.reset.model State.reset.transportKind State.reset.lineConfig with
    attached := false, connected := false }

/-- Attach from the absent mode (70_reset_and_hazards.md R200): an unsupported variant leaves the block dormant
and reports `ConfigError` (60_exceptions.md R181, log 11); a transport that does not open reports `LinkError` and
leaves no session (R182); else the registers take the reset values of 10_state.md R28. -/
def State.attachSession (s : State) (variant : Option Model) (kind : TransportKind) (line : List Char)
    (opened : Bool) : State :=
  match variant with
  | none =>
    { (s.clearRegisters State.reset.model kind line).report .configError with
      connected := false, dormant := true }
  | some m => if opened then s.clearRegisters m kind line else s.discard.report .linkError

/-- Detach ends the session (70_reset_and_hazards.md R201). The operation it lands in, if any, has been abandoned by
`send` (log 13). -/
def State.detachSession (s : State) : State := s.discard

/-- `LinkDown` (60_exceptions.md R186). -/
def State.loseLink (s : State) : State := s.setConnected false

end Sys2Proof.Machine
end

