-- ==== Sys2Proof/Machine/Fetch.lean ====
section
/-! DEFINITION. What the next step performs. The block has no program counter (10_state.md R30): the next input
of the host or the link selects an operation, or a poll takes one inbound byte and decodes it
(41_inbound_decode.md R113; log 1). -/

namespace Sys2Proof.Machine

/-- What the next input comes to: a state with nothing left to perform, an operation to perform, or a stop. -/
inductive Fetched where
  | done (s : State)
  | perform (i : Instr) (s : State)
  | fault (r : Fault)
  | refused (r : Refusal)
deriving DecidableEq, Repr

/-- `PollCommand()`: nothing while inactive or when no byte waits, else the operation the consumed byte selects
(R113). -/
def pollCommand (s : State) : Fetched :=
  if s.active then
    match s.pollRecv with
    | (none, s) => .done s
    | (some b, s) => .perform (decodeIn b) s
  else .done s

/-- An operation asked for by its name (log 1, log 17). -/
def invoke (i : Instr) (s : State) : Fetched :=
  if i.wellFormed then .perform i s else .refused .illFormedOperation

/-- One input of the host or the link (70_reset_and_hazards.md R214). -/
def takeEvent (e : Event) (s : State) : Fetched :=
  match e with
  | .invoke i => invoke i s
  | .poll => pollCommand s
  | .attach variant kind line opened =>
    if s.attached then .fault .attachWithinSession else .done (s.attachSession variant kind line opened)
  | .detach => .done s.detachSession
  | .linkDown => .done s.loseLink

/-- The next input is consumed and taken; without one the block is quiescent: "it takes no step of its own"
(70_reset_and_hazards.md R215; log 15). -/
def fetch (s : State) : Fetched :=
  match s.events with
  | [] => .done s
  | e :: rest => takeEvent e (s.setEvents rest)

/-- The state with operation `i` as its next input: an inbound operation as a poll that finds its byte (given
as `b`), any other by its name (log 1). -/
def State.withNext (s : State) (i : Instr) (b : Byte) : State :=
  match i.direction with
  | .inbound => (s.setRx (some b :: s.rx)).setEvents (.poll :: s.events)
  | .outbound => s.setEvents (.invoke i :: s.events)
  | .call => s.setEvents (.invoke i :: s.events)

/-- The state whose next step fetches and runs the operation of an opcode-table word (log 1, log 14). -/
def placeTableWord (s : State) (nbits w : Nat) : State :=
  match decodeTableWord nbits w with
  | some i => s.withNext i (BitVec.ofNat 8 (w % 2 ^ nbits))
  | none => s

end Sys2Proof.Machine
end

