-- ==== Sys2Proof/Machine/Step.lean ====
section
/-! DEFINITION. One step: the next input is fetched and its operation, if any, is executed whole
(10_state.md R30, 00_scope.md R6). -/

namespace Sys2Proof.Machine

/-- One step of the block. -/
def step (s : State) : Host.Outcome State Fault Refusal :=
  match fetch s with
  | .done s => .next s
  | .perform i s => exec i s
  | .fault r => .fault r
  | .refused r => .refused r

/-- The state with an opcode-table word as the operation the next step fetches (log 1). -/
def State.withFetchWord (s : State) (nbits w : Nat) : State := placeTableWord s nbits w

end Sys2Proof.Machine
end

