-- ==== Sys2Proof/Safety.lean ====
section
/-! DEFINITION. What statements about the machine are made of: which registers an operation leaves alone, the
invariants of 10_state.md R15, R16, R21, R25 and of the TX history, and the frames an operation adds. -/

namespace Sys2Proof.Machine

/-! ## Registers left alone -/

/-- The status fields are those of `s` (10_state.md R13). -/
def SameStatus (s t : State) : Prop := t.s0 = s.s0 ∧ t.s1 = s.s1

/-- The snapshot, the rotary byte and the acknowledge queue are those of `s` (10_state.md R18 to R20). -/
def SameCore (s t : State) : Prop := t.sw = s.sw ∧ t.rot = s.rot ∧ t.ackq = s.ackq

/-- The register mirror is that of `s` (10_state.md R21 to R24). -/
def SameMirror (s t : State) : Prop :=
  t.actAddr = s.actAddr ∧ t.invAddr = s.invAddr ∧ t.firstExam = s.firstExam ∧ t.firstDep = s.firstDep ∧
    t.haltMode = s.haltMode

/-- The scheduler counters are those of `s` (10_state.md R25). -/
def SameCounters (s t : State) : Prop := t.updateCount = s.updateCount ∧ t.rotaryCount = s.rotaryCount

/-- The link state and what attach fixed are those of `s` (10_state.md R11, R26). -/
def SameLink (s t : State) : Prop :=
  t.attached = s.attached ∧ t.connected = s.connected ∧ t.dormant = s.dormant ∧ t.model = s.model ∧
    t.transportKind = s.transportKind ∧ t.lineConfig = s.lineConfig

/-- The histories are those of `s` (10_state.md R27). -/
def SameOutputs (s t : State) : Prop := t.tx = s.tx ∧ t.signals = s.signals ∧ t.reports = s.reports

/-- The inputs are those of `s` (10_state.md R27). -/
def SameInputs (s t : State) : Prop :=
  t.events = s.events ∧ t.rx = s.rx ∧ t.sends = s.sends ∧ t.draws = s.draws

/-- The host's input is that of `s`, but for the detach that abandoned a `Send` of the operation, which is then the
next input (70_reset_and_hazards.md R201; log 13). -/
def KeepsEvents (s t : State) : Prop := t.events = s.events ∨ t.events = .detach :: s.events

/-- Every status bit but those at the positions `ps` is that of `s` (10_state.md R14). -/
def SameStatusBut (ps : List BitPos) (s t : State) : Prop := ∀ p, p ∉ ps → t.statusBit p = s.statusBit p

/-! ## Invariants -/

/-- R15: on a model with ring display the ring bits show the code of one of the three levels. -/
def RingLegal (c : Config) (s : State) : Prop :=
  (c.profile s.model).hasRing = true → ∃ level, s.ringShown c.layout = c.ringCode.code level

/-- R16: on the widest model at most one width bit is set. -/
def WidthExclusive (c : Config) (s : State) : Prop :=
  (c.profile s.model).mmuRule = .threeWidthBits →
    ¬ (s.statusBit c.layout.w16 = true ∧ s.statusBit c.layout.w18 = true) ∧
    ¬ (s.statusBit c.layout.w16 = true ∧ s.statusBit c.layout.w22 = true) ∧
    ¬ (s.statusBit c.layout.w18 = true ∧ s.statusBit c.layout.w22 = true)

/-- R21: `act_addr` is within the active model's mask. -/
def AddrWithinMask (c : Config) (s : State) : Prop := s.actAddr ≤ (c.profile s.model).addressMask

/-- R25: each counter is below its threshold. -/
def CountersBelow (c : Config) (s : State) : Prop :=
  s.updateCount < c.updateThreshold ∧ s.rotaryCount < c.rotaryThreshold

/-- The first bytes a frame may have: the ten tags of 30_encoding.md R62. -/
def frameTags : List Byte := [0x41, 0x44, 0x42, 0x55, 0x46, 0x51, 0x52, 0x63, 0x69, 0x61]

/-- A TX entry is a frame of the codec: one of the ten tags first, 1 to 8 bytes (30_encoding.md R62, R70,
20_memory.md R52), of which at most all got through. -/
def Sent.isFrame (e : Sent) : Prop :=
  (∃ tag payload, e.frame = tag :: payload ∧ tag ∈ frameTags) ∧ e.frame.length ≤ 8 ∧ e.delivered ≤ e.frame.length

/-- Every entry of the TX history is a frame of the codec. -/
def TxFrames (s : State) : Prop := ∀ e ∈ s.tx, e.isFrame

/-- R26: the link is up, or the block dormant, only within a session (60_exceptions.md R193). -/
def LinkWithinSession (s : State) : Prop :=
  (s.connected = true → s.attached = true) ∧ (s.dormant = true → s.attached = true)

/-- The invariant of the block between operations. -/
def Inv (c : Config) (s : State) : Prop :=
  RingLegal c s ∧ WidthExclusive c s ∧ AddrWithinMask c s ∧ CountersBelow c s ∧ TxFrames s ∧ LinkWithinSession s

/-! ## Runs and the frames they add -/

/-- The frames of `t` that `s` does not have yet have a first byte that `ok` accepts. -/
def AddsOnly (ok : Byte → Prop) (s t : State) : Prop :=
  ∃ added : List Sent, t.tx = s.tx ++ added ∧ ∀ e ∈ added, ∃ tag payload, e.frame = tag :: payload ∧ ok tag

/-- The entries of the TX history when an operation that would send `frames` in order fails at the `n`-th of them,
counted from 0: the ones before it whole, a proper part of that one drawn from `k`, none after it
(43_console_commands.md R142; log 3). -/
def cutShort (frames : List (List Byte)) (n k : Nat) : List Sent :=
  (frames.take n).map (fun f => ⟨f, f.length⟩) ++ ((frames.drop n).take 1).map fun f => ⟨f, k % f.length⟩

/-- How many frames with first byte `tag` a TX history holds. -/
def countTag (tag : Byte) (tx : List Sent) : Nat := tx.countP fun e => e.frame.head? == some tag

/-- `n` scheduler ticks in a row with the same display pair, each on the state the one before left
(44_scheduler_cadence.md R175). -/
def ticks (a : Addr) (d : Datum) : Nat → State → Host.Outcome State Fault Refusal
  | 0, s => .next s
  | n + 1, s =>
    match exec (.tick a d) s with
    | .next t => ticks a d n t
    | .fault r => .fault r
    | .refused r => .refused r

end Sys2Proof.Machine
end

