-- ==== Sys2Proof/Certificates/Slice0/Obligations.lean ====
section
/-! DEFINITION. The statements for the provers: what the operations of the block do, what they leave alone, and
what holds of the whole machine. Each docstring names what of the spec it formalises; "the spec's choice D<n>" is a
decision of 92_eei_decisions.md, which the spec marks as its own and not the source's (log 6, log 7). -/

open Sys2Proof Sys2Proof.Machine

/-! ## Encoding and decoding -/

/-- Words written out from 30_encoding.md R61 to R65 and R69, decoded. Rests on the spec's choices D1, D5 and D6
(log 7). -/
def Obligations.SpelledWordsDecode : Prop :=
  decodeIn 0b00000000 = .cmdNul ∧ decodeIn 0b01001000 = .cmdH ∧ decodeIn 0b01000101 = .cmdE ∧
  decodeIn 0b01100011 = .cmdC ∧ decodeIn 0b01100100 = .cmdD ∧ decodeIn 0b01101100 = .cmdL ∧
  decodeIn 0b01110011 = .cmdS ∧ decodeIn 0b01111000 = .cmdX ∧ decodeIn 0b01011000 = .cmdIgn 0x58 ∧
  decodeIn 0xC8 = .cmdIgn 0xC8 ∧
  (decode .outbound .w18 .three [0x41, 0x03, 0xFF, 0xC0]).toOption = some (.sendA 0x3FFC0, []) ∧
  (decode .outbound .w16 .two [0x41, 0xFF, 0xFE]).toOption = some (.sendA 0xFFFE, []) ∧
  (decode .outbound .w22 .three [0x44, 0xBE, 0xEF]).toOption = some (.sendD 0xBEEF, []) ∧
  (decode .outbound .w16 .three [0x42, 0x00, 0x02, 0x02, 0x15, 0xC0]).toOption = some (.sendB 0x202 0x15C0, []) ∧
  (decode .outbound .w22 .three [0x55, 0x00, 0x02, 0x02, 0x15, 0xC0, 0x81, 0x02]).toOption =
    some (.sendU 0x202 0x15C0, []) ∧
  (decode .outbound .w22 .three [0x63, 0x01, 0x04, 0x46]).toOption = some (.sendAck 0x01 0x04, [0x46]) ∧
  (decode .outbound .w16 .three [0x41, 0x01, 0x00, 0x00]).toOption = none

/-- Every well-formed inbound operation is read back from its one byte, and every byte decodes to a well-formed
operation whose byte it is (41_inbound_decode.md R100; 30_encoding.md R69). Rests on the spec's choices D1, D6. -/
def Obligations.InboundByteRoundTrip : Prop :=
  ∀ (wm : Width) (alen : AddrLen) (s0 s1 : Byte),
    (∀ (i : Instr) (rest : List Byte), i.direction = .inbound → i.wellFormed = true →
      ∃ b, encode wm alen s0 s1 i = some [b] ∧ (decode .inbound wm alen (b :: rest)).toOption = some (i, rest)) ∧
    (∀ b : Byte, (decodeIn b).direction = .inbound ∧ (decodeIn b).wellFormed = true ∧
      encode wm alen s0 s1 (decodeIn b) = some [b])

/-- Decode and encode agree on frames: whatever the width mode, the address length, the status fields and the bytes
that follow, the frame of an outbound operation is read back as that operation with every operand, when its
address fits the mode (30_encoding.md R62 to R68; the laws of R68 are the spec's derivation, D1, D3 and D5 its
choices). -/
def Obligations.OutboundFrameRoundTrip : Prop :=
  ∀ (wm : Width) (alen : AddrLen) (s0 s1 : Byte) (i : Instr) (rest : List Byte),
    i.direction = .outbound → i.fits wm alen →
      ∃ frame, encode wm alen s0 s1 i = some frame ∧
        (decode .outbound wm alen (frame ++ rest)).toOption = some (i, rest)

/-- The other direction: what the reference decoder accepts is a frame of the codec, namely that of the operation
read, for the status bytes it carries, followed by the rest (30_encoding.md R62 to R68; D1, D3, D5). -/
def Obligations.DecodedFramesReencode : Prop :=
  ∀ (wm : Width) (alen : AddrLen) (bytes rest : List Byte) (i : Instr),
    (decode .outbound wm alen bytes).toOption = some (i, rest) →
      i.direction = .outbound ∧ i.fits wm alen ∧
        ∃ s0 s1 frame, encode wm alen s0 s1 i = some frame ∧ bytes = frame ++ rest

/-- The laws of 30_encoding.md R68, which the spec derives from R63 and R64: decoding the address bytes gives the
address masked to the width mode, and decoding the data bytes gives the datum. -/
def Obligations.AddressAndDataFieldsDecode : Prop :=
  (∀ (wm : Width) (a : Addr), ∃ ah am al,
    addrBytes wm .three a = [ah, am, al] ∧ decAddr ah am al = (a &&& wm.fullMask).setWidth 24 ∧
      ah &&& ~~~wm.topMask = 0) ∧
  (∀ d : Datum, ∃ dh dl, dataBytes d = [dh, dl] ∧ decData dh dl = d)

/-! ## Steps -/

/-- A step runs the decoded operation, and does nothing around it but consume the input: an invoked operation, and
the operation of the byte a poll finds; a poll that finds nothing, or that runs while inactive, and the
absence of any input give the state itself (00_scope.md R6, 41_inbound_decode.md R113; the input lists and the
refusal of an ill-formed term are the model's, log 1, log 15, log 17). -/
def Obligations.StepRunsDecodedOperation : Prop :=
  (∀ (s : State) (i : Instr) (rest : List Event), s.events = .invoke i :: rest →
    (i.wellFormed = true → step s = exec i { s with events := rest }) ∧
    (i.wellFormed = false → step s = .refused .illFormedOperation)) ∧
  (∀ (s : State) (rest : List Event), s.events = .poll :: rest →
    (∀ b rx, s.active = true → s.rx = some b :: rx →
      step s = exec (decodeIn b) { s with events := rest, rx := rx }) ∧
    (∀ rx, s.active = true → s.rx = none :: rx → step s = .next { s with events := rest, rx := rx }) ∧
    (s.active = false → step s = .next { s with events := rest })) ∧
  (∀ s : State, s.events = [] → step s = .next s)

/-- A word of the opcode table placed with `withFetchWord` runs as the very next operation, on the state it was
placed in (the model's reading of table words, log 1 and log 14). -/
def Obligations.PlacedWordRunsNext : Prop :=
  ∀ (s : State) (nbits w : Nat) (i : Instr), s.active = true → decodeTableWord nbits w = some i →
    step (s.withFetchWord nbits w) = exec i s

/-- Every operation answers a next state but one: `SET_BIT` on a bit of another producer, which is refused
(60_exceptions.md R180: no error stops the block; 42_status_manager.md R122 and the spec's choice D9). -/
def Obligations.OnlySetBitCanBeRefused : Prop :=
  ∀ (i : Instr) (s : State),
    (∃ t, exec i s = .next t) ∨
      ∃ field flag on, i = .setBit field flag on ∧ s.active = true ∧
        s.flagBreaks Config.hw field flag = true ∧ exec i s = .refused .bitOwnedByAnotherProducer

/-! ## Reset, attach, detach, loss of the link -/

/-- What reset leaves. `S`, `act_addr`, `inv_addr` and the first-flags are zero as 10_state.md R28 says;
`halt_mode`, `ACKQ` and the counters are the spec's choices D16 and D17 (log 6); the histories are empty
(70_reset_and_hazards.md R215). -/
def Obligations.ResetRegisters : Prop :=
  State.reset.s0 = 0x00 ∧ State.reset.s1 = 0x00 ∧ State.reset.actAddr = 0 ∧ State.reset.invAddr = false ∧
  State.reset.firstExam = false ∧ State.reset.firstDep = false ∧ State.reset.haltMode = .run ∧
  State.reset.ackq = none ∧ State.reset.updateCount = 0 ∧ State.reset.rotaryCount = 0 ∧
  State.reset.connected = true ∧ State.reset.dormant = false ∧
  State.reset.tx = [] ∧ State.reset.signals = [] ∧ State.reset.reports = []

/-- A successful attach puts every register at its reset value and sends no frame (10_state.md R28,
70_reset_and_hazards.md R200; for `halt_mode`, `ACKQ` and the counters the spec's choices D16 and D17, log 6). The
values of `SW` and `ROT` are the model's choice (log 4), and so is that what was recorded in an earlier session stays
in the histories (log 21; the clean start of R215 has them empty). -/
def Obligations.AttachIsReset : Prop :=
  ∀ (s : State) (m : Model) (kind : TransportKind) (line : List Char) (rest : List Event),
    s.attached = false → s.events = .attach (some m) kind line true :: rest →
      step s = .next { State.reset with
        model := m, transportKind := kind, lineConfig := line, events := rest
        tx := s.tx, signals := s.signals, reports := s.reports
        rx := s.rx, sends := s.sends, draws := s.draws }

/-- An unsupported variant makes the block dormant, attach itself does not fail, and from then on no operation does
anything; only a detach ends it (60_exceptions.md R181, R188). That the dormant session is an attached one and that one
`ConfigError` report is recorded is the model's choice (log 11), and so is that the histories are kept (log 21). -/
def Obligations.UnsupportedVariantGoesDormant : Prop :=
  (∀ (s : State) (kind : TransportKind) (line : List Char) (opened : Bool) (rest : List Event),
    s.attached = false → s.events = .attach none kind line opened :: rest →
      ∃ t, step s = .next t ∧ t.dormant = true ∧ t.attached = true ∧ t.reports = s.reports ++ [.configError] ∧
        t.tx = s.tx ∧ t.signals = s.signals ∧ t.events = rest) ∧
  (∀ (u : State) (i : Instr), u.dormant = true → exec i u = .next u) ∧
  (∀ (u v : State), u.attached = true → u.dormant = true → step u = .next v → v.dormant = false →
    ∃ rest, u.events = .detach :: rest)

/-- A transport that does not open fails the attach: the caller is informed, `connected` is 0, and there is no
session (60_exceptions.md R182). That the histories of earlier sessions are kept, with one report added, is the model's
choice (log 21). -/
def Obligations.FailedTransportLeavesNoSession : Prop :=
  ∀ (s : State) (m : Model) (kind : TransportKind) (line : List Char) (rest : List Event),
    s.attached = false → s.events = .attach (some m) kind line false :: rest →
      ∃ t, step s = .next t ∧ t.attached = false ∧ t.connected = false ∧
        t.reports = s.reports ++ [.linkError] ∧ t.tx = s.tx ∧ t.signals = s.signals ∧ t.events = rest ∧
        ∀ i, exec i t = .next t

/-- Detach discards the state: whatever it was, there is no session after it, and a later attach starts from the reset
values (10_state.md R29, R28; `halt_mode`, `ACKQ` and the counters by the spec's choices D16 and D17, log 6). The
values of `SW` and `ROT` after that attach are the model's choice (log 4), and so is that the histories are kept
(log 21). -/
def Obligations.DetachDiscardsState : Prop :=
  ∀ (s : State) (m : Model) (kind : TransportKind) (line : List Char) (rest : List Event),
    s.events = .detach :: .attach (some m) kind line true :: rest →
      ∃ u, step s = .next u ∧ u.attached = false ∧ (∀ i, exec i u = .next u) ∧
        step u = .next { State.reset with
          model := m, transportKind := kind, lineConfig := line, events := rest
          tx := s.tx, signals := s.signals, reports := s.reports
          rx := s.rx, sends := s.sends, draws := s.draws }

/-- The loss of the link is an input that clears `connected` and writes nothing else (60_exceptions.md R186; the
spec's choice D35); an attach within a session is a stop of the model (70_reset_and_hazards.md R214; log 10). -/
def Obligations.LinkDownClearsConnected : Prop :=
  (∀ (s : State) (rest : List Event), s.events = .linkDown :: rest →
    step s = .next { s with connected := false, events := rest }) ∧
  (∀ (s : State) (m : Option Model) (kind : TransportKind) (line : List Char) (opened : Bool) (rest : List Event),
    s.attached = true → s.events = .attach m kind line opened :: rest → step s = .fault .attachWithinSession)

/-- 60_exceptions.md R185 and 40_outbound_frames.md R90: while the link is lost or the block dormant, every
operation is a no-op, and so is the poll. -/
def Obligations.InactiveIsNoOp : Prop :=
  ∀ (s : State), s.connected = false ∨ s.dormant = true →
    (∀ i : Instr, exec i s = .next s) ∧
    ∀ rest : List Event, s.events = .poll :: rest → step s = .next { s with events := rest }

/-! ## Outbound frames -/

/-- 40_outbound_frames.md R80: `SEND_A` sends the tag and the address bytes of the active model's width mode, and
writes no register. The bytes of frames rest on the spec's choices D1, D3, D4 and D5 (log 7). -/
def Obligations.SendAddressFrame : Prop :=
  ∀ (a : Addr) (s : State) (rest : List SendResult), s.active = true → s.sends = .ok :: rest →
    exec (.sendA a) s = .next { s with
      sends := rest
      tx := s.tx ++ [⟨[0x41, BitVec.setWidth 8 (a.extractLsb' 16 6) &&&
        (match Config.hw.width s.model with | .w16 => 0x00 | .w18 => 0x03 | .w22 => 0x3F),
        a.extractLsb' 8 8, a.extractLsb' 0 8], 4⟩] }

/-- 40_outbound_frames.md R81 with 30_encoding.md R64: `SEND_D` sends the tag and the two data bytes, high byte first,
unmasked, and writes no register. The bytes of frames rest on the spec's choices D1, D3, D4 and D5 (log 7). -/
def Obligations.SendDataFrame : Prop :=
  ∀ (d : Datum) (s : State) (rest : List SendResult), s.active = true → s.sends = .ok :: rest →
    exec (.sendD d) s = .next { s with
      sends := rest, tx := s.tx ++ [⟨[0x44, d.extractLsb' 8 8, d.extractLsb' 0 8], 3⟩] }

/-- `SEND_B`, `SEND_U` and `SEND_F`: address before data before status, `S[0]` before `S[1]`, the status fields as
they are at the send (40_outbound_frames.md R82, R83, R84; the field order is the spec's choice D5). The bytes of
frames rest on the spec's choices D1, D3, D4 and D5 (log 7). -/
def Obligations.SendCompositeFrames : Prop :=
  ∀ (a : Addr) (d : Datum) (s : State) (rest : List SendResult), s.active = true → s.sends = .ok :: rest →
    exec (.sendB a d) s = .next { s with
      sends := rest
      tx := s.tx ++ [⟨[0x42, BitVec.setWidth 8 (a.extractLsb' 16 6) &&&
        (match Config.hw.width s.model with | .w16 => 0x00 | .w18 => 0x03 | .w22 => 0x3F),
        a.extractLsb' 8 8, a.extractLsb' 0 8, d.extractLsb' 8 8, d.extractLsb' 0 8], 6⟩] } ∧
    exec (.sendU a d) s = .next { s with
      sends := rest
      tx := s.tx ++ [⟨[0x55, BitVec.setWidth 8 (a.extractLsb' 16 6) &&&
        (match Config.hw.width s.model with | .w16 => 0x00 | .w18 => 0x03 | .w22 => 0x3F),
        a.extractLsb' 8 8, a.extractLsb' 0 8, d.extractLsb' 8 8, d.extractLsb' 0 8, s.s0, s.s1], 8⟩] } ∧
    exec .sendF s = .next { s with sends := rest, tx := s.tx ++ [⟨[0x46, s.s0, s.s1], 3⟩] }

/-- The frames of the queries: one tag each, and nothing else is sent (40_outbound_frames.md R85, R86; the tags'
byte values are the spec's choice D1). -/
def Obligations.QueryFramesSent : Prop :=
  ∀ (s t : State) (rest : List SendResult), s.active = true → s.sends = .ok :: rest →
    (exec .sendQ s = .next t → t.tx = s.tx ++ [⟨[0x51], 1⟩] ∧ t.sends = rest) ∧
    (exec .sendR s = .next t → t.tx = s.tx ++ [⟨[0x52], 1⟩] ∧ t.sends = rest)

/-- 30_encoding.md R77: the five bytes that answer a `Q` frame are stored in order into `SW`, the one byte that
answers an `R` frame into `ROT`, raw; no other frame has a response. -/
def Obligations.QueriesStoreResponses : Prop :=
  (∀ (s : State) (rest : List SendResult) (b0 b1 b2 b3 b4 : Byte) (rx : List (Option Byte)),
    s.active = true → s.sends = .ok :: rest →
    s.rx = some b0 :: some b1 :: some b2 :: some b3 :: some b4 :: rx →
      ∃ sent, exec .sendQ s = .next { s with
        sends := rest, rx := rx, sw := ⟨b0, b1, b2, b3, b4⟩, tx := s.tx ++ [sent] }) ∧
  (∀ (s : State) (rest : List SendResult) (b : Byte) (rx : List (Option Byte)),
    s.active = true → s.sends = .ok :: rest → s.rx = some b :: rx →
      ∃ sent, exec .sendR s = .next { s with sends := rest, rx := rx, rot := b, tx := s.tx ++ [sent] }) ∧
  (∀ (i : Instr) (s t : State), i.direction = .outbound → i ≠ .sendQ → i ≠ .sendR → exec i s = .next t →
    t.rx = s.rx ∧ t.sw = s.sw ∧ t.rot = s.rot)

/-- A response that breaks off is reported and stores nothing: `SW` and `ROT` keep their former values
(40_outbound_frames.md R85, R86; the spec's choice D43). That the bytes which did come are consumed is the model's
reading (log 9). The bytes of frames rest on the spec's choices D1, D3, D4 and D5 (log 7). -/
def Obligations.ShortResponseStoresNothing : Prop :=
  (∀ (s : State) (rest : List SendResult) (came : List Byte) (rx : List (Option Byte)),
    s.active = true → s.sends = .ok :: rest → came.length < 5 → s.rx = came.map some ++ none :: rx →
      exec .sendQ s = .next { s with
        sends := rest, rx := rx, tx := s.tx ++ [⟨[0x51], 1⟩], reports := s.reports ++ [.transportIOError] }) ∧
  (∀ (s : State) (rest : List SendResult) (rx : List (Option Byte)),
    s.active = true → s.sends = .ok :: rest → s.rx = none :: rx →
      exec .sendR s = .next { s with
        sends := rest, rx := rx, tx := s.tx ++ [⟨[0x52], 1⟩], reports := s.reports ++ [.transportIOError] })

/-- The acknowledge is one-shot and the clear-all frames touch no register: `SEND_c` empties `ACKQ` once its frame is
sent, whatever was pending (40_outbound_frames.md R87 to R89; the spec's choices D7 and D26). The bytes of frames
rest on the spec's choices D1, D3, D4 and D5 (log 7). -/
def Obligations.ToggleFramesSent : Prop :=
  ∀ (p m : Byte) (s : State) (rest : List SendResult), s.active = true → s.sends = .ok :: rest →
    exec (.sendAck p m) s = .next { s with
      sends := rest, ackq := none, tx := s.tx ++ [⟨[0x63, p, m], 3⟩] } ∧
    exec .sendClearI s = .next { s with sends := rest, tx := s.tx ++ [⟨[0x69], 1⟩] } ∧
    exec .sendClearA s = .next { s with sends := rest, tx := s.tx ++ [⟨[0x61], 1⟩] }

/-- An outbound operation whose `Send` fails reports `TransportIOError`, is not retried, and writes nothing but what its
rule writes before the `Send` (40_outbound_frames.md R91), which is the pending acknowledgement of `SEND_c` (R87; the
spec's choice D26, log 6). The frame recorded is the operation's own; only a proper part of it got through
(60_exceptions.md R183, U6), the count `k` modulo its length being the model's way to draw it (log 3). The bytes of
frames rest on the spec's choices D1, D3, D4 and D5 (log 7). -/
def Obligations.FailedSendEndsOperation : Prop :=
  ∀ (i : Instr) (s : State) (k : Nat) (rest : List SendResult),
    i.direction = .outbound → s.active = true → s.sends = .fail k :: rest →
      ∃ sent : Sent,
        encode (Config.hw.wm s.model) (Config.hw.addrLen (Config.hw.wm s.model)) s.s0 s.s1 i = some sent.frame ∧
        sent.delivered = k % sent.frame.length ∧ sent.delivered < sent.frame.length ∧
        exec i s = .next { s with
          sends := rest, tx := s.tx ++ [sent], reports := s.reports ++ [.transportIOError]
          ackq := match i with | .sendAck p m => some ⟨p, m⟩ | _ => s.ackq }

/-- A `Send` in progress at a detach is abandoned: some part of the operation's frame got through, nothing is reported,
the rest of the operation is not run, and the session ends (70_reset_and_hazards.md R201, U6). The first clause says so
of an outbound operation, the second of a load-address whose address frame is abandoned: its own writes are those of
43_console_commands.md R145, `inv_addr` cleared by the spec's choice D18 (log 6). The third says that an operation
leaves the host's input as it was or puts one detach before it, and that this detach ends the session in the very next
step with nothing more recorded. That the step which abandons leaves the detach to the next one, and how the count is
drawn from `k`, are the model's choices (log 13); the histories are kept by log 21. The bytes of frames rest on the
spec's choices D1, D3, D4 and D5 (log 7). -/
def Obligations.DetachAbandonsSend : Prop :=
  (∀ (i : Instr) (s : State) (k : Nat) (rest : List SendResult) (ev : List Event),
    i.direction = .outbound → s.active = true → s.sends = .abandoned k :: rest → s.events = .invoke i :: ev →
      ∃ frame t u,
        encode (Config.hw.wm s.model) (Config.hw.addrLen (Config.hw.wm s.model)) s.s0 s.s1 i = some frame ∧
        step s = .next t ∧ step t = .next u ∧ u.attached = false ∧ u.events = ev ∧ u.sends = rest ∧
        u.tx = s.tx ++ [⟨frame, k % (frame.length + 1)⟩] ∧ u.signals = s.signals ∧ u.reports = s.reports ∧
        ∀ j, exec j u = .next u) ∧
  (∀ (s : State) (k : Nat) (rest : List SendResult) (b0 b1 b2 b3 b4 : Byte) (rx : List (Option Byte)) (v : Addr),
    s.active = true → s.sends = .ok :: .abandoned k :: rest →
    s.rx = some b0 :: some b1 :: some b2 :: some b3 :: some b4 :: rx →
    v = Config.hw.swAddr s.model ⟨b0, b1, b2, b3, b4⟩ &&& (Config.hw.width s.model).fullMask →
      exec .cmdL s = .next { s with
        sw := ⟨b0, b1, b2, b3, b4⟩, actAddr := v, invAddr := false, firstExam := true, firstDep := true
        sends := rest, rx := rx, events := .detach :: s.events
        tx := s.tx ++ [⟨[0x51], 1⟩, ⟨0x41 :: addrBytes (Config.hw.width s.model) .three v, k % 5⟩] }) ∧
  (∀ (i : Instr) (s t : State), exec i s = .next t →
    t.events = s.events ∨
      t.events = .detach :: s.events ∧
        ∃ u, step t = .next u ∧ u.attached = false ∧ u.events = s.events ∧ u.tx = t.tx ∧ u.signals = t.signals ∧
          u.reports = t.reports)

/-- The frame of the outbound operations, whatever the transport and the panel do: each adds at most its one frame
to the history and leaves every register alone but those its rule names (40_outbound_frames.md R80 to R91). The host's
input may gain the detach that abandons the `Send` (log 13). -/
def Obligations.OutboundOperationsFrame : Prop :=
  ∀ (i : Instr) (s t : State), i.direction = .outbound → exec i s = .next t →
    SameStatus s t ∧ SameMirror s t ∧ SameCounters s t ∧ SameLink s t ∧
    t.signals = s.signals ∧ KeepsEvents s t ∧
    (i ≠ .sendQ → t.sw = s.sw) ∧ (i ≠ .sendR → t.rot = s.rot) ∧
    ((∀ p m, i ≠ .sendAck p m) → t.ackq = s.ackq) ∧
    (i ≠ .sendQ → i ≠ .sendR → t.rx = s.rx) ∧
    (t.tx = s.tx ∨ ∃ e, t.tx = s.tx ++ [e])

/-! ## Console commands -/

/-- 41_inbound_decode.md R107: byte 0 is "no command pending" and does nothing at all. -/
def Obligations.NoCommandDoesNothing : Prop :=
  decodeIn 0x00 = .cmdNul ∧ ∀ s : State, exec .cmdNul s = .next s

/-- 41_inbound_decode.md R109: any byte outside the eight is ignored: it is consumed by the poll and nothing else
changes. -/
def Obligations.OtherBytesAreIgnored : Prop :=
  ∀ b : Byte, b ≠ 0x00 → b ≠ 0x45 → b ≠ 0x48 → b ≠ 0x63 → b ≠ 0x64 → b ≠ 0x6C → b ≠ 0x73 → b ≠ 0x78 →
    decodeIn b = .cmdIgn b ∧ (∀ s : State, exec (.cmdIgn b) s = .next s) ∧
    ∀ (s : State) (rest : List Event) (rx : List (Option Byte)),
      s.active = true → s.events = .poll :: rest → s.rx = some b :: rx →
        step s = .next { s with events := rest, rx := rx }

/-- The HALT key: down forces HaltDown, up forces EnableIdle and drops a pending acknowledgement without sending it;
each from any prior state, each ending in one status frame (43_console_commands.md R153, R154; the closing frame is the
spec's choice D29, no clear-all frame its choice D27, no acknowledge its choice D28, log 6). The bytes of frames rest on
the spec's choices D1, D3, D4 and D5 (log 7). -/
def Obligations.HaltKeySetsMode : Prop :=
  ∀ (s : State) (rest : List SendResult), s.active = true → s.sends = .ok :: rest →
    exec .cmdH s = .next { s with
      haltMode := .haltDown, sends := rest, tx := s.tx ++ [⟨[0x46, s.s0, s.s1], 3⟩] } ∧
    exec .cmdE s = .next { s with
      haltMode := .enableIdle, ackq := none, sends := rest, tx := s.tx ++ [⟨[0x46, s.s0, s.s1], 3⟩] }

/-- Continue: `step` in HaltDown with the address-error bit kept; else `continue`, and on the two widest models the
address-error bit cleared; one status frame, no acknowledge, and no other register (43_console_commands.md R152;
the spec's choice D28). The bytes of frames rest on the spec's choices D1, D3, D4 and D5 (log 7). -/
def Obligations.ContinueSignals : Prop :=
  ∀ (s : State) (rest : List SendResult), s.active = true → s.sends = .ok :: rest →
    (s.haltMode = .haltDown → exec .cmdC s = .next { s with
      sends := rest, signals := s.signals ++ [.step], tx := s.tx ++ [⟨[0x46, s.s0, s.s1], 3⟩] }) ∧
    (s.haltMode ≠ .haltDown → ∃ v0 v1,
      exec .cmdC s = .next { s with
        s0 := v0, s1 := v1, sends := rest, signals := s.signals ++ [.continue_]
        tx := s.tx ++ [⟨[0x46, v0, v1], 3⟩] } ∧
      (s.model = .m3 ∨ s.model = .m4 →
        { s with s0 := v0, s1 := v1 }.statusBit Config.hw.layout.addrErr = false ∧
        SameStatusBut [Config.hw.layout.addrErr] s { s with s0 := v0, s1 := v1 }) ∧
      (s.model ≠ .m3 → s.model ≠ .m4 → v0 = s.s0 ∧ v1 = s.s1))

/-- Start: `reset all` in HaltDown, else `run` at `act_addr`; the mode is Run afterwards either way; one status frame,
no acknowledge (43_console_commands.md R151; the spec's choices D16 and D28). The bytes of frames rest on the
spec's choices D1, D3, D4 and D5 (log 7). -/
def Obligations.StartSignals : Prop :=
  ∀ (s : State) (rest : List SendResult), s.active = true → s.sends = .ok :: rest →
    exec .cmdS s = .next { s with
      haltMode := .run, sends := rest
      signals := s.signals ++ [if s.haltMode = .haltDown then .resetAll else .run s.actAddr]
      tx := s.tx ++ [⟨[0x46, s.s0, s.s1], 3⟩] }

/-- Load-address: the query, the switch value masked to the model, both first-flags set, `inv_addr` cleared, then the
address frame, the acknowledge and the status frame (43_console_commands.md R145; clearing `inv_addr` is the spec's
choice D18, the acknowledge sent at once its choice D26, log 6). The bytes of frames rest on the spec's choices D1, D3,
D4 and D5 (log 7). -/
def Obligations.LoadAddressLoadsSwitches : Prop :=
  ∀ (s : State) (rest : List SendResult) (b0 b1 b2 b3 b4 : Byte) (rx : List (Option Byte)) (v : Addr),
    s.active = true → s.sends = .ok :: .ok :: .ok :: .ok :: rest →
    s.rx = some b0 :: some b1 :: some b2 :: some b3 :: some b4 :: rx →
    v = Config.hw.swAddr s.model ⟨b0, b1, b2, b3, b4⟩ &&& (Config.hw.width s.model).fullMask →
      exec .cmdL s = .next { s with
        sw := ⟨b0, b1, b2, b3, b4⟩, actAddr := v, invAddr := false, firstExam := true, firstDep := true
        ackq := none, sends := rest, rx := rx
        tx := s.tx ++ [⟨[0x51], 1⟩, ⟨0x41 :: addrBytes (Config.hw.width s.model) .three v, 4⟩,
          ⟨[0x63, Config.hw.ackLoad.port, Config.hw.ackLoad.mask], 3⟩, ⟨[0x46, s.s0, s.s1], 3⟩] }

/-- A failed frame inside a command: what was written before it stays, the frames after it are skipped, the closing
status frame among them, and `TransportIOError` is reported (43_console_commands.md R142; the spec's choice D35, log 6).
The frame at fault is the `n`-th, counted from 0: for load-address and deposit any after the query (of a query that
fails, `FailedQueryWritesNoAddress` speaks), for examine any, for continue, start and the HALT key their one frame,
compared with the run in which it gets through. An acknowledge that fails stays pending (40_outbound_frames.md R87;
D26). How much of the frame at fault got through the spec leaves unspecified (20_memory.md R46); that its length is `k`
modulo the frame's is the model's choice (log 3). Frames and effects of the paths taken are the spec's choices D16, D18,
D20 to D23, D27 to D29, D42 (log 6), the register window D24, the mirrored ROM windows D25, the bytes of frames D1, D3,
D4 and D5 (log 7). -/
def Obligations.FailedFrameSkipsRestOfCommand : Prop :=
  ∀ (s : State) (n k : Nat) (rest : List SendResult),
    s.active = true → s.sends = List.replicate n .ok ++ .fail k :: rest →
    (∀ (b0 b1 b2 b3 b4 : Byte) (rx : List (Option Byte)) (v : Addr), 1 ≤ n → n < 4 →
      s.rx = some b0 :: some b1 :: some b2 :: some b3 :: some b4 :: rx →
      v = Config.hw.swAddr s.model ⟨b0, b1, b2, b3, b4⟩ &&& (Config.hw.width s.model).fullMask →
        exec .cmdL s = .next { s with
          sw := ⟨b0, b1, b2, b3, b4⟩, actAddr := v, invAddr := false, firstExam := true, firstDep := true
          ackq := if n = 1 then s.ackq else if n = 2 then some Config.hw.ackLoad else none
          sends := rest, rx := rx, reports := s.reports ++ [.transportIOError]
          tx := s.tx ++ cutShort [[0x51], 0x41 :: addrBytes (Config.hw.width s.model) .three v,
            [0x63, Config.hw.ackLoad.port, Config.hw.ackLoad.mask], [0x46, s.s0, s.s1]] n k }) ∧
    (∀ t : Addr, n < 3 → s.invAddr = false → t = s.target Config.hw s.firstExam →
      t ≤ (Config.hw.width s.model).fullMask →
        exec .cmdX s = .next { s with
          actAddr := t, firstExam := false, signals := s.signals ++ [.examine]
          ackq := if n = 0 then s.ackq else if n = 1 then some Config.hw.ackExam else none
          sends := rest, reports := s.reports ++ [.transportIOError]
          tx := s.tx ++ cutShort [0x41 :: addrBytes (Config.hw.width s.model) .three t,
            [0x63, Config.hw.ackExam.port, Config.hw.ackExam.mask], [0x46, s.s0, s.s1]] n k }) ∧
    (∀ (b0 b1 b2 b3 b4 : Byte) (rx : List (Option Byte)) (t : Addr) (d : Datum), 1 ≤ n → n < 4 →
      s.rx = some b0 :: some b1 :: some b2 :: some b3 :: some b4 :: rx → s.invAddr = false →
      t = s.target Config.hw s.firstDep → t ≤ (Config.hw.width s.model).fullMask →
      inRom (Config.hw.width s.model) t = false →
      d = (Config.hw.swAddr s.model ⟨b0, b1, b2, b3, b4⟩).setWidth 16 →
        exec .cmdD s = .next { s with
          sw := ⟨b0, b1, b2, b3, b4⟩, actAddr := t, firstDep := false, signals := s.signals ++ [.deposit t d]
          ackq := if n = 1 then s.ackq else if n = 2 then some Config.hw.ackDepo else none
          sends := rest, rx := rx, reports := s.reports ++ [.transportIOError]
          tx := s.tx ++ cutShort [[0x51], 0x42 :: (addrBytes (Config.hw.width s.model) .three t ++
              [d.extractLsb' 8 8, d.extractLsb' 0 8]),
            [0x63, Config.hw.ackDepo.port, Config.hw.ackDepo.mask], [0x46, s.s0, s.s1]] n k }) ∧
    (∀ (i : Instr) (t : State), n = 0 → i ∈ [Instr.cmdH, .cmdE, .cmdC, .cmdS] →
      exec i { s with sends := .ok :: rest } = .next t →
        exec i s = .next { t with
          reports := s.reports ++ [.transportIOError], tx := s.tx ++ cutShort [[0x46, t.s0, t.s1]] 0 k })

/-- A load-address or a deposit whose query fails, or whose response breaks off, writes no address and no other
register, sends nothing more and reports `TransportIOError` (43_console_commands.md R142, R145, R147;
40_outbound_frames.md R85; the spec's choice D35, log 6; for a deposit, that the query comes first its choice D21). That
the bytes of a short response are consumed is the model's reading (log 9). The query's code is the spec's choice D1, the
windows that a deposit's target is tested against its choices D24 and D25 (log 7). -/
def Obligations.FailedQueryWritesNoAddress : Prop :=
  ∀ (i : Instr) (s : State), s.active = true →
    i = .cmdL ∨ i = .cmdD ∧ s.invAddr = false ∧
      s.target Config.hw s.firstDep ≤ (Config.hw.width s.model).fullMask ∧
      inRom (Config.hw.width s.model) (s.target Config.hw s.firstDep) = false →
    (∀ (k : Nat) (rest : List SendResult), s.sends = .fail k :: rest →
      exec i s = .next { s with
        sends := rest, reports := s.reports ++ [.transportIOError], tx := s.tx ++ [⟨[0x51], 0⟩] }) ∧
    (∀ (rest : List SendResult) (came : List Byte) (rx : List (Option Byte)),
      s.sends = .ok :: rest → came.length < 5 → s.rx = came.map some ++ none :: rx →
        exec i s = .next { s with
          sends := rest, rx := rx, reports := s.reports ++ [.transportIOError], tx := s.tx ++ [⟨[0x51], 1⟩] })

/-- The increment: one step inside the register alias window, else the next even address, wrapping to 0 at 2^22;
it is skipped for a first operation (43_console_commands.md R144; the window is the spec's choice D24). -/
def Obligations.IncrementRule : Prop :=
  (∀ a : Addr, 0x3FFC0 ≤ a.toNat → a.toNat ≤ 0x3FFC7 → (incr Config.hw a).toNat = a.toNat + 1) ∧
  (∀ a : Addr, a.toNat < 0x3FFC0 ∨ 0x3FFC7 < a.toNat →
    (incr Config.hw a).toNat = (a.toNat + 2) / 2 * 2 % 2 ^ 22) ∧
  (∀ s : State, s.target Config.hw true = s.actAddr ∧ s.target Config.hw false = incr Config.hw s.actAddr)

/-- Examine with a target in range: the address moves, the collaborator is told, the first-flag is cleared, and the
address frame, the acknowledge and the status frame go out (43_console_commands.md R146; the spec's choices D20, D23,
D26 and D42, log 6; the register window of the target D24, log 7). The bytes of frames rest on the spec's choices D1,
D3, D4 and D5 (log 7). -/
def Obligations.ExamineMovesAddress : Prop :=
  ∀ (s : State) (rest : List SendResult) (t : Addr),
    s.active = true → s.sends = .ok :: .ok :: .ok :: rest → s.invAddr = false →
    t = s.target Config.hw s.firstExam → t ≤ (Config.hw.width s.model).fullMask →
      exec .cmdX s = .next { s with
        actAddr := t, firstExam := false, ackq := none, sends := rest, signals := s.signals ++ [.examine]
        tx := s.tx ++ [⟨0x41 :: addrBytes (Config.hw.width s.model) .three t, 4⟩,
          ⟨[0x63, Config.hw.ackExam.port, Config.hw.ackExam.mask], 3⟩, ⟨[0x46, s.s0, s.s1], 3⟩] }

/-- Deposit with a target in range and outside the ROM windows: the query, the datum from the refreshed switches, the
address moves, the collaborator is told, the first-flag is cleared, and the address and data frame, the
acknowledge and the status frame go out (43_console_commands.md R147; the spec's choices D20 to D23,
D26 and D42, log 6; the register window of the target D24 and the mirrored ROM windows D25, log 7). The bytes of frames
rest on the spec's choices D1, D3, D4 and D5 (log 7). -/
def Obligations.DepositMovesAddress : Prop :=
  ∀ (s : State) (rest : List SendResult) (b0 b1 b2 b3 b4 : Byte) (rx : List (Option Byte)) (t : Addr) (d : Datum),
    s.active = true → s.sends = .ok :: .ok :: .ok :: .ok :: rest →
    s.rx = some b0 :: some b1 :: some b2 :: some b3 :: some b4 :: rx → s.invAddr = false →
    t = s.target Config.hw s.firstDep → t ≤ (Config.hw.width s.model).fullMask →
    inRom (Config.hw.width s.model) t = false →
    d = (Config.hw.swAddr s.model ⟨b0, b1, b2, b3, b4⟩).setWidth 16 →
      exec .cmdD s = .next { s with
        sw := ⟨b0, b1, b2, b3, b4⟩, actAddr := t, firstDep := false, ackq := none, sends := rest, rx := rx
        signals := s.signals ++ [.deposit t d]
        tx := s.tx ++ [⟨[0x51], 1⟩,
          ⟨0x42 :: (addrBytes (Config.hw.width s.model) .three t ++ [d.extractLsb' 8 8, d.extractLsb' 0 8]), 6⟩,
          ⟨[0x63, Config.hw.ackDepo.port, Config.hw.ackDepo.mask], 3⟩, ⟨[0x46, s.s0, s.s1], 3⟩] }

/-- When `inv_addr` is 1 already or the target is beyond the model's mask, examine and deposit report `InvalidAddress`,
set `inv_addr`, do not store the target, set the address-error bit on the two widest models and freeze the processor on
the two narrowest (60_exceptions.md R184, 43_console_commands.md R148). That an address already marked takes this path
again is the spec's choice D19; that an examine then still sends its three frames, its acknowledge among them, and a
deposit only the closing one is its choice D20 (with D22), the acknowledge at once D26; that the target is not stored is
its choice D42; that the freeze is an abstract signal is its choice D36 (all log 6); the register window of the target
is D24 (log 7). The frames themselves are those of `RejectedCommandFrames`. -/
def Obligations.InvalidAddressPath : Prop :=
  (∀ (s : State) (rest : List SendResult), s.active = true → s.sends = .ok :: .ok :: .ok :: rest →
    (s.invAddr = true ∨ ¬ s.target Config.hw s.firstExam ≤ (Config.hw.width s.model).fullMask) →
      ∃ v0 v1 sent,
        exec .cmdX s = .next { s with
          s0 := v0, s1 := v1, invAddr := true, ackq := none, sends := rest, tx := s.tx ++ sent
          reports := s.reports ++ [.invalidAddress]
          signals := s.signals ++ (if s.model = .m0 ∨ s.model = .m1 then [.freeze] else []) } ∧
        (s.model = .m3 ∨ s.model = .m4 →
          { s with s0 := v0, s1 := v1 }.statusBit Config.hw.layout.addrErr = true ∧
          SameStatusBut [Config.hw.layout.addrErr] s { s with s0 := v0, s1 := v1 }) ∧
        (s.model ≠ .m3 → s.model ≠ .m4 → v0 = s.s0 ∧ v1 = s.s1)) ∧
  (∀ (s : State) (rest : List SendResult), s.active = true → s.sends = .ok :: rest →
    (s.invAddr = true ∨ ¬ s.target Config.hw s.firstDep ≤ (Config.hw.width s.model).fullMask) →
      ∃ v0 v1 sent,
        exec .cmdD s = .next { s with
          s0 := v0, s1 := v1, invAddr := true, sends := rest, tx := s.tx ++ sent
          reports := s.reports ++ [.invalidAddress]
          signals := s.signals ++ (if s.model = .m0 ∨ s.model = .m1 then [.freeze] else []) } ∧
        (s.model = .m3 ∨ s.model = .m4 →
          { s with s0 := v0, s1 := v1 }.statusBit Config.hw.layout.addrErr = true ∧
          SameStatusBut [Config.hw.layout.addrErr] s { s with s0 := v0, s1 := v1 }) ∧
        (s.model ≠ .m3 → s.model ≠ .m4 → v0 = s.s0 ∧ v1 = s.s1))

/-- A deposit whose in-range target lies in a ROM window reports `BootRomProtected` and changes no register; examine and
load-address never report it (60_exceptions.md R187, 20_memory.md R42, 43_console_commands.md R149). That a closing
frame is sent on the rejection is the spec's choice D22 (log 6); that the windows are mirrored when the model's width is
22 is its choice D25, the register window of the target D24 (log 7). What goes out is `RejectedCommandFrames`. -/
def Obligations.RomDepositRejected : Prop :=
  (∀ (s : State) (rest : List SendResult) (t : Addr),
    s.active = true → s.sends = .ok :: rest → s.invAddr = false →
    t = s.target Config.hw s.firstDep → t ≤ (Config.hw.width s.model).fullMask →
    ((0xEA00 ≤ t.toNat ∧ t.toNat < 0xEC00) ∨ (0xF600 ≤ t.toNat ∧ t.toNat < 0xF800) ∨
      (Config.hw.width s.model = .w22 ∧
        ((0x3FEA00 ≤ t.toNat ∧ t.toNat < 0x3FEC00) ∨ (0x3FF600 ≤ t.toNat ∧ t.toNat < 0x3FF800)))) →
      ∃ sent, exec .cmdD s = .next { s with
        sends := rest, reports := s.reports ++ [.bootRomProtected], tx := s.tx ++ sent }) ∧
  (∀ (i : Instr) (s t : State), i = .cmdX ∨ i = .cmdL → exec i s = .next t →
    ∃ added, t.reports = s.reports ++ added ∧ .bootRomProtected ∉ added)

/-- The frames of a rejected command: an examine on the invalid path still shows the kept address and acknowledges;
a deposit on the invalid path or into a ROM window sends the status frame and nothing else, no query among it
(43_console_commands.md R146 to R149, 20_memory.md R42). By the spec's choices an address already marked takes the path
again (D19), the address shown is the kept one, since an out-of-range target is not written (D42), an examine sends its
three frames and a deposit only the closing one (D20, D22), and the acknowledge goes out at once (D26), all log 6; the
register window of the target is its choice D24, the mirrored ROM windows D25, the bytes of frames D1, D3, D4 and D5
(all log 7). -/
def Obligations.RejectedCommandFrames : Prop :=
  ∀ (s t : State) (rest : List SendResult), s.active = true → s.sends = .ok :: .ok :: .ok :: rest →
    ((s.invAddr = true ∨ ¬ s.target Config.hw s.firstExam ≤ (Config.hw.width s.model).fullMask) →
      exec .cmdX s = .next t →
        t.tx = s.tx ++ [⟨0x41 :: addrBytes (Config.hw.width s.model) .three s.actAddr, 4⟩,
          ⟨[0x63, Config.hw.ackExam.port, Config.hw.ackExam.mask], 3⟩, ⟨[0x46, t.s0, t.s1], 3⟩]) ∧
    ((s.invAddr = true ∨ ¬ s.target Config.hw s.firstDep ≤ (Config.hw.width s.model).fullMask ∨
        inRom (Config.hw.width s.model) (s.target Config.hw s.firstDep) = true) →
      exec .cmdD s = .next t → t.tx = s.tx ++ [⟨[0x46, t.s0, t.s1], 3⟩])

/-- The frame of the inbound operations, whatever the transport and the panel do: which registers each may change
(43_console_commands.md R145 to R154; `CROSS_RESET` false is the spec's choice D23, log 6). The host's input may gain
the detach that abandons a `Send` (log 13). -/
def Obligations.ConsoleCommandsFrame : Prop :=
  ∀ (i : Instr) (s t : State), i.direction = .inbound → exec i s = .next t →
    SameCounters s t ∧ SameLink s t ∧ t.rot = s.rot ∧ KeepsEvents s t ∧
    (i ≠ .cmdX → i ≠ .cmdD → i ≠ .cmdC → SameStatus s t) ∧
    (s.model.addrErrBit = false → SameStatus s t) ∧
    SameStatusBut [Config.hw.layout.addrErr] s t ∧
    (i ≠ .cmdL → i ≠ .cmdD → t.sw = s.sw ∧ t.rx = s.rx) ∧
    (i ≠ .cmdL → i ≠ .cmdX → i ≠ .cmdD → t.actAddr = s.actAddr ∧ t.invAddr = s.invAddr) ∧
    (i ≠ .cmdL → i ≠ .cmdX → t.firstExam = s.firstExam) ∧
    (i ≠ .cmdL → i ≠ .cmdD → t.firstDep = s.firstDep) ∧
    (i ≠ .cmdL → i ≠ .cmdX → i ≠ .cmdD → i ≠ .cmdE → t.ackq = s.ackq) ∧
    (i ≠ .cmdH → i ≠ .cmdE → i ≠ .cmdS → t.haltMode = s.haltMode)

/-- "Every command ends by pushing one status-only frame": each of the seven commands, when its sends and its response
succeed, leaves as the last frame a status frame with the status fields as they then are (43_console_commands.md
R141; the spec's choices D22 and D29). The bytes of frames rest on the spec's choices D1, D3, D4 and D5 (log 7).
-/
def Obligations.CommandEndsWithStatusFrame : Prop :=
  ∀ (i : Instr) (s t : State) (rest : List SendResult) (came : List Byte) (rx : List (Option Byte)),
    i ∈ [Instr.cmdH, .cmdE, .cmdC, .cmdD, .cmdL, .cmdS, .cmdX] → s.active = true →
    s.sends = .ok :: .ok :: .ok :: .ok :: rest → came.length = 5 → s.rx = came.map some ++ rx →
    exec i s = .next t → t.tx.getLast? = some ⟨[0x46, t.s0, t.s1], 3⟩

/-- Continue, start, and the HALT key send no acknowledge frame, whatever the transport does: "asymmetric by design"
(43_console_commands.md R155; for start, `H` and `E` the spec's choice D28). The bytes of frames rest on the
spec's choices D1, D3, D4 and D5 (log 7). -/
def Obligations.ContinueNeverAcknowledges : Prop :=
  ∀ (i : Instr) (s t : State), i ∈ [Instr.cmdC, .cmdS, .cmdH, .cmdE] → exec i s = .next t →
    AddsOnly (fun tag => tag ≠ 0x63) s t

/-! ## Status manager -/

/-- `set_bit` drives exactly the bits of its mask in its field (42_status_manager.md R122; mask operand: the spec's
choice D8, log 7; that no bit of another producer is among them, its choice D9, log 19). -/
def Obligations.SetBitDrivesFlag : Prop :=
  ∀ (field : StatusField) (flag : Byte) (on : Bool) (s : State),
    s.active = true → s.flagBreaks Config.hw field flag = false →
      ∃ v0 v1, exec (.setBit field flag on) s = .next { s with s0 := v0, s1 := v1 } ∧
        ∀ p : BitPos, { s with s0 := v0, s1 := v1 }.statusBit p =
          if p.field = field ∧ flag.getLsbD p.bit.val = true then on else s.statusBit p

/-- `set_bit` on a bit that another producer owns on the active model is refused: a width bit on the widest model,
the virtual-addressing bit on the others, a ring bit where there is a ring display (42_status_manager.md R122; the
refusal is the spec's choice D9 and U3, log 19). -/
def Obligations.SetBitOnOwnedBitRefused : Prop :=
  ∀ (p : BitPos) (flag : Byte) (on : Bool) (s : State), s.active = true → flag.getLsbD p.bit.val = true →
    ((s.model = .m4 ∧ (p = Config.hw.layout.w16 ∨ p = Config.hw.layout.w18 ∨ p = Config.hw.layout.w22)) ∨
      (s.model ≠ .m4 ∧ p = Config.hw.layout.virt) ∨
      (Config.hw.hasRing s.model = true ∧ (p = Config.hw.layout.ringHi ∨ p = Config.hw.layout.ringLo))) →
      exec (.setBit p.field flag on) s = .refused .bitOwnedByAnotherProducer

/-- `set_ring_protection` shows the level's code in the two ring bits and changes no other bit; without a ring
display it changes nothing (42_status_manager.md R123; the codes are the OPEN parameter of D10). -/
def Obligations.SetRingShowsLevel : Prop :=
  ∀ (level : RingLevel) (s : State), s.active = true →
    ∃ t, exec (.setRing level) s = .next t ∧
      (if Config.hw.hasRing s.model = true then
        t.ringShown Config.hw.layout = Config.hw.ringCode.code level ∧
          SameStatusBut [Config.hw.layout.ringHi, Config.hw.layout.ringLo] s t ∧ t = { s with s0 := t.s0, s1 := t.s1 }
      else t = s)

/-- `set_mmu_mode`: on the widest model exactly the bit of the effective width is set, on the others `VIRT` says
whether that width is not 16; no other bit changes (42_status_manager.md R124; the row (0,1) is the spec's choice
D12, `VIRT` its choice D13). -/
def Obligations.SetMmuShowsWidth : Prop :=
  ∀ (e18 e22 : Bool) (s : State), s.active = true →
    ∃ t, exec (.setMmu e18 e22) s = .next t ∧ t = { s with s0 := t.s0, s1 := t.s1 } ∧
      (if s.model = .m4 then
        t.statusBit Config.hw.layout.w16 = !e18 ∧ t.statusBit Config.hw.layout.w18 = (e18 && !e22) ∧
          t.statusBit Config.hw.layout.w22 = (e18 && e22) ∧
          SameStatusBut [Config.hw.layout.w16, Config.hw.layout.w18, Config.hw.layout.w22] s t
      else t.statusBit Config.hw.layout.virt = e18 ∧ SameStatusBut [Config.hw.layout.virt] s t)

/-- 42_status_manager.md R121: each status-manager operation is idempotent, and what it makes of the status fields
depends on its operands, the prior fields and the configuration only. -/
def Obligations.StatusManagerIdempotent : Prop :=
  ∀ (i : Instr) (s t : State), i.direction = .call → (∀ a d, i ≠ .tick a d) → exec i s = .next t →
    exec i t = .next t ∧
    ∀ s' t' : State, s'.s0 = s.s0 → s'.s1 = s.s1 → s'.model = s.model → s'.active = s.active →
      exec i s' = .next t' → SameStatus t t'

/-- No status-manager operation sends a frame or writes anything but the two status fields, and each is a no-op
while inactive (42_status_manager.md R127, R128; the spec's choice D45, log 6). -/
def Obligations.StatusManagerFrame : Prop :=
  ∀ (i : Instr) (s t : State), i.direction = .call → (∀ a d, i ≠ .tick a d) → exec i s = .next t →
    t = { s with s0 := t.s0, s1 := t.s1 } ∧ (s.active = false → t = s)

/-! ## Scheduler -/

/-- A tick that is no fifth one sends one address and data frame and counts (44_scheduler_cadence.md R170, R172; the
frames are the spec's choice D30, the threshold its choice D33, log 6). The bytes of frames rest on the spec's choices
D1, D3, D4 and D5 (log 7). -/
def Obligations.TickSendsDisplayFrame : Prop :=
  ∀ (a : Addr) (d : Datum) (s : State) (rest : List SendResult),
    s.active = true → s.updateCount + 1 ≠ 5 → s.sends = .ok :: rest →
      exec (.tick a d) s = .next { s with
        updateCount := s.updateCount + 1, sends := rest
        tx := s.tx ++ [⟨0x42 :: (addrBytes (Config.hw.width s.model) .three a ++
          [d.extractLsb' 8 8, d.extractLsb' 0 8]), 6⟩] }

/-- A fifth tick sends a status frame too and polls for the HALT key: `H` executes HALT down with its own status frame,
any other byte is consumed and dropped, and nothing may be there (44_scheduler_cadence.md R170, R172, R174; the spec's
choices D29, D30, D32 and D33, log 6). Here it is no third fifth tick. The bytes of frames rest on the spec's choices
D1, D3, D4 and D5 (log 7). -/
def Obligations.FifthTickSendsStatusAndPolls : Prop :=
  ∀ (a : Addr) (d : Datum) (s : State) (rest : List SendResult) (x : Option Byte) (rx : List (Option Byte)),
    s.active = true → s.updateCount = 4 → s.rotaryCount + 1 ≠ 3 →
    s.sends = .ok :: .ok :: .ok :: rest → s.rx = x :: rx →
      exec (.tick a d) s = .next
        (if x = some 0x48 then { s with
          updateCount := 0, rotaryCount := s.rotaryCount + 1, haltMode := .haltDown, sends := rest, rx := rx
          tx := s.tx ++ [⟨0x42 :: (addrBytes (Config.hw.width s.model) .three a ++
            [d.extractLsb' 8 8, d.extractLsb' 0 8]), 6⟩, ⟨[0x46, s.s0, s.s1], 3⟩, ⟨[0x46, s.s0, s.s1], 3⟩] }
        else { s with
          updateCount := 0, rotaryCount := s.rotaryCount + 1, sends := .ok :: rest, rx := rx
          tx := s.tx ++ [⟨0x42 :: (addrBytes (Config.hw.width s.model) .three a ++
            [d.extractLsb' 8 8, d.extractLsb' 0 8]), 6⟩, ⟨[0x46, s.s0, s.s1], 3⟩] })

/-- A third fifth tick re-polls the rotary knobs on a model that has them, before the HALT poll: the answer is stored
raw, be it the code of `H` or another byte, and the HALT poll takes the entry after it; an answer that does not come is
reported and ends the tick. On the other models the counter cycles, nothing is sent, and the HALT poll takes the first
entry (44_scheduler_cadence.md R170, R173, R174, 40_outbound_frames.md R86; the spec's choices D29 to D33, D35 and
D43, log 6). The bytes of frames rest on the spec's choices D1, D3, D4 and D5 (log 7). -/
def Obligations.FifteenthTickPollsRotary : Prop :=
  ∀ (a : Addr) (d : Datum) (s : State) (rest : List SendResult) (y : Option Byte) (rx : List (Option Byte)),
    s.active = true → s.updateCount = 4 → s.rotaryCount = 2 →
    s.sends = .ok :: .ok :: .ok :: .ok :: rest → s.rx = y :: rx →
    (Config.hw.rotary s.model = true →
      (∀ (r : Byte) (x : Option Byte) (rx' : List (Option Byte)), y = some r → rx = x :: rx' →
        exec (.tick a d) s = .next { s with
          updateCount := 0, rotaryCount := 0, rot := r, rx := rx'
          haltMode := if x = some 0x48 then .haltDown else s.haltMode
          sends := if x = some 0x48 then rest else .ok :: rest
          tx := s.tx ++ [⟨0x42 :: (addrBytes (Config.hw.width s.model) .three a ++
            [d.extractLsb' 8 8, d.extractLsb' 0 8]), 6⟩, ⟨[0x46, s.s0, s.s1], 3⟩, ⟨[0x52], 1⟩] ++
              if x = some 0x48 then [⟨[0x46, s.s0, s.s1], 3⟩] else [] }) ∧
      (y = none →
        exec (.tick a d) s = .next { s with
          updateCount := 0, rotaryCount := 0, rx := rx, sends := .ok :: rest
          reports := s.reports ++ [.transportIOError]
          tx := s.tx ++ [⟨0x42 :: (addrBytes (Config.hw.width s.model) .three a ++
            [d.extractLsb' 8 8, d.extractLsb' 0 8]), 6⟩, ⟨[0x46, s.s0, s.s1], 3⟩, ⟨[0x52], 1⟩] })) ∧
    (Config.hw.rotary s.model = false →
      exec (.tick a d) s = .next { s with
        updateCount := 0, rotaryCount := 0, rx := rx
        haltMode := if y = some 0x48 then .haltDown else s.haltMode
        sends := if y = some 0x48 then .ok :: rest else .ok :: .ok :: rest
        tx := s.tx ++ [⟨0x42 :: (addrBytes (Config.hw.width s.model) .three a ++
          [d.extractLsb' 8 8, d.extractLsb' 0 8]), 6⟩, ⟨[0x46, s.s0, s.s1], 3⟩] ++
            if y = some 0x48 then [⟨[0x46, s.s0, s.s1], 3⟩] else [] })

/-- A tick whose first frame fails is skipped, a fifth one too: the counters do not move and nothing else is sent
(44_scheduler_cadence.md R170, 60_exceptions.md R183; the spec's choice D35, and its choice D30 that this frame is a `B`
on every tick, log 6). How much of the frame got through the spec leaves unspecified (20_memory.md R46); that it is `k`
modulo its length is the model's choice (log 3). The bytes of frames rest on the spec's choices D1, D3, D4 and D5
(log 7). -/
def Obligations.FailedTickIsSkipped : Prop :=
  ∀ (a : Addr) (d : Datum) (s : State) (k : Nat) (rest : List SendResult),
    s.active = true → s.sends = .fail k :: rest →
      exec (.tick a d) s = .next { s with
        sends := rest, reports := s.reports ++ [.transportIOError]
        tx := s.tx ++ [⟨0x42 :: (addrBytes (Config.hw.width s.model) .three a ++
          [d.extractLsb' 8 8, d.extractLsb' 0 8]), k % 6⟩] }

/-- The frame of a tick, whatever the transport and the panel do: it writes no status bit and no mirror register but
`halt_mode`, which it leaves or sets to HaltDown, and leaves where the next two reads find no HALT notification; off a
fifth tick it reads nothing from the panel (44_scheduler_cadence.md R170 to R174; the spec's choices D32 and D33, log
6). The host's input may gain the detach that abandons a `Send` (log 13). -/
def Obligations.TickFrame : Prop :=
  ∀ (a : Addr) (d : Datum) (s t : State), exec (.tick a d) s = .next t →
    SameStatus s t ∧ SameLink s t ∧ t.sw = s.sw ∧ t.ackq = s.ackq ∧ t.actAddr = s.actAddr ∧
    t.invAddr = s.invAddr ∧ t.firstExam = s.firstExam ∧ t.firstDep = s.firstDep ∧
    t.signals = s.signals ∧ KeepsEvents s t ∧
    (t.haltMode = s.haltMode ∨ t.haltMode = .haltDown) ∧
    (2 ≤ s.rx.length → (∀ x ∈ s.rx.take 2, x ≠ some 0x48) → t.haltMode = s.haltMode) ∧
    (s.updateCount + 1 ≠ 5 →
      t.haltMode = s.haltMode ∧ t.rotaryCount = s.rotaryCount ∧ t.rot = s.rot ∧ t.rx = s.rx)

/-- The ratio of 44_scheduler_cadence.md R175, from any counter values below their thresholds: fifteen ticks in a row
whose sends succeed and whose reads find no HALT notification, whatever else they find, nothing included, send fifteen
address and data frames, exactly three status frames, and one rotary query on a model with rotary knobs, none on the
others. That a fifth tick sends its `B` frame too, and its status in an `F` frame, is the spec's choice D30, that no
query goes out without knobs its choice D31, that a counter restarts at its threshold its choice D33 (log 6). The bytes
of frames rest on the spec's choices D1, D3, D4 and D5 (log 7). -/
def Obligations.FifteenTicksKeepRatio : Prop :=
  ∀ (a : Addr) (d : Datum) (s : State), s.active = true → CountersBelow Config.hw s →
    19 ≤ s.sends.length → (∀ r ∈ s.sends, r = .ok) →
    4 ≤ s.rx.length → (∀ x ∈ s.rx, x ≠ some 0x48) →
      ∃ t added, ticks a d 15 s = .next t ∧ t.tx = s.tx ++ added ∧
        countTag 0x42 added = 15 ∧ countTag 0x46 added = 3 ∧
        countTag 0x52 added = (if Config.hw.rotary s.model = true then 1 else 0) ∧
        added.length = 18 + (if Config.hw.rotary s.model = true then 1 else 0) ∧
        t.updateCount = s.updateCount ∧ t.rotaryCount = s.rotaryCount

/-! ## The whole machine -/

/-- The invariant of the block is kept by every step: legal ring code, exclusive width bits, `act_addr` within the mask,
counters below their thresholds, every frame of the history a frame of the codec, and a live or dormant link only within
a session (10_state.md R15, R16, R21, R25, R26; 42_status_manager.md R126, which the spec derives; 60_exceptions.md
R193). The spec's choices in it: the target tested before it is written (D42), the thresholds (D33), log 6; `set_bit`
refused on a ring or width bit (D9, log 19); a ring code 0b00 (D10, log 8). That a dormant block is in a session is the
model's choice (log 11). The bytes of frames rest on the spec's choices D1, D3, D4 and D5 (log 7). -/
def Obligations.StepKeepsInvariant : Prop :=
  ∀ s t : State, Inv Config.hw s → step s = .next t → Inv Config.hw t

/-- The invariant holds at reset (10_state.md R15, R16, R26, R28; derived there). That 0b00 is a ring code is the spec's
constraint on an OPEN parameter (D10, log 8), that the counters start at 0 its choice D17 (log 6). -/
def Obligations.ResetMeetsInvariant : Prop := Inv Config.hw State.reset

/-- Each owned bit has one producer: on the active model no operation but `set_mmu_mode` changes a width bit or the
virtual-addressing bit, and no operation but `set_ring_protection` changes a ring bit (10_state.md R14; the
refusal of `set_bit` on such a bit is the spec's choice D9). -/
def Obligations.OwnedBitsHaveOneProducer : Prop :=
  ∀ (i : Instr) (s t : State), exec i s = .next t →
    ((∀ e18 e22, i ≠ .setMmu e18 e22) →
      (s.model = .m4 → t.statusBit Config.hw.layout.w16 = s.statusBit Config.hw.layout.w16 ∧
        t.statusBit Config.hw.layout.w18 = s.statusBit Config.hw.layout.w18 ∧
        t.statusBit Config.hw.layout.w22 = s.statusBit Config.hw.layout.w22) ∧
      (s.model ≠ .m4 → t.statusBit Config.hw.layout.virt = s.statusBit Config.hw.layout.virt)) ∧
    ((∀ level, i ≠ .setRing level) → Config.hw.hasRing s.model = true →
      t.ringShown Config.hw.layout = s.ringShown Config.hw.layout)

/-- Who may write what, over all operations: the status fields, the mode, the mirror, the snapshot, the rotary byte, the
acknowledge queue and the counters change only in the operations named, and no operation changes the link state
(10_state.md R13, R14, R18 to R26, 42_status_manager.md R125, 43_console_commands.md R143). By the spec's choices (log
6) start writes the mode (D16), load-address may write `inv_addr` (D18), only load-address and the command itself write
a first-flag (`CROSS_RESET` false, D23), an acknowledge passes through `ACKQ` at once (D26), is dropped by `E` (D27) and
is not sent by start or `H` (D28), and a tick's poll acts on `H` only, so that a tick writes the mode only to HaltDown
and no other mirror register (D32). -/
def Obligations.RegistersHaveNamedWriters : Prop :=
  ∀ (i : Instr) (s t : State), exec i s = .next t →
    SameLink s t ∧
    (¬ SameStatus s t →
      (∃ field flag on, i = .setBit field flag on) ∨ (∃ level, i = .setRing level) ∨
        (∃ e18 e22, i = .setMmu e18 e22) ∨ i = .cmdX ∨ i = .cmdD ∨ i = .cmdC) ∧
    (t.haltMode ≠ s.haltMode →
      i = .cmdH ∨ i = .cmdE ∨ i = .cmdS ∨ ∃ a d, i = .tick a d ∧ t.haltMode = .haltDown) ∧
    (t.actAddr ≠ s.actAddr ∨ t.invAddr ≠ s.invAddr → i = .cmdL ∨ i = .cmdX ∨ i = .cmdD) ∧
    (t.firstExam ≠ s.firstExam → i = .cmdL ∨ i = .cmdX) ∧
    (t.firstDep ≠ s.firstDep → i = .cmdL ∨ i = .cmdD) ∧
    (t.sw ≠ s.sw → i = .sendQ ∨ i = .cmdL ∨ i = .cmdD) ∧
    (t.rot ≠ s.rot → i = .sendR ∨ ∃ a d, i = .tick a d) ∧
    (t.ackq ≠ s.ackq → i = .cmdE ∨ i = .cmdL ∨ i = .cmdX ∨ i = .cmdD ∨ ∃ p m, i = .sendAck p m) ∧
    (¬ SameCounters s t → ∃ a d, i = .tick a d)

/-- The histories only grow: no step takes back a frame, a signal or a report. Within a session that is the order of the
outputs (10_state.md R27, 20_memory.md R55); that attach and detach clear none of them is the model's choice (log 21).
-/
def Obligations.HistoriesOnlyGrow : Prop :=
  ∀ s t : State, step s = .next t →
    (∃ f, t.tx = s.tx ++ f) ∧ (∃ g, t.signals = s.signals ++ g) ∧ (∃ r, t.reports = s.reports ++ r)

/-- 30_encoding.md R70: no inbound byte is illegal and none stops the block; the seven letters are commands, and any
other byte is consumed and changes nothing; outbound, only the ten tags are emitted, never any other first byte.
The bytes of frames rest on the spec's choices D1, D3, D4 and D5 (log 7). -/
def Obligations.OnlyTheTenTagsAreEmitted : Prop :=
  (∀ s t : State, step s = .next t →
    AddsOnly (fun tag => tag = 0x41 ∨ tag = 0x44 ∨ tag = 0x42 ∨ tag = 0x55 ∨ tag = 0x46 ∨ tag = 0x51 ∨
      tag = 0x52 ∨ tag = 0x63 ∨ tag = 0x69 ∨ tag = 0x61) s t) ∧
  (∀ (b : Byte) (s : State) (rest : List Event) (rx : List (Option Byte)),
    s.active = true → s.events = .poll :: rest → s.rx = some b :: rx →
      (∃ t, step s = .next t) ∧
      (b ∈ [0x48, 0x45, 0x63, 0x64, 0x6C, 0x73, 0x78] → decodeSymbol b ≠ .noCommand ∧ decodeSymbol b ≠ .ignored) ∧
      (b ∉ [0x48, 0x45, 0x63, 0x64, 0x6C, 0x73, 0x78] → step s = .next { s with events := rest, rx := rx }))
end

