-- ==== Sys2Proof/Laws/Decode.lean ====
section
/-! SUPPORT. Small lemmas of the decoder and the encoder: the symbols, the lengths of the fields, and how the
fields of a frame are read. -/

namespace Sys2Proof

/-- A byte outside the eight of 41_inbound_decode.md R109 decodes to the ignored symbol. -/
theorem decodeSymbol_ignored {b : Byte} (h : reservedInboundBytes.contains b = false) :
    decodeSymbol b = .ignored := by
  revert b
  decide

@[simp] theorem addrBytes_three_length (wm : Width) (a : Addr) : (addrBytes wm .three a).length = 3 := rfl
@[simp] theorem addrBytes_two_length (wm : Width) (a : Addr) : (addrBytes wm .two a).length = 2 := rfl
@[simp] theorem dataBytes_length (d : Datum) : (dataBytes d).length = 2 := rfl

/-- A pair is read as the first two bytes. -/
@[simp] theorem decodePair_cons (tag x y : Byte) (rest : List Byte) :
    decodePair tag (x :: y :: rest) = .ok (x, y, rest) := rfl

/-- A datum is read back from its bytes and what follows is left. -/
theorem decodePair_dataBytes (tag : Byte) (d : Datum) (rest : List Byte) :
    decodePair tag (dataBytes d ++ rest) = .ok (d.extractLsb' 8 8, d.extractLsb' 0 8, rest) := rfl

end Sys2Proof
end

