-- ==== Sys2Proof/Laws/Params.lean ====
section
/-! SUPPORT. What is known of the hardware's configuration although its OPEN parameters are opaque: they meet the
constraints of 10_state.md R12, R15, R17, and the parameters the spec sets have its values. -/

namespace Sys2Proof

/-- Some parameters meet the constraints: the spec's test configuration. -/
theorem OpenParams.testcfg_valid : OpenParams.testcfg.valid = true := by decide

/-- The hardware's OPEN parameters meet the constraints. -/
theorem OpenParams.constrained_valid (o : OpenParams) : o.constrained.valid = true := by
  unfold OpenParams.constrained
  split
  · assumption
  · exact OpenParams.testcfg_valid

/-- A configuration of the spec: valid OPEN parameters, the rest at the spec's own values. -/
theorem Config.hw_open : ∃ o : OpenParams, o.valid = true ∧ Config.hw = Config.ofOpen o :=
  ⟨_, OpenParams.constrained_valid _, rfl⟩

@[simp] theorem Config.hw_addrLen (w : Width) : Config.hw.addrLen w = .three := rfl
@[simp] theorem Config.hw_widthOf : Config.hw.widthOf = widthOfEnables := rfl
@[simp] theorem Config.hw_regWindow : Config.hw.regWindow = inRegWindow := rfl
@[simp] theorem Config.hw_romWindow : Config.hw.romWindow = inRom := rfl
@[simp] theorem Config.hw_crossReset : Config.hw.crossReset = false := rfl
@[simp] theorem Config.hw_eEmitsClearAll : Config.hw.eEmitsClearAll = false := rfl
@[simp] theorem Config.hw_statusTick : Config.hw.statusTick = .bThenF := rfl
@[simp] theorem Config.hw_tickPollAccept (b : Byte) : Config.hw.tickPollAccept b = (b == 0x48) := rfl
@[simp] theorem Config.hw_updateThreshold : Config.hw.updateThreshold = 5 := rfl
@[simp] theorem Config.hw_rotaryThreshold : Config.hw.rotaryThreshold = 3 := rfl
@[simp] theorem Config.hw_swData (m : Model) (sw : Snapshot) :
    Config.hw.swData m sw = (Config.hw.swAddr m sw).setWidth 16 := rfl

@[simp] theorem Config.profile_addressMask (c : Config) (m : Model) :
    (c.profile m).addressMask = (c.width m).fullMask := rfl
@[simp] theorem Config.profile_addressWidth (c : Config) (m : Model) :
    (c.profile m).addressWidth = c.width m := rfl
@[simp] theorem Config.profile_rotary (c : Config) (m : Model) : (c.profile m).rotary = c.rotary m := rfl
@[simp] theorem Config.profile_mmuRule (c : Config) (m : Model) : (c.profile m).mmuRule = m.mmuRule := rfl
@[simp] theorem Config.profile_freezeOnInvalid (c : Config) (m : Model) :
    (c.profile m).freezeOnInvalid = m.freezeOnInvalid := rfl
@[simp] theorem Config.profile_addrErrBit (c : Config) (m : Model) :
    (c.profile m).addrErrBit = m.addrErrBit := rfl
@[simp] theorem Config.profile_hasRing (c : Config) (m : Model) : (c.profile m).hasRing = c.hasRing m := rfl
@[simp] theorem Config.wm_eq (c : Config) (m : Model) : c.wm m = c.width m := rfl

/-- The widest model has 22 bits (10_state.md R12 (c)). -/
theorem Config.hw_width_m4 : Config.hw.width .m4 = .w22 := by
  have h := OpenParams.constrained_valid Config.rawParams
  simp only [OpenParams.valid, OpenParams.widthsValid, Bool.and_eq_true, decide_eq_true_eq] at h
  exact h.1.1.1.2

/-- The positions of the bits that exist on a model are pairwise distinct (10_state.md R17). -/
theorem Config.hw_layout_nodup (m : Model) :
    (Config.hw.layout.bitsOn m.mmuRule (Config.hw.hasRing m) m.addrErrBit).Nodup := by
  have h := OpenParams.constrained_valid Config.rawParams
  simp only [OpenParams.valid, OpenParams.layoutValid, Bool.and_eq_true, List.all_eq_true,
    decide_eq_true_eq] at h
  exact h.1.2 m (by cases m <;> decide)

/-- Exactly two models have rotary knobs (10_state.md R12 (f)). -/
theorem Config.hw_two_rotary : Model.all.countP Config.hw.rotary = 2 := by
  have h := OpenParams.constrained_valid Config.rawParams
  simp only [OpenParams.valid, OpenParams.rotaryValid, Bool.and_eq_true, beq_iff_eq] at h
  exact h.1.1.2

/-- The ring codes meet their constraints (10_state.md R15). -/
theorem Config.hw_ringCode_valid : Config.hw.ringCode.valid = true := by
  have h := OpenParams.constrained_valid Config.rawParams
  simp only [OpenParams.valid, Bool.and_eq_true] at h
  exact h.2

/-- 0b00 is the code of some level (10_state.md R15). -/
theorem Config.hw_ringCode_zero : ∃ level, Config.hw.ringCode.code level = 0 := by
  have h := Config.hw_ringCode_valid
  simp only [RingCode.valid, Bool.and_eq_true, Bool.or_eq_true, beq_iff_eq] at h
  obtain ⟨_, (h | h) | h⟩ := h
  · exact ⟨.kernel, h⟩
  · exact ⟨.super, h⟩
  · exact ⟨.user, h⟩

/-- No bit that another producer owns is the address-error bit, on a model that has it (10_state.md R17). -/
theorem Config.hw_addrErr_not_owned {m : Model} (h : m.addrErrBit = true) :
    Config.hw.layout.addrErr ∉ Config.hw.ownedBits m := by
  have hn := Config.hw_layout_nodup m
  rw [StatusLayout.bitsOn, h] at hn
  intro hm
  have := (List.nodup_append.mp (List.nodup_append.mp hn).1).2.2
  exact this _ hm _ (by simp) rfl

/-- `RUN` and `MASTER` are no bits of another producer (10_state.md R17). -/
theorem Config.hw_hostBits_not_owned (m : Model) :
    Config.hw.layout.run ∉ Config.hw.ownedBits m ∧ Config.hw.layout.master ∉ Config.hw.ownedBits m := by
  have hn := Config.hw_layout_nodup m
  rw [StatusLayout.bitsOn] at hn
  have h := (List.nodup_append.mp hn).2.2
  exact ⟨fun hm => h _ (List.mem_append_left _ hm) _ (by simp) rfl,
    fun hm => h _ (List.mem_append_left _ hm) _ (by simp) rfl⟩

/-- The bits other producers own on a model are pairwise distinct (10_state.md R17). -/
theorem Config.hw_ownedBits_nodup (m : Model) : (Config.hw.ownedBits m).Nodup :=
  (List.nodup_append.mp (List.nodup_append.mp (Config.hw_layout_nodup m)).1).1

/-- The two ring bits are two bits, on a model that shows them (10_state.md R17). -/
theorem Config.hw_ring_distinct {m : Model} (h : Config.hw.hasRing m = true) :
    Config.hw.layout.ringHi ≠ Config.hw.layout.ringLo := by
  have hn := Config.hw_ownedBits_nodup m
  simp only [Config.ownedBits, StatusLayout.ownedOn, Config.profile_hasRing, h, if_true] at hn
  simpa using (List.nodup_append.mp hn).2.1

/-- The three width bits are three bits (10_state.md R17). -/
theorem Config.hw_width_distinct :
    Config.hw.layout.w16 ≠ Config.hw.layout.w18 ∧ Config.hw.layout.w16 ≠ Config.hw.layout.w22 ∧
      Config.hw.layout.w18 ≠ Config.hw.layout.w22 := by
  have hn := Config.hw_ownedBits_nodup .m4
  simp only [Config.ownedBits, StatusLayout.ownedOn] at hn
  have h := (List.nodup_append.mp hn).1
  simp [Model.mmuRule] at h
  tauto

end Sys2Proof
end

