-- ==== Sys2Proof/Laws/State.lean ====
section
/-! SUPPORT. One lemma for each field of the state under each named update, true by `rfl`, so that no proof
unfolds a record update. -/

namespace Sys2Proof.Machine

@[simp] theorem State.setSw_s0 (s : State) (v : Snapshot) : (s.setSw v).s0 = s.s0 := rfl
@[simp] theorem State.setSw_s1 (s : State) (v : Snapshot) : (s.setSw v).s1 = s.s1 := rfl
@[simp] theorem State.setSw_sw (s : State) (v : Snapshot) : (s.setSw v).sw = v := rfl
@[simp] theorem State.setSw_rot (s : State) (v : Snapshot) : (s.setSw v).rot = s.rot := rfl
@[simp] theorem State.setSw_ackq (s : State) (v : Snapshot) : (s.setSw v).ackq = s.ackq := rfl
@[simp] theorem State.setSw_actAddr (s : State) (v : Snapshot) : (s.setSw v).actAddr = s.actAddr := rfl
@[simp] theorem State.setSw_invAddr (s : State) (v : Snapshot) : (s.setSw v).invAddr = s.invAddr := rfl
@[simp] theorem State.setSw_firstExam (s : State) (v : Snapshot) : (s.setSw v).firstExam = s.firstExam := rfl
@[simp] theorem State.setSw_firstDep (s : State) (v : Snapshot) : (s.setSw v).firstDep = s.firstDep := rfl
@[simp] theorem State.setSw_haltMode (s : State) (v : Snapshot) : (s.setSw v).haltMode = s.haltMode := rfl
@[simp] theorem State.setSw_updateCount (s : State) (v : Snapshot) : (s.setSw v).updateCount = s.updateCount := rfl
@[simp] theorem State.setSw_rotaryCount (s : State) (v : Snapshot) : (s.setSw v).rotaryCount = s.rotaryCount := rfl
@[simp] theorem State.setSw_attached (s : State) (v : Snapshot) : (s.setSw v).attached = s.attached := rfl
@[simp] theorem State.setSw_connected (s : State) (v : Snapshot) : (s.setSw v).connected = s.connected := rfl
@[simp] theorem State.setSw_dormant (s : State) (v : Snapshot) : (s.setSw v).dormant = s.dormant := rfl
@[simp] theorem State.setSw_model (s : State) (v : Snapshot) : (s.setSw v).model = s.model := rfl
@[simp] theorem State.setSw_transportKind (s : State) (v : Snapshot) : (s.setSw v).transportKind = s.transportKind := rfl
@[simp] theorem State.setSw_lineConfig (s : State) (v : Snapshot) : (s.setSw v).lineConfig = s.lineConfig := rfl
@[simp] theorem State.setSw_tx (s : State) (v : Snapshot) : (s.setSw v).tx = s.tx := rfl
@[simp] theorem State.setSw_signals (s : State) (v : Snapshot) : (s.setSw v).signals = s.signals := rfl
@[simp] theorem State.setSw_reports (s : State) (v : Snapshot) : (s.setSw v).reports = s.reports := rfl
@[simp] theorem State.setSw_events (s : State) (v : Snapshot) : (s.setSw v).events = s.events := rfl
@[simp] theorem State.setSw_rx (s : State) (v : Snapshot) : (s.setSw v).rx = s.rx := rfl
@[simp] theorem State.setSw_sends (s : State) (v : Snapshot) : (s.setSw v).sends = s.sends := rfl
@[simp] theorem State.setSw_draws (s : State) (v : Snapshot) : (s.setSw v).draws = s.draws := rfl

@[simp] theorem State.setRot_s0 (s : State) (v : Byte) : (s.setRot v).s0 = s.s0 := rfl
@[simp] theorem State.setRot_s1 (s : State) (v : Byte) : (s.setRot v).s1 = s.s1 := rfl
@[simp] theorem State.setRot_sw (s : State) (v : Byte) : (s.setRot v).sw = s.sw := rfl
@[simp] theorem State.setRot_rot (s : State) (v : Byte) : (s.setRot v).rot = v := rfl
@[simp] theorem State.setRot_ackq (s : State) (v : Byte) : (s.setRot v).ackq = s.ackq := rfl
@[simp] theorem State.setRot_actAddr (s : State) (v : Byte) : (s.setRot v).actAddr = s.actAddr := rfl
@[simp] theorem State.setRot_invAddr (s : State) (v : Byte) : (s.setRot v).invAddr = s.invAddr := rfl
@[simp] theorem State.setRot_firstExam (s : State) (v : Byte) : (s.setRot v).firstExam = s.firstExam := rfl
@[simp] theorem State.setRot_firstDep (s : State) (v : Byte) : (s.setRot v).firstDep = s.firstDep := rfl
@[simp] theorem State.setRot_haltMode (s : State) (v : Byte) : (s.setRot v).haltMode = s.haltMode := rfl
@[simp] theorem State.setRot_updateCount (s : State) (v : Byte) : (s.setRot v).updateCount = s.updateCount := rfl
@[simp] theorem State.setRot_rotaryCount (s : State) (v : Byte) : (s.setRot v).rotaryCount = s.rotaryCount := rfl
@[simp] theorem State.setRot_attached (s : State) (v : Byte) : (s.setRot v).attached = s.attached := rfl
@[simp] theorem State.setRot_connected (s : State) (v : Byte) : (s.setRot v).connected = s.connected := rfl
@[simp] theorem State.setRot_dormant (s : State) (v : Byte) : (s.setRot v).dormant = s.dormant := rfl
@[simp] theorem State.setRot_model (s : State) (v : Byte) : (s.setRot v).model = s.model := rfl
@[simp] theorem State.setRot_transportKind (s : State) (v : Byte) : (s.setRot v).transportKind = s.transportKind := rfl
@[simp] theorem State.setRot_lineConfig (s : State) (v : Byte) : (s.setRot v).lineConfig = s.lineConfig := rfl
@[simp] theorem State.setRot_tx (s : State) (v : Byte) : (s.setRot v).tx = s.tx := rfl
@[simp] theorem State.setRot_signals (s : State) (v : Byte) : (s.setRot v).signals = s.signals := rfl
@[simp] theorem State.setRot_reports (s : State) (v : Byte) : (s.setRot v).reports = s.reports := rfl
@[simp] theorem State.setRot_events (s : State) (v : Byte) : (s.setRot v).events = s.events := rfl
@[simp] theorem State.setRot_rx (s : State) (v : Byte) : (s.setRot v).rx = s.rx := rfl
@[simp] theorem State.setRot_sends (s : State) (v : Byte) : (s.setRot v).sends = s.sends := rfl
@[simp] theorem State.setRot_draws (s : State) (v : Byte) : (s.setRot v).draws = s.draws := rfl

@[simp] theorem State.setAckq_s0 (s : State) (v : Option Ack) : (s.setAckq v).s0 = s.s0 := rfl
@[simp] theorem State.setAckq_s1 (s : State) (v : Option Ack) : (s.setAckq v).s1 = s.s1 := rfl
@[simp] theorem State.setAckq_sw (s : State) (v : Option Ack) : (s.setAckq v).sw = s.sw := rfl
@[simp] theorem State.setAckq_rot (s : State) (v : Option Ack) : (s.setAckq v).rot = s.rot := rfl
@[simp] theorem State.setAckq_ackq (s : State) (v : Option Ack) : (s.setAckq v).ackq = v := rfl
@[simp] theorem State.setAckq_actAddr (s : State) (v : Option Ack) : (s.setAckq v).actAddr = s.actAddr := rfl
@[simp] theorem State.setAckq_invAddr (s : State) (v : Option Ack) : (s.setAckq v).invAddr = s.invAddr := rfl
@[simp] theorem State.setAckq_firstExam (s : State) (v : Option Ack) : (s.setAckq v).firstExam = s.firstExam := rfl
@[simp] theorem State.setAckq_firstDep (s : State) (v : Option Ack) : (s.setAckq v).firstDep = s.firstDep := rfl
@[simp] theorem State.setAckq_haltMode (s : State) (v : Option Ack) : (s.setAckq v).haltMode = s.haltMode := rfl
@[simp] theorem State.setAckq_updateCount (s : State) (v : Option Ack) : (s.setAckq v).updateCount = s.updateCount := rfl
@[simp] theorem State.setAckq_rotaryCount (s : State) (v : Option Ack) : (s.setAckq v).rotaryCount = s.rotaryCount := rfl
@[simp] theorem State.setAckq_attached (s : State) (v : Option Ack) : (s.setAckq v).attached = s.attached := rfl
@[simp] theorem State.setAckq_connected (s : State) (v : Option Ack) : (s.setAckq v).connected = s.connected := rfl
@[simp] theorem State.setAckq_dormant (s : State) (v : Option Ack) : (s.setAckq v).dormant = s.dormant := rfl
@[simp] theorem State.setAckq_model (s : State) (v : Option Ack) : (s.setAckq v).model = s.model := rfl
@[simp] theorem State.setAckq_transportKind (s : State) (v : Option Ack) : (s.setAckq v).transportKind = s.transportKind := rfl
@[simp] theorem State.setAckq_lineConfig (s : State) (v : Option Ack) : (s.setAckq v).lineConfig = s.lineConfig := rfl
@[simp] theorem State.setAckq_tx (s : State) (v : Option Ack) : (s.setAckq v).tx = s.tx := rfl
@[simp] theorem State.setAckq_signals (s : State) (v : Option Ack) : (s.setAckq v).signals = s.signals := rfl
@[simp] theorem State.setAckq_reports (s : State) (v : Option Ack) : (s.setAckq v).reports = s.reports := rfl
@[simp] theorem State.setAckq_events (s : State) (v : Option Ack) : (s.setAckq v).events = s.events := rfl
@[simp] theorem State.setAckq_rx (s : State) (v : Option Ack) : (s.setAckq v).rx = s.rx := rfl
@[simp] theorem State.setAckq_sends (s : State) (v : Option Ack) : (s.setAckq v).sends = s.sends := rfl
@[simp] theorem State.setAckq_draws (s : State) (v : Option Ack) : (s.setAckq v).draws = s.draws := rfl

@[simp] theorem State.setActAddr_s0 (s : State) (v : Addr) : (s.setActAddr v).s0 = s.s0 := rfl
@[simp] theorem State.setActAddr_s1 (s : State) (v : Addr) : (s.setActAddr v).s1 = s.s1 := rfl
@[simp] theorem State.setActAddr_sw (s : State) (v : Addr) : (s.setActAddr v).sw = s.sw := rfl
@[simp] theorem State.setActAddr_rot (s : State) (v : Addr) : (s.setActAddr v).rot = s.rot := rfl
@[simp] theorem State.setActAddr_ackq (s : State) (v : Addr) : (s.setActAddr v).ackq = s.ackq := rfl
@[simp] theorem State.setActAddr_actAddr (s : State) (v : Addr) : (s.setActAddr v).actAddr = v := rfl
@[simp] theorem State.setActAddr_invAddr (s : State) (v : Addr) : (s.setActAddr v).invAddr = s.invAddr := rfl
@[simp] theorem State.setActAddr_firstExam (s : State) (v : Addr) : (s.setActAddr v).firstExam = s.firstExam := rfl
@[simp] theorem State.setActAddr_firstDep (s : State) (v : Addr) : (s.setActAddr v).firstDep = s.firstDep := rfl
@[simp] theorem State.setActAddr_haltMode (s : State) (v : Addr) : (s.setActAddr v).haltMode = s.haltMode := rfl
@[simp] theorem State.setActAddr_updateCount (s : State) (v : Addr) : (s.setActAddr v).updateCount = s.updateCount := rfl
@[simp] theorem State.setActAddr_rotaryCount (s : State) (v : Addr) : (s.setActAddr v).rotaryCount = s.rotaryCount := rfl
@[simp] theorem State.setActAddr_attached (s : State) (v : Addr) : (s.setActAddr v).attached = s.attached := rfl
@[simp] theorem State.setActAddr_connected (s : State) (v : Addr) : (s.setActAddr v).connected = s.connected := rfl
@[simp] theorem State.setActAddr_dormant (s : State) (v : Addr) : (s.setActAddr v).dormant = s.dormant := rfl
@[simp] theorem State.setActAddr_model (s : State) (v : Addr) : (s.setActAddr v).model = s.model := rfl
@[simp] theorem State.setActAddr_transportKind (s : State) (v : Addr) : (s.setActAddr v).transportKind = s.transportKind := rfl
@[simp] theorem State.setActAddr_lineConfig (s : State) (v : Addr) : (s.setActAddr v).lineConfig = s.lineConfig := rfl
@[simp] theorem State.setActAddr_tx (s : State) (v : Addr) : (s.setActAddr v).tx = s.tx := rfl
@[simp] theorem State.setActAddr_signals (s : State) (v : Addr) : (s.setActAddr v).signals = s.signals := rfl
@[simp] theorem State.setActAddr_reports (s : State) (v : Addr) : (s.setActAddr v).reports = s.reports := rfl
@[simp] theorem State.setActAddr_events (s : State) (v : Addr) : (s.setActAddr v).events = s.events := rfl
@[simp] theorem State.setActAddr_rx (s : State) (v : Addr) : (s.setActAddr v).rx = s.rx := rfl
@[simp] theorem State.setActAddr_sends (s : State) (v : Addr) : (s.setActAddr v).sends = s.sends := rfl
@[simp] theorem State.setActAddr_draws (s : State) (v : Addr) : (s.setActAddr v).draws = s.draws := rfl

@[simp] theorem State.setInvAddr_s0 (s : State) (v : Bool) : (s.setInvAddr v).s0 = s.s0 := rfl
@[simp] theorem State.setInvAddr_s1 (s : State) (v : Bool) : (s.setInvAddr v).s1 = s.s1 := rfl
@[simp] theorem State.setInvAddr_sw (s : State) (v : Bool) : (s.setInvAddr v).sw = s.sw := rfl
@[simp] theorem State.setInvAddr_rot (s : State) (v : Bool) : (s.setInvAddr v).rot = s.rot := rfl
@[simp] theorem State.setInvAddr_ackq (s : State) (v : Bool) : (s.setInvAddr v).ackq = s.ackq := rfl
@[simp] theorem State.setInvAddr_actAddr (s : State) (v : Bool) : (s.setInvAddr v).actAddr = s.actAddr := rfl
@[simp] theorem State.setInvAddr_invAddr (s : State) (v : Bool) : (s.setInvAddr v).invAddr = v := rfl
@[simp] theorem State.setInvAddr_firstExam (s : State) (v : Bool) : (s.setInvAddr v).firstExam = s.firstExam := rfl
@[simp] theorem State.setInvAddr_firstDep (s : State) (v : Bool) : (s.setInvAddr v).firstDep = s.firstDep := rfl
@[simp] theorem State.setInvAddr_haltMode (s : State) (v : Bool) : (s.setInvAddr v).haltMode = s.haltMode := rfl
@[simp] theorem State.setInvAddr_updateCount (s : State) (v : Bool) : (s.setInvAddr v).updateCount = s.updateCount := rfl
@[simp] theorem State.setInvAddr_rotaryCount (s : State) (v : Bool) : (s.setInvAddr v).rotaryCount = s.rotaryCount := rfl
@[simp] theorem State.setInvAddr_attached (s : State) (v : Bool) : (s.setInvAddr v).attached = s.attached := rfl
@[simp] theorem State.setInvAddr_connected (s : State) (v : Bool) : (s.setInvAddr v).connected = s.connected := rfl
@[simp] theorem State.setInvAddr_dormant (s : State) (v : Bool) : (s.setInvAddr v).dormant = s.dormant := rfl
@[simp] theorem State.setInvAddr_model (s : State) (v : Bool) : (s.setInvAddr v).model = s.model := rfl
@[simp] theorem State.setInvAddr_transportKind (s : State) (v : Bool) : (s.setInvAddr v).transportKind = s.transportKind := rfl
@[simp] theorem State.setInvAddr_lineConfig (s : State) (v : Bool) : (s.setInvAddr v).lineConfig = s.lineConfig := rfl
@[simp] theorem State.setInvAddr_tx (s : State) (v : Bool) : (s.setInvAddr v).tx = s.tx := rfl
@[simp] theorem State.setInvAddr_signals (s : State) (v : Bool) : (s.setInvAddr v).signals = s.signals := rfl
@[simp] theorem State.setInvAddr_reports (s : State) (v : Bool) : (s.setInvAddr v).reports = s.reports := rfl
@[simp] theorem State.setInvAddr_events (s : State) (v : Bool) : (s.setInvAddr v).events = s.events := rfl
@[simp] theorem State.setInvAddr_rx (s : State) (v : Bool) : (s.setInvAddr v).rx = s.rx := rfl
@[simp] theorem State.setInvAddr_sends (s : State) (v : Bool) : (s.setInvAddr v).sends = s.sends := rfl
@[simp] theorem State.setInvAddr_draws (s : State) (v : Bool) : (s.setInvAddr v).draws = s.draws := rfl

@[simp] theorem State.setFirstExam_s0 (s : State) (v : Bool) : (s.setFirstExam v).s0 = s.s0 := rfl
@[simp] theorem State.setFirstExam_s1 (s : State) (v : Bool) : (s.setFirstExam v).s1 = s.s1 := rfl
@[simp] theorem State.setFirstExam_sw (s : State) (v : Bool) : (s.setFirstExam v).sw = s.sw := rfl
@[simp] theorem State.setFirstExam_rot (s : State) (v : Bool) : (s.setFirstExam v).rot = s.rot := rfl
@[simp] theorem State.setFirstExam_ackq (s : State) (v : Bool) : (s.setFirstExam v).ackq = s.ackq := rfl
@[simp] theorem State.setFirstExam_actAddr (s : State) (v : Bool) : (s.setFirstExam v).actAddr = s.actAddr := rfl
@[simp] theorem State.setFirstExam_invAddr (s : State) (v : Bool) : (s.setFirstExam v).invAddr = s.invAddr := rfl
@[simp] theorem State.setFirstExam_firstExam (s : State) (v : Bool) : (s.setFirstExam v).firstExam = v := rfl
@[simp] theorem State.setFirstExam_firstDep (s : State) (v : Bool) : (s.setFirstExam v).firstDep = s.firstDep := rfl
@[simp] theorem State.setFirstExam_haltMode (s : State) (v : Bool) : (s.setFirstExam v).haltMode = s.haltMode := rfl
@[simp] theorem State.setFirstExam_updateCount (s : State) (v : Bool) : (s.setFirstExam v).updateCount = s.updateCount := rfl
@[simp] theorem State.setFirstExam_rotaryCount (s : State) (v : Bool) : (s.setFirstExam v).rotaryCount = s.rotaryCount := rfl
@[simp] theorem State.setFirstExam_attached (s : State) (v : Bool) : (s.setFirstExam v).attached = s.attached := rfl
@[simp] theorem State.setFirstExam_connected (s : State) (v : Bool) : (s.setFirstExam v).connected = s.connected := rfl
@[simp] theorem State.setFirstExam_dormant (s : State) (v : Bool) : (s.setFirstExam v).dormant = s.dormant := rfl
@[simp] theorem State.setFirstExam_model (s : State) (v : Bool) : (s.setFirstExam v).model = s.model := rfl
@[simp] theorem State.setFirstExam_transportKind (s : State) (v : Bool) : (s.setFirstExam v).transportKind = s.transportKind := rfl
@[simp] theorem State.setFirstExam_lineConfig (s : State) (v : Bool) : (s.setFirstExam v).lineConfig = s.lineConfig := rfl
@[simp] theorem State.setFirstExam_tx (s : State) (v : Bool) : (s.setFirstExam v).tx = s.tx := rfl
@[simp] theorem State.setFirstExam_signals (s : State) (v : Bool) : (s.setFirstExam v).signals = s.signals := rfl
@[simp] theorem State.setFirstExam_reports (s : State) (v : Bool) : (s.setFirstExam v).reports = s.reports := rfl
@[simp] theorem State.setFirstExam_events (s : State) (v : Bool) : (s.setFirstExam v).events = s.events := rfl
@[simp] theorem State.setFirstExam_rx (s : State) (v : Bool) : (s.setFirstExam v).rx = s.rx := rfl
@[simp] theorem State.setFirstExam_sends (s : State) (v : Bool) : (s.setFirstExam v).sends = s.sends := rfl
@[simp] theorem State.setFirstExam_draws (s : State) (v : Bool) : (s.setFirstExam v).draws = s.draws := rfl

@[simp] theorem State.setFirstDep_s0 (s : State) (v : Bool) : (s.setFirstDep v).s0 = s.s0 := rfl
@[simp] theorem State.setFirstDep_s1 (s : State) (v : Bool) : (s.setFirstDep v).s1 = s.s1 := rfl
@[simp] theorem State.setFirstDep_sw (s : State) (v : Bool) : (s.setFirstDep v).sw = s.sw := rfl
@[simp] theorem State.setFirstDep_rot (s : State) (v : Bool) : (s.setFirstDep v).rot = s.rot := rfl
@[simp] theorem State.setFirstDep_ackq (s : State) (v : Bool) : (s.setFirstDep v).ackq = s.ackq := rfl
@[simp] theorem State.setFirstDep_actAddr (s : State) (v : Bool) : (s.setFirstDep v).actAddr = s.actAddr := rfl
@[simp] theorem State.setFirstDep_invAddr (s : State) (v : Bool) : (s.setFirstDep v).invAddr = s.invAddr := rfl
@[simp] theorem State.setFirstDep_firstExam (s : State) (v : Bool) : (s.setFirstDep v).firstExam = s.firstExam := rfl
@[simp] theorem State.setFirstDep_firstDep (s : State) (v : Bool) : (s.setFirstDep v).firstDep = v := rfl
@[simp] theorem State.setFirstDep_haltMode (s : State) (v : Bool) : (s.setFirstDep v).haltMode = s.haltMode := rfl
@[simp] theorem State.setFirstDep_updateCount (s : State) (v : Bool) : (s.setFirstDep v).updateCount = s.updateCount := rfl
@[simp] theorem State.setFirstDep_rotaryCount (s : State) (v : Bool) : (s.setFirstDep v).rotaryCount = s.rotaryCount := rfl
@[simp] theorem State.setFirstDep_attached (s : State) (v : Bool) : (s.setFirstDep v).attached = s.attached := rfl
@[simp] theorem State.setFirstDep_connected (s : State) (v : Bool) : (s.setFirstDep v).connected = s.connected := rfl
@[simp] theorem State.setFirstDep_dormant (s : State) (v : Bool) : (s.setFirstDep v).dormant = s.dormant := rfl
@[simp] theorem State.setFirstDep_model (s : State) (v : Bool) : (s.setFirstDep v).model = s.model := rfl
@[simp] theorem State.setFirstDep_transportKind (s : State) (v : Bool) : (s.setFirstDep v).transportKind = s.transportKind := rfl
@[simp] theorem State.setFirstDep_lineConfig (s : State) (v : Bool) : (s.setFirstDep v).lineConfig = s.lineConfig := rfl
@[simp] theorem State.setFirstDep_tx (s : State) (v : Bool) : (s.setFirstDep v).tx = s.tx := rfl
@[simp] theorem State.setFirstDep_signals (s : State) (v : Bool) : (s.setFirstDep v).signals = s.signals := rfl
@[simp] theorem State.setFirstDep_reports (s : State) (v : Bool) : (s.setFirstDep v).reports = s.reports := rfl
@[simp] theorem State.setFirstDep_events (s : State) (v : Bool) : (s.setFirstDep v).events = s.events := rfl
@[simp] theorem State.setFirstDep_rx (s : State) (v : Bool) : (s.setFirstDep v).rx = s.rx := rfl
@[simp] theorem State.setFirstDep_sends (s : State) (v : Bool) : (s.setFirstDep v).sends = s.sends := rfl
@[simp] theorem State.setFirstDep_draws (s : State) (v : Bool) : (s.setFirstDep v).draws = s.draws := rfl

@[simp] theorem State.setHaltMode_s0 (s : State) (v : HaltMode) : (s.setHaltMode v).s0 = s.s0 := rfl
@[simp] theorem State.setHaltMode_s1 (s : State) (v : HaltMode) : (s.setHaltMode v).s1 = s.s1 := rfl
@[simp] theorem State.setHaltMode_sw (s : State) (v : HaltMode) : (s.setHaltMode v).sw = s.sw := rfl
@[simp] theorem State.setHaltMode_rot (s : State) (v : HaltMode) : (s.setHaltMode v).rot = s.rot := rfl
@[simp] theorem State.setHaltMode_ackq (s : State) (v : HaltMode) : (s.setHaltMode v).ackq = s.ackq := rfl
@[simp] theorem State.setHaltMode_actAddr (s : State) (v : HaltMode) : (s.setHaltMode v).actAddr = s.actAddr := rfl
@[simp] theorem State.setHaltMode_invAddr (s : State) (v : HaltMode) : (s.setHaltMode v).invAddr = s.invAddr := rfl
@[simp] theorem State.setHaltMode_firstExam (s : State) (v : HaltMode) : (s.setHaltMode v).firstExam = s.firstExam := rfl
@[simp] theorem State.setHaltMode_firstDep (s : State) (v : HaltMode) : (s.setHaltMode v).firstDep = s.firstDep := rfl
@[simp] theorem State.setHaltMode_haltMode (s : State) (v : HaltMode) : (s.setHaltMode v).haltMode = v := rfl
@[simp] theorem State.setHaltMode_updateCount (s : State) (v : HaltMode) : (s.setHaltMode v).updateCount = s.updateCount := rfl
@[simp] theorem State.setHaltMode_rotaryCount (s : State) (v : HaltMode) : (s.setHaltMode v).rotaryCount = s.rotaryCount := rfl
@[simp] theorem State.setHaltMode_attached (s : State) (v : HaltMode) : (s.setHaltMode v).attached = s.attached := rfl
@[simp] theorem State.setHaltMode_connected (s : State) (v : HaltMode) : (s.setHaltMode v).connected = s.connected := rfl
@[simp] theorem State.setHaltMode_dormant (s : State) (v : HaltMode) : (s.setHaltMode v).dormant = s.dormant := rfl
@[simp] theorem State.setHaltMode_model (s : State) (v : HaltMode) : (s.setHaltMode v).model = s.model := rfl
@[simp] theorem State.setHaltMode_transportKind (s : State) (v : HaltMode) : (s.setHaltMode v).transportKind = s.transportKind := rfl
@[simp] theorem State.setHaltMode_lineConfig (s : State) (v : HaltMode) : (s.setHaltMode v).lineConfig = s.lineConfig := rfl
@[simp] theorem State.setHaltMode_tx (s : State) (v : HaltMode) : (s.setHaltMode v).tx = s.tx := rfl
@[simp] theorem State.setHaltMode_signals (s : State) (v : HaltMode) : (s.setHaltMode v).signals = s.signals := rfl
@[simp] theorem State.setHaltMode_reports (s : State) (v : HaltMode) : (s.setHaltMode v).reports = s.reports := rfl
@[simp] theorem State.setHaltMode_events (s : State) (v : HaltMode) : (s.setHaltMode v).events = s.events := rfl
@[simp] theorem State.setHaltMode_rx (s : State) (v : HaltMode) : (s.setHaltMode v).rx = s.rx := rfl
@[simp] theorem State.setHaltMode_sends (s : State) (v : HaltMode) : (s.setHaltMode v).sends = s.sends := rfl
@[simp] theorem State.setHaltMode_draws (s : State) (v : HaltMode) : (s.setHaltMode v).draws = s.draws := rfl

@[simp] theorem State.setUpdateCount_s0 (s : State) (v : Nat) : (s.setUpdateCount v).s0 = s.s0 := rfl
@[simp] theorem State.setUpdateCount_s1 (s : State) (v : Nat) : (s.setUpdateCount v).s1 = s.s1 := rfl
@[simp] theorem State.setUpdateCount_sw (s : State) (v : Nat) : (s.setUpdateCount v).sw = s.sw := rfl
@[simp] theorem State.setUpdateCount_rot (s : State) (v : Nat) : (s.setUpdateCount v).rot = s.rot := rfl
@[simp] theorem State.setUpdateCount_ackq (s : State) (v : Nat) : (s.setUpdateCount v).ackq = s.ackq := rfl
@[simp] theorem State.setUpdateCount_actAddr (s : State) (v : Nat) : (s.setUpdateCount v).actAddr = s.actAddr := rfl
@[simp] theorem State.setUpdateCount_invAddr (s : State) (v : Nat) : (s.setUpdateCount v).invAddr = s.invAddr := rfl
@[simp] theorem State.setUpdateCount_firstExam (s : State) (v : Nat) : (s.setUpdateCount v).firstExam = s.firstExam := rfl
@[simp] theorem State.setUpdateCount_firstDep (s : State) (v : Nat) : (s.setUpdateCount v).firstDep = s.firstDep := rfl
@[simp] theorem State.setUpdateCount_haltMode (s : State) (v : Nat) : (s.setUpdateCount v).haltMode = s.haltMode := rfl
@[simp] theorem State.setUpdateCount_updateCount (s : State) (v : Nat) : (s.setUpdateCount v).updateCount = v := rfl
@[simp] theorem State.setUpdateCount_rotaryCount (s : State) (v : Nat) : (s.setUpdateCount v).rotaryCount = s.rotaryCount := rfl
@[simp] theorem State.setUpdateCount_attached (s : State) (v : Nat) : (s.setUpdateCount v).attached = s.attached := rfl
@[simp] theorem State.setUpdateCount_connected (s : State) (v : Nat) : (s.setUpdateCount v).connected = s.connected := rfl
@[simp] theorem State.setUpdateCount_dormant (s : State) (v : Nat) : (s.setUpdateCount v).dormant = s.dormant := rfl
@[simp] theorem State.setUpdateCount_model (s : State) (v : Nat) : (s.setUpdateCount v).model = s.model := rfl
@[simp] theorem State.setUpdateCount_transportKind (s : State) (v : Nat) : (s.setUpdateCount v).transportKind = s.transportKind := rfl
@[simp] theorem State.setUpdateCount_lineConfig (s : State) (v : Nat) : (s.setUpdateCount v).lineConfig = s.lineConfig := rfl
@[simp] theorem State.setUpdateCount_tx (s : State) (v : Nat) : (s.setUpdateCount v).tx = s.tx := rfl
@[simp] theorem State.setUpdateCount_signals (s : State) (v : Nat) : (s.setUpdateCount v).signals = s.signals := rfl
@[simp] theorem State.setUpdateCount_reports (s : State) (v : Nat) : (s.setUpdateCount v).reports = s.reports := rfl
@[simp] theorem State.setUpdateCount_events (s : State) (v : Nat) : (s.setUpdateCount v).events = s.events := rfl
@[simp] theorem State.setUpdateCount_rx (s : State) (v : Nat) : (s.setUpdateCount v).rx = s.rx := rfl
@[simp] theorem State.setUpdateCount_sends (s : State) (v : Nat) : (s.setUpdateCount v).sends = s.sends := rfl
@[simp] theorem State.setUpdateCount_draws (s : State) (v : Nat) : (s.setUpdateCount v).draws = s.draws := rfl

@[simp] theorem State.setRotaryCount_s0 (s : State) (v : Nat) : (s.setRotaryCount v).s0 = s.s0 := rfl
@[simp] theorem State.setRotaryCount_s1 (s : State) (v : Nat) : (s.setRotaryCount v).s1 = s.s1 := rfl
@[simp] theorem State.setRotaryCount_sw (s : State) (v : Nat) : (s.setRotaryCount v).sw = s.sw := rfl
@[simp] theorem State.setRotaryCount_rot (s : State) (v : Nat) : (s.setRotaryCount v).rot = s.rot := rfl
@[simp] theorem State.setRotaryCount_ackq (s : State) (v : Nat) : (s.setRotaryCount v).ackq = s.ackq := rfl
@[simp] theorem State.setRotaryCount_actAddr (s : State) (v : Nat) : (s.setRotaryCount v).actAddr = s.actAddr := rfl
@[simp] theorem State.setRotaryCount_invAddr (s : State) (v : Nat) : (s.setRotaryCount v).invAddr = s.invAddr := rfl
@[simp] theorem State.setRotaryCount_firstExam (s : State) (v : Nat) : (s.setRotaryCount v).firstExam = s.firstExam := rfl
@[simp] theorem State.setRotaryCount_firstDep (s : State) (v : Nat) : (s.setRotaryCount v).firstDep = s.firstDep := rfl
@[simp] theorem State.setRotaryCount_haltMode (s : State) (v : Nat) : (s.setRotaryCount v).haltMode = s.haltMode := rfl
@[simp] theorem State.setRotaryCount_updateCount (s : State) (v : Nat) : (s.setRotaryCount v).updateCount = s.updateCount := rfl
@[simp] theorem State.setRotaryCount_rotaryCount (s : State) (v : Nat) : (s.setRotaryCount v).rotaryCount = v := rfl
@[simp] theorem State.setRotaryCount_attached (s : State) (v : Nat) : (s.setRotaryCount v).attached = s.attached := rfl
@[simp] theorem State.setRotaryCount_connected (s : State) (v : Nat) : (s.setRotaryCount v).connected = s.connected := rfl
@[simp] theorem State.setRotaryCount_dormant (s : State) (v : Nat) : (s.setRotaryCount v).dormant = s.dormant := rfl
@[simp] theorem State.setRotaryCount_model (s : State) (v : Nat) : (s.setRotaryCount v).model = s.model := rfl
@[simp] theorem State.setRotaryCount_transportKind (s : State) (v : Nat) : (s.setRotaryCount v).transportKind = s.transportKind := rfl
@[simp] theorem State.setRotaryCount_lineConfig (s : State) (v : Nat) : (s.setRotaryCount v).lineConfig = s.lineConfig := rfl
@[simp] theorem State.setRotaryCount_tx (s : State) (v : Nat) : (s.setRotaryCount v).tx = s.tx := rfl
@[simp] theorem State.setRotaryCount_signals (s : State) (v : Nat) : (s.setRotaryCount v).signals = s.signals := rfl
@[simp] theorem State.setRotaryCount_reports (s : State) (v : Nat) : (s.setRotaryCount v).reports = s.reports := rfl
@[simp] theorem State.setRotaryCount_events (s : State) (v : Nat) : (s.setRotaryCount v).events = s.events := rfl
@[simp] theorem State.setRotaryCount_rx (s : State) (v : Nat) : (s.setRotaryCount v).rx = s.rx := rfl
@[simp] theorem State.setRotaryCount_sends (s : State) (v : Nat) : (s.setRotaryCount v).sends = s.sends := rfl
@[simp] theorem State.setRotaryCount_draws (s : State) (v : Nat) : (s.setRotaryCount v).draws = s.draws := rfl

@[simp] theorem State.setConnected_s0 (s : State) (v : Bool) : (s.setConnected v).s0 = s.s0 := rfl
@[simp] theorem State.setConnected_s1 (s : State) (v : Bool) : (s.setConnected v).s1 = s.s1 := rfl
@[simp] theorem State.setConnected_sw (s : State) (v : Bool) : (s.setConnected v).sw = s.sw := rfl
@[simp] theorem State.setConnected_rot (s : State) (v : Bool) : (s.setConnected v).rot = s.rot := rfl
@[simp] theorem State.setConnected_ackq (s : State) (v : Bool) : (s.setConnected v).ackq = s.ackq := rfl
@[simp] theorem State.setConnected_actAddr (s : State) (v : Bool) : (s.setConnected v).actAddr = s.actAddr := rfl
@[simp] theorem State.setConnected_invAddr (s : State) (v : Bool) : (s.setConnected v).invAddr = s.invAddr := rfl
@[simp] theorem State.setConnected_firstExam (s : State) (v : Bool) : (s.setConnected v).firstExam = s.firstExam := rfl
@[simp] theorem State.setConnected_firstDep (s : State) (v : Bool) : (s.setConnected v).firstDep = s.firstDep := rfl
@[simp] theorem State.setConnected_haltMode (s : State) (v : Bool) : (s.setConnected v).haltMode = s.haltMode := rfl
@[simp] theorem State.setConnected_updateCount (s : State) (v : Bool) : (s.setConnected v).updateCount = s.updateCount := rfl
@[simp] theorem State.setConnected_rotaryCount (s : State) (v : Bool) : (s.setConnected v).rotaryCount = s.rotaryCount := rfl
@[simp] theorem State.setConnected_attached (s : State) (v : Bool) : (s.setConnected v).attached = s.attached := rfl
@[simp] theorem State.setConnected_connected (s : State) (v : Bool) : (s.setConnected v).connected = v := rfl
@[simp] theorem State.setConnected_dormant (s : State) (v : Bool) : (s.setConnected v).dormant = s.dormant := rfl
@[simp] theorem State.setConnected_model (s : State) (v : Bool) : (s.setConnected v).model = s.model := rfl
@[simp] theorem State.setConnected_transportKind (s : State) (v : Bool) : (s.setConnected v).transportKind = s.transportKind := rfl
@[simp] theorem State.setConnected_lineConfig (s : State) (v : Bool) : (s.setConnected v).lineConfig = s.lineConfig := rfl
@[simp] theorem State.setConnected_tx (s : State) (v : Bool) : (s.setConnected v).tx = s.tx := rfl
@[simp] theorem State.setConnected_signals (s : State) (v : Bool) : (s.setConnected v).signals = s.signals := rfl
@[simp] theorem State.setConnected_reports (s : State) (v : Bool) : (s.setConnected v).reports = s.reports := rfl
@[simp] theorem State.setConnected_events (s : State) (v : Bool) : (s.setConnected v).events = s.events := rfl
@[simp] theorem State.setConnected_rx (s : State) (v : Bool) : (s.setConnected v).rx = s.rx := rfl
@[simp] theorem State.setConnected_sends (s : State) (v : Bool) : (s.setConnected v).sends = s.sends := rfl
@[simp] theorem State.setConnected_draws (s : State) (v : Bool) : (s.setConnected v).draws = s.draws := rfl

@[simp] theorem State.setEvents_s0 (s : State) (v : List Event) : (s.setEvents v).s0 = s.s0 := rfl
@[simp] theorem State.setEvents_s1 (s : State) (v : List Event) : (s.setEvents v).s1 = s.s1 := rfl
@[simp] theorem State.setEvents_sw (s : State) (v : List Event) : (s.setEvents v).sw = s.sw := rfl
@[simp] theorem State.setEvents_rot (s : State) (v : List Event) : (s.setEvents v).rot = s.rot := rfl
@[simp] theorem State.setEvents_ackq (s : State) (v : List Event) : (s.setEvents v).ackq = s.ackq := rfl
@[simp] theorem State.setEvents_actAddr (s : State) (v : List Event) : (s.setEvents v).actAddr = s.actAddr := rfl
@[simp] theorem State.setEvents_invAddr (s : State) (v : List Event) : (s.setEvents v).invAddr = s.invAddr := rfl
@[simp] theorem State.setEvents_firstExam (s : State) (v : List Event) : (s.setEvents v).firstExam = s.firstExam := rfl
@[simp] theorem State.setEvents_firstDep (s : State) (v : List Event) : (s.setEvents v).firstDep = s.firstDep := rfl
@[simp] theorem State.setEvents_haltMode (s : State) (v : List Event) : (s.setEvents v).haltMode = s.haltMode := rfl
@[simp] theorem State.setEvents_updateCount (s : State) (v : List Event) : (s.setEvents v).updateCount = s.updateCount := rfl
@[simp] theorem State.setEvents_rotaryCount (s : State) (v : List Event) : (s.setEvents v).rotaryCount = s.rotaryCount := rfl
@[simp] theorem State.setEvents_attached (s : State) (v : List Event) : (s.setEvents v).attached = s.attached := rfl
@[simp] theorem State.setEvents_connected (s : State) (v : List Event) : (s.setEvents v).connected = s.connected := rfl
@[simp] theorem State.setEvents_dormant (s : State) (v : List Event) : (s.setEvents v).dormant = s.dormant := rfl
@[simp] theorem State.setEvents_model (s : State) (v : List Event) : (s.setEvents v).model = s.model := rfl
@[simp] theorem State.setEvents_transportKind (s : State) (v : List Event) : (s.setEvents v).transportKind = s.transportKind := rfl
@[simp] theorem State.setEvents_lineConfig (s : State) (v : List Event) : (s.setEvents v).lineConfig = s.lineConfig := rfl
@[simp] theorem State.setEvents_tx (s : State) (v : List Event) : (s.setEvents v).tx = s.tx := rfl
@[simp] theorem State.setEvents_signals (s : State) (v : List Event) : (s.setEvents v).signals = s.signals := rfl
@[simp] theorem State.setEvents_reports (s : State) (v : List Event) : (s.setEvents v).reports = s.reports := rfl
@[simp] theorem State.setEvents_events (s : State) (v : List Event) : (s.setEvents v).events = v := rfl
@[simp] theorem State.setEvents_rx (s : State) (v : List Event) : (s.setEvents v).rx = s.rx := rfl
@[simp] theorem State.setEvents_sends (s : State) (v : List Event) : (s.setEvents v).sends = s.sends := rfl
@[simp] theorem State.setEvents_draws (s : State) (v : List Event) : (s.setEvents v).draws = s.draws := rfl

@[simp] theorem State.setRx_s0 (s : State) (v : List (Option Byte)) : (s.setRx v).s0 = s.s0 := rfl
@[simp] theorem State.setRx_s1 (s : State) (v : List (Option Byte)) : (s.setRx v).s1 = s.s1 := rfl
@[simp] theorem State.setRx_sw (s : State) (v : List (Option Byte)) : (s.setRx v).sw = s.sw := rfl
@[simp] theorem State.setRx_rot (s : State) (v : List (Option Byte)) : (s.setRx v).rot = s.rot := rfl
@[simp] theorem State.setRx_ackq (s : State) (v : List (Option Byte)) : (s.setRx v).ackq = s.ackq := rfl
@[simp] theorem State.setRx_actAddr (s : State) (v : List (Option Byte)) : (s.setRx v).actAddr = s.actAddr := rfl
@[simp] theorem State.setRx_invAddr (s : State) (v : List (Option Byte)) : (s.setRx v).invAddr = s.invAddr := rfl
@[simp] theorem State.setRx_firstExam (s : State) (v : List (Option Byte)) : (s.setRx v).firstExam = s.firstExam := rfl
@[simp] theorem State.setRx_firstDep (s : State) (v : List (Option Byte)) : (s.setRx v).firstDep = s.firstDep := rfl
@[simp] theorem State.setRx_haltMode (s : State) (v : List (Option Byte)) : (s.setRx v).haltMode = s.haltMode := rfl
@[simp] theorem State.setRx_updateCount (s : State) (v : List (Option Byte)) : (s.setRx v).updateCount = s.updateCount := rfl
@[simp] theorem State.setRx_rotaryCount (s : State) (v : List (Option Byte)) : (s.setRx v).rotaryCount = s.rotaryCount := rfl
@[simp] theorem State.setRx_attached (s : State) (v : List (Option Byte)) : (s.setRx v).attached = s.attached := rfl
@[simp] theorem State.setRx_connected (s : State) (v : List (Option Byte)) : (s.setRx v).connected = s.connected := rfl
@[simp] theorem State.setRx_dormant (s : State) (v : List (Option Byte)) : (s.setRx v).dormant = s.dormant := rfl
@[simp] theorem State.setRx_model (s : State) (v : List (Option Byte)) : (s.setRx v).model = s.model := rfl
@[simp] theorem State.setRx_transportKind (s : State) (v : List (Option Byte)) : (s.setRx v).transportKind = s.transportKind := rfl
@[simp] theorem State.setRx_lineConfig (s : State) (v : List (Option Byte)) : (s.setRx v).lineConfig = s.lineConfig := rfl
@[simp] theorem State.setRx_tx (s : State) (v : List (Option Byte)) : (s.setRx v).tx = s.tx := rfl
@[simp] theorem State.setRx_signals (s : State) (v : List (Option Byte)) : (s.setRx v).signals = s.signals := rfl
@[simp] theorem State.setRx_reports (s : State) (v : List (Option Byte)) : (s.setRx v).reports = s.reports := rfl
@[simp] theorem State.setRx_events (s : State) (v : List (Option Byte)) : (s.setRx v).events = s.events := rfl
@[simp] theorem State.setRx_rx (s : State) (v : List (Option Byte)) : (s.setRx v).rx = v := rfl
@[simp] theorem State.setRx_sends (s : State) (v : List (Option Byte)) : (s.setRx v).sends = s.sends := rfl
@[simp] theorem State.setRx_draws (s : State) (v : List (Option Byte)) : (s.setRx v).draws = s.draws := rfl

@[simp] theorem State.setSends_s0 (s : State) (v : List SendResult) : (s.setSends v).s0 = s.s0 := rfl
@[simp] theorem State.setSends_s1 (s : State) (v : List SendResult) : (s.setSends v).s1 = s.s1 := rfl
@[simp] theorem State.setSends_sw (s : State) (v : List SendResult) : (s.setSends v).sw = s.sw := rfl
@[simp] theorem State.setSends_rot (s : State) (v : List SendResult) : (s.setSends v).rot = s.rot := rfl
@[simp] theorem State.setSends_ackq (s : State) (v : List SendResult) : (s.setSends v).ackq = s.ackq := rfl
@[simp] theorem State.setSends_actAddr (s : State) (v : List SendResult) : (s.setSends v).actAddr = s.actAddr := rfl
@[simp] theorem State.setSends_invAddr (s : State) (v : List SendResult) : (s.setSends v).invAddr = s.invAddr := rfl
@[simp] theorem State.setSends_firstExam (s : State) (v : List SendResult) : (s.setSends v).firstExam = s.firstExam := rfl
@[simp] theorem State.setSends_firstDep (s : State) (v : List SendResult) : (s.setSends v).firstDep = s.firstDep := rfl
@[simp] theorem State.setSends_haltMode (s : State) (v : List SendResult) : (s.setSends v).haltMode = s.haltMode := rfl
@[simp] theorem State.setSends_updateCount (s : State) (v : List SendResult) : (s.setSends v).updateCount = s.updateCount := rfl
@[simp] theorem State.setSends_rotaryCount (s : State) (v : List SendResult) : (s.setSends v).rotaryCount = s.rotaryCount := rfl
@[simp] theorem State.setSends_attached (s : State) (v : List SendResult) : (s.setSends v).attached = s.attached := rfl
@[simp] theorem State.setSends_connected (s : State) (v : List SendResult) : (s.setSends v).connected = s.connected := rfl
@[simp] theorem State.setSends_dormant (s : State) (v : List SendResult) : (s.setSends v).dormant = s.dormant := rfl
@[simp] theorem State.setSends_model (s : State) (v : List SendResult) : (s.setSends v).model = s.model := rfl
@[simp] theorem State.setSends_transportKind (s : State) (v : List SendResult) : (s.setSends v).transportKind = s.transportKind := rfl
@[simp] theorem State.setSends_lineConfig (s : State) (v : List SendResult) : (s.setSends v).lineConfig = s.lineConfig := rfl
@[simp] theorem State.setSends_tx (s : State) (v : List SendResult) : (s.setSends v).tx = s.tx := rfl
@[simp] theorem State.setSends_signals (s : State) (v : List SendResult) : (s.setSends v).signals = s.signals := rfl
@[simp] theorem State.setSends_reports (s : State) (v : List SendResult) : (s.setSends v).reports = s.reports := rfl
@[simp] theorem State.setSends_events (s : State) (v : List SendResult) : (s.setSends v).events = s.events := rfl
@[simp] theorem State.setSends_rx (s : State) (v : List SendResult) : (s.setSends v).rx = s.rx := rfl
@[simp] theorem State.setSends_sends (s : State) (v : List SendResult) : (s.setSends v).sends = v := rfl
@[simp] theorem State.setSends_draws (s : State) (v : List SendResult) : (s.setSends v).draws = s.draws := rfl

@[simp] theorem State.signal_s0 (s : State) (v : Signal) : (s.signal v).s0 = s.s0 := rfl
@[simp] theorem State.signal_s1 (s : State) (v : Signal) : (s.signal v).s1 = s.s1 := rfl
@[simp] theorem State.signal_sw (s : State) (v : Signal) : (s.signal v).sw = s.sw := rfl
@[simp] theorem State.signal_rot (s : State) (v : Signal) : (s.signal v).rot = s.rot := rfl
@[simp] theorem State.signal_ackq (s : State) (v : Signal) : (s.signal v).ackq = s.ackq := rfl
@[simp] theorem State.signal_actAddr (s : State) (v : Signal) : (s.signal v).actAddr = s.actAddr := rfl
@[simp] theorem State.signal_invAddr (s : State) (v : Signal) : (s.signal v).invAddr = s.invAddr := rfl
@[simp] theorem State.signal_firstExam (s : State) (v : Signal) : (s.signal v).firstExam = s.firstExam := rfl
@[simp] theorem State.signal_firstDep (s : State) (v : Signal) : (s.signal v).firstDep = s.firstDep := rfl
@[simp] theorem State.signal_haltMode (s : State) (v : Signal) : (s.signal v).haltMode = s.haltMode := rfl
@[simp] theorem State.signal_updateCount (s : State) (v : Signal) : (s.signal v).updateCount = s.updateCount := rfl
@[simp] theorem State.signal_rotaryCount (s : State) (v : Signal) : (s.signal v).rotaryCount = s.rotaryCount := rfl
@[simp] theorem State.signal_attached (s : State) (v : Signal) : (s.signal v).attached = s.attached := rfl
@[simp] theorem State.signal_connected (s : State) (v : Signal) : (s.signal v).connected = s.connected := rfl
@[simp] theorem State.signal_dormant (s : State) (v : Signal) : (s.signal v).dormant = s.dormant := rfl
@[simp] theorem State.signal_model (s : State) (v : Signal) : (s.signal v).model = s.model := rfl
@[simp] theorem State.signal_transportKind (s : State) (v : Signal) : (s.signal v).transportKind = s.transportKind := rfl
@[simp] theorem State.signal_lineConfig (s : State) (v : Signal) : (s.signal v).lineConfig = s.lineConfig := rfl
@[simp] theorem State.signal_tx (s : State) (v : Signal) : (s.signal v).tx = s.tx := rfl
@[simp] theorem State.signal_signals (s : State) (v : Signal) : (s.signal v).signals = s.signals ++ [v] := rfl
@[simp] theorem State.signal_reports (s : State) (v : Signal) : (s.signal v).reports = s.reports := rfl
@[simp] theorem State.signal_events (s : State) (v : Signal) : (s.signal v).events = s.events := rfl
@[simp] theorem State.signal_rx (s : State) (v : Signal) : (s.signal v).rx = s.rx := rfl
@[simp] theorem State.signal_sends (s : State) (v : Signal) : (s.signal v).sends = s.sends := rfl
@[simp] theorem State.signal_draws (s : State) (v : Signal) : (s.signal v).draws = s.draws := rfl

@[simp] theorem State.report_s0 (s : State) (v : ErrorKind) : (s.report v).s0 = s.s0 := rfl
@[simp] theorem State.report_s1 (s : State) (v : ErrorKind) : (s.report v).s1 = s.s1 := rfl
@[simp] theorem State.report_sw (s : State) (v : ErrorKind) : (s.report v).sw = s.sw := rfl
@[simp] theorem State.report_rot (s : State) (v : ErrorKind) : (s.report v).rot = s.rot := rfl
@[simp] theorem State.report_ackq (s : State) (v : ErrorKind) : (s.report v).ackq = s.ackq := rfl
@[simp] theorem State.report_actAddr (s : State) (v : ErrorKind) : (s.report v).actAddr = s.actAddr := rfl
@[simp] theorem State.report_invAddr (s : State) (v : ErrorKind) : (s.report v).invAddr = s.invAddr := rfl
@[simp] theorem State.report_firstExam (s : State) (v : ErrorKind) : (s.report v).firstExam = s.firstExam := rfl
@[simp] theorem State.report_firstDep (s : State) (v : ErrorKind) : (s.report v).firstDep = s.firstDep := rfl
@[simp] theorem State.report_haltMode (s : State) (v : ErrorKind) : (s.report v).haltMode = s.haltMode := rfl
@[simp] theorem State.report_updateCount (s : State) (v : ErrorKind) : (s.report v).updateCount = s.updateCount := rfl
@[simp] theorem State.report_rotaryCount (s : State) (v : ErrorKind) : (s.report v).rotaryCount = s.rotaryCount := rfl
@[simp] theorem State.report_attached (s : State) (v : ErrorKind) : (s.report v).attached = s.attached := rfl
@[simp] theorem State.report_connected (s : State) (v : ErrorKind) : (s.report v).connected = s.connected := rfl
@[simp] theorem State.report_dormant (s : State) (v : ErrorKind) : (s.report v).dormant = s.dormant := rfl
@[simp] theorem State.report_model (s : State) (v : ErrorKind) : (s.report v).model = s.model := rfl
@[simp] theorem State.report_transportKind (s : State) (v : ErrorKind) : (s.report v).transportKind = s.transportKind := rfl
@[simp] theorem State.report_lineConfig (s : State) (v : ErrorKind) : (s.report v).lineConfig = s.lineConfig := rfl
@[simp] theorem State.report_tx (s : State) (v : ErrorKind) : (s.report v).tx = s.tx := rfl
@[simp] theorem State.report_signals (s : State) (v : ErrorKind) : (s.report v).signals = s.signals := rfl
@[simp] theorem State.report_reports (s : State) (v : ErrorKind) : (s.report v).reports = s.reports ++ [v] := rfl
@[simp] theorem State.report_events (s : State) (v : ErrorKind) : (s.report v).events = s.events := rfl
@[simp] theorem State.report_rx (s : State) (v : ErrorKind) : (s.report v).rx = s.rx := rfl
@[simp] theorem State.report_sends (s : State) (v : ErrorKind) : (s.report v).sends = s.sends := rfl
@[simp] theorem State.report_draws (s : State) (v : ErrorKind) : (s.report v).draws = s.draws := rfl

@[simp] theorem State.countDraw_s0 (s : State) : s.countDraw.s0 = s.s0 := rfl
@[simp] theorem State.countDraw_s1 (s : State) : s.countDraw.s1 = s.s1 := rfl
@[simp] theorem State.countDraw_sw (s : State) : s.countDraw.sw = s.sw := rfl
@[simp] theorem State.countDraw_rot (s : State) : s.countDraw.rot = s.rot := rfl
@[simp] theorem State.countDraw_ackq (s : State) : s.countDraw.ackq = s.ackq := rfl
@[simp] theorem State.countDraw_actAddr (s : State) : s.countDraw.actAddr = s.actAddr := rfl
@[simp] theorem State.countDraw_invAddr (s : State) : s.countDraw.invAddr = s.invAddr := rfl
@[simp] theorem State.countDraw_firstExam (s : State) : s.countDraw.firstExam = s.firstExam := rfl
@[simp] theorem State.countDraw_firstDep (s : State) : s.countDraw.firstDep = s.firstDep := rfl
@[simp] theorem State.countDraw_haltMode (s : State) : s.countDraw.haltMode = s.haltMode := rfl
@[simp] theorem State.countDraw_updateCount (s : State) : s.countDraw.updateCount = s.updateCount := rfl
@[simp] theorem State.countDraw_rotaryCount (s : State) : s.countDraw.rotaryCount = s.rotaryCount := rfl
@[simp] theorem State.countDraw_attached (s : State) : s.countDraw.attached = s.attached := rfl
@[simp] theorem State.countDraw_connected (s : State) : s.countDraw.connected = s.connected := rfl
@[simp] theorem State.countDraw_dormant (s : State) : s.countDraw.dormant = s.dormant := rfl
@[simp] theorem State.countDraw_model (s : State) : s.countDraw.model = s.model := rfl
@[simp] theorem State.countDraw_transportKind (s : State) : s.countDraw.transportKind = s.transportKind := rfl
@[simp] theorem State.countDraw_lineConfig (s : State) : s.countDraw.lineConfig = s.lineConfig := rfl
@[simp] theorem State.countDraw_tx (s : State) : s.countDraw.tx = s.tx := rfl
@[simp] theorem State.countDraw_signals (s : State) : s.countDraw.signals = s.signals := rfl
@[simp] theorem State.countDraw_reports (s : State) : s.countDraw.reports = s.reports := rfl
@[simp] theorem State.countDraw_events (s : State) : s.countDraw.events = s.events := rfl
@[simp] theorem State.countDraw_rx (s : State) : s.countDraw.rx = s.rx := rfl
@[simp] theorem State.countDraw_sends (s : State) : s.countDraw.sends = s.sends := rfl
@[simp] theorem State.countDraw_draws (s : State) : s.countDraw.draws = s.draws + 1 := rfl

@[simp] theorem State.detachNext_s0 (s : State) : s.detachNext.s0 = s.s0 := rfl
@[simp] theorem State.detachNext_s1 (s : State) : s.detachNext.s1 = s.s1 := rfl
@[simp] theorem State.detachNext_sw (s : State) : s.detachNext.sw = s.sw := rfl
@[simp] theorem State.detachNext_rot (s : State) : s.detachNext.rot = s.rot := rfl
@[simp] theorem State.detachNext_ackq (s : State) : s.detachNext.ackq = s.ackq := rfl
@[simp] theorem State.detachNext_actAddr (s : State) : s.detachNext.actAddr = s.actAddr := rfl
@[simp] theorem State.detachNext_invAddr (s : State) : s.detachNext.invAddr = s.invAddr := rfl
@[simp] theorem State.detachNext_firstExam (s : State) : s.detachNext.firstExam = s.firstExam := rfl
@[simp] theorem State.detachNext_firstDep (s : State) : s.detachNext.firstDep = s.firstDep := rfl
@[simp] theorem State.detachNext_haltMode (s : State) : s.detachNext.haltMode = s.haltMode := rfl
@[simp] theorem State.detachNext_updateCount (s : State) : s.detachNext.updateCount = s.updateCount := rfl
@[simp] theorem State.detachNext_rotaryCount (s : State) : s.detachNext.rotaryCount = s.rotaryCount := rfl
@[simp] theorem State.detachNext_attached (s : State) : s.detachNext.attached = s.attached := rfl
@[simp] theorem State.detachNext_connected (s : State) : s.detachNext.connected = s.connected := rfl
@[simp] theorem State.detachNext_dormant (s : State) : s.detachNext.dormant = s.dormant := rfl
@[simp] theorem State.detachNext_model (s : State) : s.detachNext.model = s.model := rfl
@[simp] theorem State.detachNext_transportKind (s : State) : s.detachNext.transportKind = s.transportKind := rfl
@[simp] theorem State.detachNext_lineConfig (s : State) : s.detachNext.lineConfig = s.lineConfig := rfl
@[simp] theorem State.detachNext_tx (s : State) : s.detachNext.tx = s.tx := rfl
@[simp] theorem State.detachNext_signals (s : State) : s.detachNext.signals = s.signals := rfl
@[simp] theorem State.detachNext_reports (s : State) : s.detachNext.reports = s.reports := rfl
@[simp] theorem State.detachNext_events (s : State) : s.detachNext.events = .detach :: s.events := rfl
@[simp] theorem State.detachNext_rx (s : State) : s.detachNext.rx = s.rx := rfl
@[simp] theorem State.detachNext_sends (s : State) : s.detachNext.sends = s.sends := rfl
@[simp] theorem State.detachNext_draws (s : State) : s.detachNext.draws = s.draws := rfl

@[simp] theorem State.recordTx_s0 (s : State) (frame : List Byte) (n : Nat) : (s.recordTx frame n).s0 = s.s0 := rfl
@[simp] theorem State.recordTx_s1 (s : State) (frame : List Byte) (n : Nat) : (s.recordTx frame n).s1 = s.s1 := rfl
@[simp] theorem State.recordTx_sw (s : State) (frame : List Byte) (n : Nat) : (s.recordTx frame n).sw = s.sw := rfl
@[simp] theorem State.recordTx_rot (s : State) (frame : List Byte) (n : Nat) : (s.recordTx frame n).rot = s.rot := rfl
@[simp] theorem State.recordTx_ackq (s : State) (frame : List Byte) (n : Nat) : (s.recordTx frame n).ackq = s.ackq := rfl
@[simp] theorem State.recordTx_actAddr (s : State) (frame : List Byte) (n : Nat) : (s.recordTx frame n).actAddr = s.actAddr := rfl
@[simp] theorem State.recordTx_invAddr (s : State) (frame : List Byte) (n : Nat) : (s.recordTx frame n).invAddr = s.invAddr := rfl
@[simp] theorem State.recordTx_firstExam (s : State) (frame : List Byte) (n : Nat) : (s.recordTx frame n).firstExam = s.firstExam := rfl
@[simp] theorem State.recordTx_firstDep (s : State) (frame : List Byte) (n : Nat) : (s.recordTx frame n).firstDep = s.firstDep := rfl
@[simp] theorem State.recordTx_haltMode (s : State) (frame : List Byte) (n : Nat) : (s.recordTx frame n).haltMode = s.haltMode := rfl
@[simp] theorem State.recordTx_updateCount (s : State) (frame : List Byte) (n : Nat) : (s.recordTx frame n).updateCount = s.updateCount := rfl
@[simp] theorem State.recordTx_rotaryCount (s : State) (frame : List Byte) (n : Nat) : (s.recordTx frame n).rotaryCount = s.rotaryCount := rfl
@[simp] theorem State.recordTx_attached (s : State) (frame : List Byte) (n : Nat) : (s.recordTx frame n).attached = s.attached := rfl
@[simp] theorem State.recordTx_connected (s : State) (frame : List Byte) (n : Nat) : (s.recordTx frame n).connected = s.connected := rfl
@[simp] theorem State.recordTx_dormant (s : State) (frame : List Byte) (n : Nat) : (s.recordTx frame n).dormant = s.dormant := rfl
@[simp] theorem State.recordTx_model (s : State) (frame : List Byte) (n : Nat) : (s.recordTx frame n).model = s.model := rfl
@[simp] theorem State.recordTx_transportKind (s : State) (frame : List Byte) (n : Nat) : (s.recordTx frame n).transportKind = s.transportKind := rfl
@[simp] theorem State.recordTx_lineConfig (s : State) (frame : List Byte) (n : Nat) : (s.recordTx frame n).lineConfig = s.lineConfig := rfl
@[simp] theorem State.recordTx_tx (s : State) (frame : List Byte) (n : Nat) : (s.recordTx frame n).tx = s.tx ++ [⟨frame, n⟩] := rfl
@[simp] theorem State.recordTx_signals (s : State) (frame : List Byte) (n : Nat) : (s.recordTx frame n).signals = s.signals := rfl
@[simp] theorem State.recordTx_reports (s : State) (frame : List Byte) (n : Nat) : (s.recordTx frame n).reports = s.reports := rfl
@[simp] theorem State.recordTx_events (s : State) (frame : List Byte) (n : Nat) : (s.recordTx frame n).events = s.events := rfl
@[simp] theorem State.recordTx_rx (s : State) (frame : List Byte) (n : Nat) : (s.recordTx frame n).rx = s.rx := rfl
@[simp] theorem State.recordTx_sends (s : State) (frame : List Byte) (n : Nat) : (s.recordTx frame n).sends = s.sends := rfl
@[simp] theorem State.recordTx_draws (s : State) (frame : List Byte) (n : Nat) : (s.recordTx frame n).draws = s.draws := rfl

@[simp] theorem State.setStatus_sw (s : State) (f : StatusField) (v : Byte) : (s.setStatus f v).sw = s.sw := by
  cases f <;> rfl
@[simp] theorem State.setStatus_rot (s : State) (f : StatusField) (v : Byte) : (s.setStatus f v).rot = s.rot := by
  cases f <;> rfl
@[simp] theorem State.setStatus_ackq (s : State) (f : StatusField) (v : Byte) : (s.setStatus f v).ackq = s.ackq := by
  cases f <;> rfl
@[simp] theorem State.setStatus_actAddr (s : State) (f : StatusField) (v : Byte) : (s.setStatus f v).actAddr = s.actAddr := by
  cases f <;> rfl
@[simp] theorem State.setStatus_invAddr (s : State) (f : StatusField) (v : Byte) : (s.setStatus f v).invAddr = s.invAddr := by
  cases f <;> rfl
@[simp] theorem State.setStatus_firstExam (s : State) (f : StatusField) (v : Byte) : (s.setStatus f v).firstExam = s.firstExam := by
  cases f <;> rfl
@[simp] theorem State.setStatus_firstDep (s : State) (f : StatusField) (v : Byte) : (s.setStatus f v).firstDep = s.firstDep := by
  cases f <;> rfl
@[simp] theorem State.setStatus_haltMode (s : State) (f : StatusField) (v : Byte) : (s.setStatus f v).haltMode = s.haltMode := by
  cases f <;> rfl
@[simp] theorem State.setStatus_updateCount (s : State) (f : StatusField) (v : Byte) : (s.setStatus f v).updateCount = s.updateCount := by
  cases f <;> rfl
@[simp] theorem State.setStatus_rotaryCount (s : State) (f : StatusField) (v : Byte) : (s.setStatus f v).rotaryCount = s.rotaryCount := by
  cases f <;> rfl
@[simp] theorem State.setStatus_attached (s : State) (f : StatusField) (v : Byte) : (s.setStatus f v).attached = s.attached := by
  cases f <;> rfl
@[simp] theorem State.setStatus_connected (s : State) (f : StatusField) (v : Byte) : (s.setStatus f v).connected = s.connected := by
  cases f <;> rfl
@[simp] theorem State.setStatus_dormant (s : State) (f : StatusField) (v : Byte) : (s.setStatus f v).dormant = s.dormant := by
  cases f <;> rfl
@[simp] theorem State.setStatus_model (s : State) (f : StatusField) (v : Byte) : (s.setStatus f v).model = s.model := by
  cases f <;> rfl
@[simp] theorem State.setStatus_transportKind (s : State) (f : StatusField) (v : Byte) : (s.setStatus f v).transportKind = s.transportKind := by
  cases f <;> rfl
@[simp] theorem State.setStatus_lineConfig (s : State) (f : StatusField) (v : Byte) : (s.setStatus f v).lineConfig = s.lineConfig := by
  cases f <;> rfl
@[simp] theorem State.setStatus_tx (s : State) (f : StatusField) (v : Byte) : (s.setStatus f v).tx = s.tx := by
  cases f <;> rfl
@[simp] theorem State.setStatus_signals (s : State) (f : StatusField) (v : Byte) : (s.setStatus f v).signals = s.signals := by
  cases f <;> rfl
@[simp] theorem State.setStatus_reports (s : State) (f : StatusField) (v : Byte) : (s.setStatus f v).reports = s.reports := by
  cases f <;> rfl
@[simp] theorem State.setStatus_events (s : State) (f : StatusField) (v : Byte) : (s.setStatus f v).events = s.events := by
  cases f <;> rfl
@[simp] theorem State.setStatus_rx (s : State) (f : StatusField) (v : Byte) : (s.setStatus f v).rx = s.rx := by
  cases f <;> rfl
@[simp] theorem State.setStatus_sends (s : State) (f : StatusField) (v : Byte) : (s.setStatus f v).sends = s.sends := by
  cases f <;> rfl
@[simp] theorem State.setStatus_draws (s : State) (f : StatusField) (v : Byte) : (s.setStatus f v).draws = s.draws := by
  cases f <;> rfl

/-- Reading the field just written. -/
@[simp] theorem State.setStatus_status_same (s : State) (f : StatusField) (v : Byte) :
    (s.setStatus f v).status f = v := by
  cases f <;> rfl

/-- Reading the other field. -/
theorem State.setStatus_status_other (s : State) (f g : StatusField) (v : Byte) (h : g ≠ f) :
    (s.setStatus f v).status g = s.status g := by
  cases f <;> cases g <;> first | rfl | exact absurd rfl h

@[simp] theorem State.clearRegisters_s0 (s : State) (m : Model) (k : TransportKind) (l : List Char) :
    (s.clearRegisters m k l).s0 = State.reset.s0 := rfl
@[simp] theorem State.clearRegisters_s1 (s : State) (m : Model) (k : TransportKind) (l : List Char) :
    (s.clearRegisters m k l).s1 = State.reset.s1 := rfl
@[simp] theorem State.clearRegisters_sw (s : State) (m : Model) (k : TransportKind) (l : List Char) :
    (s.clearRegisters m k l).sw = State.reset.sw := rfl
@[simp] theorem State.clearRegisters_rot (s : State) (m : Model) (k : TransportKind) (l : List Char) :
    (s.clearRegisters m k l).rot = State.reset.rot := rfl
@[simp] theorem State.clearRegisters_ackq (s : State) (m : Model) (k : TransportKind) (l : List Char) :
    (s.clearRegisters m k l).ackq = State.reset.ackq := rfl
@[simp] theorem State.clearRegisters_actAddr (s : State) (m : Model) (k : TransportKind) (l : List Char) :
    (s.clearRegisters m k l).actAddr = State.reset.actAddr := rfl
@[simp] theorem State.clearRegisters_invAddr (s : State) (m : Model) (k : TransportKind) (l : List Char) :
    (s.clearRegisters m k l).invAddr = State.reset.invAddr := rfl
@[simp] theorem State.clearRegisters_firstExam (s : State) (m : Model) (k : TransportKind) (l : List Char) :
    (s.clearRegisters m k l).firstExam = State.reset.firstExam := rfl
@[simp] theorem State.clearRegisters_firstDep (s : State) (m : Model) (k : TransportKind) (l : List Char) :
    (s.clearRegisters m k l).firstDep = State.reset.firstDep := rfl
@[simp] theorem State.clearRegisters_haltMode (s : State) (m : Model) (k : TransportKind) (l : List Char) :
    (s.clearRegisters m k l).haltMode = State.reset.haltMode := rfl
@[simp] theorem State.clearRegisters_updateCount (s : State) (m : Model) (k : TransportKind) (l : List Char) :
    (s.clearRegisters m k l).updateCount = State.reset.updateCount := rfl
@[simp] theorem State.clearRegisters_rotaryCount (s : State) (m : Model) (k : TransportKind) (l : List Char) :
    (s.clearRegisters m k l).rotaryCount = State.reset.rotaryCount := rfl
@[simp] theorem State.clearRegisters_attached (s : State) (m : Model) (k : TransportKind) (l : List Char) :
    (s.clearRegisters m k l).attached = State.reset.attached := rfl
@[simp] theorem State.clearRegisters_connected (s : State) (m : Model) (k : TransportKind) (l : List Char) :
    (s.clearRegisters m k l).connected = State.reset.connected := rfl
@[simp] theorem State.clearRegisters_dormant (s : State) (m : Model) (k : TransportKind) (l : List Char) :
    (s.clearRegisters m k l).dormant = State.reset.dormant := rfl
@[simp] theorem State.clearRegisters_model (s : State) (m : Model) (k : TransportKind) (l : List Char) :
    (s.clearRegisters m k l).model = m := rfl
@[simp] theorem State.clearRegisters_transportKind (s : State) (m : Model) (k : TransportKind) (l : List Char) :
    (s.clearRegisters m k l).transportKind = k := rfl
@[simp] theorem State.clearRegisters_lineConfig (s : State) (m : Model) (k : TransportKind) (l : List Char) :
    (s.clearRegisters m k l).lineConfig = l := rfl
@[simp] theorem State.clearRegisters_tx (s : State) (m : Model) (k : TransportKind) (l : List Char) :
    (s.clearRegisters m k l).tx = s.tx := rfl
@[simp] theorem State.clearRegisters_signals (s : State) (m : Model) (k : TransportKind) (l : List Char) :
    (s.clearRegisters m k l).signals = s.signals := rfl
@[simp] theorem State.clearRegisters_reports (s : State) (m : Model) (k : TransportKind) (l : List Char) :
    (s.clearRegisters m k l).reports = s.reports := rfl
@[simp] theorem State.clearRegisters_events (s : State) (m : Model) (k : TransportKind) (l : List Char) :
    (s.clearRegisters m k l).events = s.events := rfl
@[simp] theorem State.clearRegisters_rx (s : State) (m : Model) (k : TransportKind) (l : List Char) :
    (s.clearRegisters m k l).rx = s.rx := rfl
@[simp] theorem State.clearRegisters_sends (s : State) (m : Model) (k : TransportKind) (l : List Char) :
    (s.clearRegisters m k l).sends = s.sends := rfl
@[simp] theorem State.clearRegisters_draws (s : State) (m : Model) (k : TransportKind) (l : List Char) :
    (s.clearRegisters m k l).draws = s.draws := rfl

@[simp] theorem State.discard_s0 (s : State) : s.discard.s0 = State.reset.s0 := rfl
@[simp] theorem State.discard_s1 (s : State) : s.discard.s1 = State.reset.s1 := rfl
@[simp] theorem State.discard_sw (s : State) : s.discard.sw = State.reset.sw := rfl
@[simp] theorem State.discard_rot (s : State) : s.discard.rot = State.reset.rot := rfl
@[simp] theorem State.discard_ackq (s : State) : s.discard.ackq = State.reset.ackq := rfl
@[simp] theorem State.discard_actAddr (s : State) : s.discard.actAddr = State.reset.actAddr := rfl
@[simp] theorem State.discard_invAddr (s : State) : s.discard.invAddr = State.reset.invAddr := rfl
@[simp] theorem State.discard_firstExam (s : State) : s.discard.firstExam = State.reset.firstExam := rfl
@[simp] theorem State.discard_firstDep (s : State) : s.discard.firstDep = State.reset.firstDep := rfl
@[simp] theorem State.discard_haltMode (s : State) : s.discard.haltMode = State.reset.haltMode := rfl
@[simp] theorem State.discard_updateCount (s : State) : s.discard.updateCount = State.reset.updateCount := rfl
@[simp] theorem State.discard_rotaryCount (s : State) : s.discard.rotaryCount = State.reset.rotaryCount := rfl
@[simp] theorem State.discard_attached (s : State) : s.discard.attached = false := rfl
@[simp] theorem State.discard_connected (s : State) : s.discard.connected = false := rfl
@[simp] theorem State.discard_dormant (s : State) : s.discard.dormant = State.reset.dormant := rfl
@[simp] theorem State.discard_model (s : State) : s.discard.model = State.reset.model := rfl
@[simp] theorem State.discard_transportKind (s : State) : s.discard.transportKind = State.reset.transportKind := rfl
@[simp] theorem State.discard_lineConfig (s : State) : s.discard.lineConfig = State.reset.lineConfig := rfl
@[simp] theorem State.discard_tx (s : State) : s.discard.tx = s.tx := rfl
@[simp] theorem State.discard_signals (s : State) : s.discard.signals = s.signals := rfl
@[simp] theorem State.discard_reports (s : State) : s.discard.reports = s.reports := rfl
@[simp] theorem State.discard_events (s : State) : s.discard.events = s.events := rfl
@[simp] theorem State.discard_rx (s : State) : s.discard.rx = s.rx := rfl
@[simp] theorem State.discard_sends (s : State) : s.discard.sends = s.sends := rfl
@[simp] theorem State.discard_draws (s : State) : s.discard.draws = s.draws := rfl

end Sys2Proof.Machine
end

