-- ==== Sys2Proof/Laws/Status.lean ====
section
/-! SUPPORT. The status bits: what driving a bit does to it and to every other one, and that the status manager
writes the two status fields and nothing else. -/

namespace Sys2Proof.Machine

/-- A bit of a driven byte: `on` where the flag names it, else as before (42_status_manager.md R122). -/
theorem driveBits_getLsbD (old flag : Byte) (on : Bool) (k : Nat) :
    (driveBits old flag on).getLsbD k = if flag.getLsbD k then on else old.getLsbD k := by
  cases on <;> cases hf : flag.getLsbD k <;> cases ho : old.getLsbD k <;>
    simp [driveBits, hf, ho, BitVec.getLsbD_or, BitVec.getLsbD_and, BitVec.getLsbD_not]
  all_goals exact BitVec.lt_of_getLsbD ho

/-- Driving twice is driving once (42_status_manager.md R121). -/
theorem driveBits_idem (old flag : Byte) (on : Bool) :
    driveBits (driveBits old flag on) flag on = driveBits old flag on := by
  apply BitVec.eq_of_getLsbD_eq
  intro k _
  simp only [driveBits_getLsbD]
  split <;> rfl

/-- The mask of a position names that bit only. -/
theorem bitMask_getLsbD (p : BitPos) (k : Nat) : (bitMask p).getLsbD k = decide (k = p.bit.val) := by
  obtain ⟨f, b⟩ := p
  by_cases hk : k < 8
  · have : ∀ b : Fin 8, ∀ k : Fin 8,
        (BitVec.ofNat 8 (2 ^ b.val)).getLsbD k.val = decide (k.val = b.val) := by decide
    exact this b ⟨k, hk⟩
  · have h1 : (bitMask ⟨f, b⟩).getLsbD k = false := BitVec.getLsbD_of_ge _ _ (by omega)
    have h2 : k ≠ b.val := by omega
    simp [h1, h2]

/-- Every bit after a drive of a field. -/
theorem State.statusBit_driveStatus (s : State) (f : StatusField) (flag : Byte) (on : Bool) (p : BitPos) :
    (s.driveStatus f flag on).statusBit p =
      if p.field = f ∧ flag.getLsbD p.bit.val = true then on else s.statusBit p := by
  obtain ⟨pf, b⟩ := p
  by_cases h : pf = f
  · subst h
    simp only [State.statusBit, State.driveStatus, State.setStatus_status_same, driveBits_getLsbD, true_and]
  · simp [State.statusBit, State.driveStatus, State.setStatus_status_other _ _ _ _ h, h]

/-- Every bit after a write of one bit: that bit takes the value, the others stay. -/
theorem State.statusBit_writeBit (s : State) (p q : BitPos) (v : Bool) :
    (s.writeBit p v).statusBit q = if q = p then v else s.statusBit q := by
  rw [State.writeBit, State.statusBit_driveStatus]
  obtain ⟨pf, pb⟩ := p
  obtain ⟨qf, qb⟩ := q
  simp only [bitMask_getLsbD, decide_eq_true_eq, BitPos.mk.injEq, Fin.ext_iff]

@[simp] theorem State.statusBit_writeBit_same (s : State) (p : BitPos) (v : Bool) :
    (s.writeBit p v).statusBit p = v := by
  simp [State.statusBit_writeBit]

theorem State.statusBit_writeBit_other (s : State) {p q : BitPos} (v : Bool) (h : q ≠ p) :
    (s.writeBit p v).statusBit q = s.statusBit q := by
  simp [State.statusBit_writeBit, h]

/-- Two states with the same status fields have the same status bits. -/
theorem State.statusBit_congr {s t : State} (h0 : t.s0 = s.s0) (h1 : t.s1 = s.s1) (p : BitPos) :
    t.statusBit p = s.statusBit p := by
  obtain ⟨f, b⟩ := p
  cases f <;> simp [State.statusBit, State.status, h0, h1]

/-- Every bit after a write of the ring bits (42_status_manager.md R123). -/
theorem State.statusBit_writeRing (s : State) (l : StatusLayout) (code : BitVec 2) (p : BitPos) :
    (s.writeRing l code).statusBit p =
      if p = l.ringLo then code.getLsbD 0 else if p = l.ringHi then code.getLsbD 1 else s.statusBit p := by
  rw [State.writeRing, State.statusBit_writeBit, State.statusBit_writeBit]

/-- Every bit after a write of the width bits (42_status_manager.md R124). -/
theorem State.statusBit_writeWidth (s : State) (l : StatusLayout) (rule : MmuRule) (w : Width) (p : BitPos) :
    (s.writeWidth l rule w).statusBit p =
      match rule with
      | .singleVirtualBit => if p = l.virt then decide (w ≠ .w16) else s.statusBit p
      | .threeWidthBits =>
        if p = l.w22 then decide (w = .w22)
        else if p = l.w18 then decide (w = .w18)
        else if p = l.w16 then decide (w = .w16) else s.statusBit p := by
  cases rule <;> simp only [State.writeWidth, State.statusBit_writeBit]

/-! ## The status manager writes the two fields only -/

/-- Driving a field writes the status fields only. -/
theorem State.driveStatus_only (s : State) (f : StatusField) (flag : Byte) (on : Bool) :
    ∃ v0 v1, s.driveStatus f flag on = { s with s0 := v0, s1 := v1 } := by
  cases f
  · exact ⟨_, s.s1, rfl⟩
  · exact ⟨s.s0, _, rfl⟩

/-- Writing a bit writes the status fields only. -/
theorem State.writeBit_only (s : State) (p : BitPos) (v : Bool) :
    ∃ v0 v1, s.writeBit p v = { s with s0 := v0, s1 := v1 } := s.driveStatus_only _ _ _

/-- Writing the ring bits writes the status fields only. -/
theorem State.writeRing_only (s : State) (l : StatusLayout) (code : BitVec 2) :
    ∃ v0 v1, s.writeRing l code = { s with s0 := v0, s1 := v1 } := by
  obtain ⟨a, b, h⟩ := s.writeBit_only l.ringHi (code.getLsbD 1)
  obtain ⟨a', b', h'⟩ := (s.writeBit l.ringHi (code.getLsbD 1)).writeBit_only l.ringLo (code.getLsbD 0)
  exact ⟨a', b', by rw [State.writeRing, h', h]⟩

/-- Writing the width bits writes the status fields only. -/
theorem State.writeWidth_only (s : State) (l : StatusLayout) (rule : MmuRule) (w : Width) :
    ∃ v0 v1, s.writeWidth l rule w = { s with s0 := v0, s1 := v1 } := by
  cases rule with
  | singleVirtualBit => exact s.writeBit_only _ _
  | threeWidthBits =>
    obtain ⟨a, b, h⟩ := s.writeBit_only l.w16 (decide (w = .w16))
    obtain ⟨a', b', h'⟩ := (s.writeBit l.w16 (decide (w = .w16))).writeBit_only l.w18 (decide (w = .w18))
    obtain ⟨a'', b'', h''⟩ :=
      ((s.writeBit l.w16 (decide (w = .w16))).writeBit l.w18 (decide (w = .w18))).writeBit_only l.w22
        (decide (w = .w22))
    exact ⟨a'', b'', by rw [State.writeWidth, h'', h', h]⟩

/-- `set_ring_protection` writes the status fields only. -/
theorem State.applyRing_only (c : Config) (s : State) (level : RingLevel) :
    ∃ v0 v1, s.applyRing c level = { s with s0 := v0, s1 := v1 } := by
  unfold State.applyRing
  split
  · exact s.writeRing_only _ _
  · exact ⟨s.s0, s.s1, rfl⟩

/-- `set_mmu_mode` writes the status fields only. -/
theorem State.applyMmu_only (c : Config) (s : State) (e18 e22 : Bool) :
    ∃ v0 v1, s.applyMmu c e18 e22 = { s with s0 := v0, s1 := v1 } := s.writeWidth_only _ _ _

/-- Driving the address-error bit writes the status fields only. -/
theorem State.driveAddrErr_only (c : Config) (s : State) (on : Bool) :
    ∃ v0 v1, s.driveAddrErr c on = { s with s0 := v0, s1 := v1 } := by
  unfold State.driveAddrErr
  split
  · exact s.writeBit_only _ _
  · exact ⟨s.s0, s.s1, rfl⟩

end Sys2Proof.Machine
end

