-- ==== Sys2Proof/Laws/Transport.lean ====
section
/-! SUPPORT. What the transport primitives can do: `Send`, `Recv` and the way an operation ends early. Each is said
once, so that callers cite it and never unfold it. -/

namespace Sys2Proof.Machine

/-! ## Running operations -/

@[simp] theorem Ran.andThen_on (s : State) (f : State → Ran) : (Ran.on s).andThen f = f s := rfl
@[simp] theorem Ran.andThen_stop (s : State) (f : State → Ran) : (Ran.stop s).andThen f = .stop s := rfl
@[simp] theorem Ran.state_on (s : State) : (Ran.on s).state = s := rfl
@[simp] theorem Ran.state_stop (s : State) : (Ran.stop s).state = s := rfl

/-- A property of states that the first part leaves and the second keeps is left by both parts. -/
theorem Ran.andThen_keeps {P : State → Prop} {r : Ran} {f : State → Ran} (first : P r.state)
    (second : ∀ s, P s → P (f s).state) : P (r.andThen f).state := by
  cases r with
  | on s => exact second s first
  | stop s => exact first

/-- The guard lets an operation run when the link is up. -/
theorem State.guarded_active {s : State} (h : s.active = true) (op : State → Ran) :
    s.guarded op = (op s).state := by
  simp [State.guarded, h]

/-- The guard turns an operation into a no-op when the link is not up. -/
theorem State.guarded_inactive {s : State} (h : s.active = false) (op : State → Ran) : s.guarded op = s := by
  simp [State.guarded, h]

/-- A property that holds before an operation and that the operation keeps holds after its guarded form. -/
theorem State.guarded_keeps {P : State → Prop} {s : State} {op : State → Ran} (before : P s)
    (kept : s.active = true → P (op s).state) : P (s.guarded op) := by
  cases h : s.active with
  | true => rw [State.guarded_active h]; exact kept h
  | false => rw [State.guarded_inactive h]; exact before

/-! ## The inputs -/

/-- Taking a `Send` outcome writes the transport's input or counts a draw, and nothing else. -/
theorem State.takeSend_spec (s : State) :
    ∃ r rest n, s.takeSend = (r, { s with sends := rest, draws := n }) := by
  cases hs : s.sends with
  | nil => exact ⟨Config.freeSend s.draws, [], s.draws + 1, by cases s; simp only at hs; subst hs; rfl⟩
  | cons r rest => exact ⟨r, rest, s.draws, by simp [State.takeSend, hs, State.setSends]⟩

/-- The head of the transport's input decides the next `Send`. -/
theorem State.takeSend_cons {s : State} {r : SendResult} {rest : List SendResult} (h : s.sends = r :: rest) :
    s.takeSend = (r, s.setSends rest) := by
  simp [State.takeSend, h]

/-- Reading the inbound stream writes the panel's input or counts a draw, and nothing else. -/
theorem State.takeRx_spec (s : State) : ∃ b rest n, s.takeRx = (b, { s with rx := rest, draws := n }) := by
  cases hs : s.rx with
  | nil => exact ⟨Config.freeRx s.draws, [], s.draws + 1, by cases s; simp only at hs; subst hs; rfl⟩
  | cons b rest => exact ⟨b, rest, s.draws, by simp [State.takeRx, hs, State.setRx]⟩

/-- The head of the panel's input decides the next read. -/
theorem State.takeRx_cons {s : State} {b : Option Byte} {rest : List (Option Byte)} (h : s.rx = b :: rest) :
    s.takeRx = (b, s.setRx rest) := by
  simp [State.takeRx, h]

/-! ## `Recv` -/

/-- `Recv(n)` answers exactly `n` bytes or none, and writes only the panel's input and the draws. -/
theorem recv_spec (n : Nat) (s : State) :
    ∃ r rest k, recv n s = (r, { s with rx := rest, draws := k }) ∧ ∀ bytes, r = some bytes → bytes.length = n := by
  induction n generalizing s with
  | zero => exact ⟨some [], s.rx, s.draws, rfl, by rintro _ ⟨⟩; rfl⟩
  | succ n ih =>
    obtain ⟨b, rest, k, hb⟩ := s.takeRx_spec
    cases b with
    | none => exact ⟨none, rest, k, by simp [recv, hb], by simp⟩
    | some b =>
      obtain ⟨r, rest', k', hr, hlen⟩ := ih { s with rx := rest, draws := k }
      cases r with
      | none => exact ⟨none, rest', k', by simp [recv, hb, hr], by simp⟩
      | some bs => exact ⟨some (b :: bs), rest', k', by simp [recv, hb, hr], by simp [hlen bs rfl]⟩

/-- `Recv` takes the bytes that come next, in arrival order. -/
theorem recv_bytes (bytes : List Byte) {s : State} {rest : List (Option Byte)}
    (h : s.rx = bytes.map some ++ rest) : recv bytes.length s = (some bytes, s.setRx rest) := by
  induction bytes generalizing s with
  | nil => simp at h; simp [recv, State.setRx, ← h]
  | cons b bs ih =>
    have hb : s.takeRx = (some b, s.setRx (bs.map some ++ rest)) := State.takeRx_cons (by simpa using h)
    have hr : recv bs.length (s.setRx (bs.map some ++ rest)) = (some bs, s.setRx rest) := ih (by simp)
    simp [recv, hb, hr]

/-- A gap before the `n`-th byte is a shortfall: the bytes before it are consumed with it. -/
theorem recv_gap (bytes : List Byte) {n : Nat} {s : State} {rest : List (Option Byte)} (hn : bytes.length < n)
    (h : s.rx = bytes.map some ++ none :: rest) : recv n s = (none, s.setRx rest) := by
  induction bytes generalizing s n with
  | nil =>
    obtain ⟨n, rfl⟩ : ∃ k, n = k + 1 := ⟨n - 1, by simp at hn; omega⟩
    simp [recv, State.takeRx_cons (b := none) (by simpa using h)]
  | cons b bs ih =>
    obtain ⟨n, rfl⟩ : ∃ k, n = k + 1 := ⟨n - 1, by simp at hn; omega⟩
    have hb : s.takeRx = (some b, s.setRx (bs.map some ++ none :: rest)) := State.takeRx_cons (by simpa using h)
    have hr : recv n (s.setRx (bs.map some ++ none :: rest)) = (none, s.setRx rest) :=
      ih (by simpa using hn) (by simp)
    simp [recv, hb, hr]

/-! ## `Send` -/

/-- Everything a `Send` can do: it goes on with the whole frame in the history, or it stops with a part of it
delivered and either `TransportIOError` reported or a detach to be taken next; besides these it only consumes its
input. -/
theorem send_cases (frame : List Byte) (s : State) :
    ∃ rest n,
      send frame s = .on { s with sends := rest, draws := n, tx := s.tx ++ [⟨frame, frame.length⟩] } ∨
      (∃ k, send frame s = .stop { s with
        sends := rest, draws := n, tx := s.tx ++ [⟨frame, k % frame.length⟩]
        reports := s.reports ++ [.transportIOError] }) ∨
      ∃ k, send frame s = .stop { s with
        sends := rest, draws := n, tx := s.tx ++ [⟨frame, k % (frame.length + 1)⟩]
        events := .detach :: s.events } := by
  obtain ⟨r, rest, n, h⟩ := s.takeSend_spec
  cases r with
  | ok => exact ⟨rest, n, .inl (by simp [send, h, State.recordTx])⟩
  | fail k => exact ⟨rest, n, .inr (.inl ⟨k, by simp [send, h, State.recordTx, State.report]⟩)⟩
  | abandoned k =>
    exact ⟨rest, n, .inr (.inr ⟨k, by simp [send, h, State.recordTx, State.detachNext, State.setEvents]⟩)⟩

/-- A `Send` that the transport takes. -/
theorem send_ok {s : State} {rest : List SendResult} (h : s.sends = .ok :: rest) (frame : List Byte) :
    send frame s = .on ((s.setSends rest).recordTx frame frame.length) := by
  simp [send, State.takeSend_cons h]

/-- A `Send` that the transport fails. -/
theorem send_fail {s : State} {k : Nat} {rest : List SendResult} (h : s.sends = .fail k :: rest)
    (frame : List Byte) :
    send frame s = .stop (((s.setSends rest).recordTx frame (k % frame.length)).report .transportIOError) := by
  simp [send, State.takeSend_cons h]

/-- A `Send` that a detach abandons. -/
theorem send_abandoned {s : State} {k : Nat} {rest : List SendResult} (h : s.sends = .abandoned k :: rest)
    (frame : List Byte) :
    send frame s = .stop ((s.setSends rest).recordTx frame (k % (frame.length + 1))).detachNext := by
  simp [send, State.takeSend_cons h]

/-- Everything a response can do: it is stored, or a shortfall is reported; besides these it only consumes its
input. -/
theorem receive_cases (n : Nat) (store : List Byte → State → State) (s : State) :
    ∃ rest k,
      (∃ bytes, bytes.length = n ∧ receive n store s = .on (store bytes { s with rx := rest, draws := k })) ∨
      receive n store s = .stop { s with rx := rest, draws := k, reports := s.reports ++ [.transportIOError] } := by
  obtain ⟨r, rest, k, h, hlen⟩ := recv_spec n s
  cases r with
  | none => exact ⟨rest, k, .inr (by simp [receive, h, State.report])⟩
  | some bytes => exact ⟨rest, k, .inl ⟨bytes, hlen bytes rfl, by simp [receive, h]⟩⟩

/-! ## Registers a `Send` leaves alone -/

@[simp] theorem send_state_s0 (frame : List Byte) (s : State) : (send frame s).state.s0 = s.s0 := by
  obtain ⟨_, _, h | ⟨_, h⟩ | ⟨_, h⟩⟩ := send_cases frame s <;> simp [h]
@[simp] theorem send_state_s1 (frame : List Byte) (s : State) : (send frame s).state.s1 = s.s1 := by
  obtain ⟨_, _, h | ⟨_, h⟩ | ⟨_, h⟩⟩ := send_cases frame s <;> simp [h]
@[simp] theorem send_state_sw (frame : List Byte) (s : State) : (send frame s).state.sw = s.sw := by
  obtain ⟨_, _, h | ⟨_, h⟩ | ⟨_, h⟩⟩ := send_cases frame s <;> simp [h]
@[simp] theorem send_state_rot (frame : List Byte) (s : State) : (send frame s).state.rot = s.rot := by
  obtain ⟨_, _, h | ⟨_, h⟩ | ⟨_, h⟩⟩ := send_cases frame s <;> simp [h]
@[simp] theorem send_state_ackq (frame : List Byte) (s : State) : (send frame s).state.ackq = s.ackq := by
  obtain ⟨_, _, h | ⟨_, h⟩ | ⟨_, h⟩⟩ := send_cases frame s <;> simp [h]
@[simp] theorem send_state_actAddr (frame : List Byte) (s : State) : (send frame s).state.actAddr = s.actAddr := by
  obtain ⟨_, _, h | ⟨_, h⟩ | ⟨_, h⟩⟩ := send_cases frame s <;> simp [h]
@[simp] theorem send_state_invAddr (frame : List Byte) (s : State) : (send frame s).state.invAddr = s.invAddr := by
  obtain ⟨_, _, h | ⟨_, h⟩ | ⟨_, h⟩⟩ := send_cases frame s <;> simp [h]
@[simp] theorem send_state_firstExam (frame : List Byte) (s : State) : (send frame s).state.firstExam = s.firstExam := by
  obtain ⟨_, _, h | ⟨_, h⟩ | ⟨_, h⟩⟩ := send_cases frame s <;> simp [h]
@[simp] theorem send_state_firstDep (frame : List Byte) (s : State) : (send frame s).state.firstDep = s.firstDep := by
  obtain ⟨_, _, h | ⟨_, h⟩ | ⟨_, h⟩⟩ := send_cases frame s <;> simp [h]
@[simp] theorem send_state_haltMode (frame : List Byte) (s : State) : (send frame s).state.haltMode = s.haltMode := by
  obtain ⟨_, _, h | ⟨_, h⟩ | ⟨_, h⟩⟩ := send_cases frame s <;> simp [h]
@[simp] theorem send_state_updateCount (frame : List Byte) (s : State) : (send frame s).state.updateCount = s.updateCount := by
  obtain ⟨_, _, h | ⟨_, h⟩ | ⟨_, h⟩⟩ := send_cases frame s <;> simp [h]
@[simp] theorem send_state_rotaryCount (frame : List Byte) (s : State) : (send frame s).state.rotaryCount = s.rotaryCount := by
  obtain ⟨_, _, h | ⟨_, h⟩ | ⟨_, h⟩⟩ := send_cases frame s <;> simp [h]
@[simp] theorem send_state_attached (frame : List Byte) (s : State) : (send frame s).state.attached = s.attached := by
  obtain ⟨_, _, h | ⟨_, h⟩ | ⟨_, h⟩⟩ := send_cases frame s <;> simp [h]
@[simp] theorem send_state_connected (frame : List Byte) (s : State) : (send frame s).state.connected = s.connected := by
  obtain ⟨_, _, h | ⟨_, h⟩ | ⟨_, h⟩⟩ := send_cases frame s <;> simp [h]
@[simp] theorem send_state_dormant (frame : List Byte) (s : State) : (send frame s).state.dormant = s.dormant := by
  obtain ⟨_, _, h | ⟨_, h⟩ | ⟨_, h⟩⟩ := send_cases frame s <;> simp [h]
@[simp] theorem send_state_model (frame : List Byte) (s : State) : (send frame s).state.model = s.model := by
  obtain ⟨_, _, h | ⟨_, h⟩ | ⟨_, h⟩⟩ := send_cases frame s <;> simp [h]
@[simp] theorem send_state_transportKind (frame : List Byte) (s : State) : (send frame s).state.transportKind = s.transportKind := by
  obtain ⟨_, _, h | ⟨_, h⟩ | ⟨_, h⟩⟩ := send_cases frame s <;> simp [h]
@[simp] theorem send_state_lineConfig (frame : List Byte) (s : State) : (send frame s).state.lineConfig = s.lineConfig := by
  obtain ⟨_, _, h | ⟨_, h⟩ | ⟨_, h⟩⟩ := send_cases frame s <;> simp [h]
@[simp] theorem send_state_signals (frame : List Byte) (s : State) : (send frame s).state.signals = s.signals := by
  obtain ⟨_, _, h | ⟨_, h⟩ | ⟨_, h⟩⟩ := send_cases frame s <;> simp [h]
/-- The host's input stays, but for the detach that abandons the `Send`. -/
theorem send_state_events (frame : List Byte) (s : State) :
    (send frame s).state.events = s.events ∨ (send frame s).state.events = .detach :: s.events := by
  obtain ⟨_, _, h | ⟨_, h⟩ | ⟨_, h⟩⟩ := send_cases frame s <;> simp [h]
@[simp] theorem send_state_rx (frame : List Byte) (s : State) : (send frame s).state.rx = s.rx := by
  obtain ⟨_, _, h | ⟨_, h⟩ | ⟨_, h⟩⟩ := send_cases frame s <;> simp [h]

end Sys2Proof.Machine
end

