-- ==== Sys2Proof/Laws/Operations.lean ====
section
/-! SUPPORT. What the shared operations over the transport can do, each said once: the property each keeps is any
property that its elementary updates keep, and its result when the transport and the panel answer. Callers cite
these and never unfold the operations. -/

namespace Sys2Proof.Machine

/-! ## What an operation keeps -/

/-- `P` survives the sending of any frame that `ok` accepts: taking the transport's answer, the entry in the TX
history, the report of a failure, and the detach that abandons the `Send`. -/
structure KeptBySend (P : State → Prop) (ok : List Byte → Prop) : Prop where
  answered : ∀ t rest n, P t → P { t with sends := rest, draws := n }
  recorded : ∀ t frame k, ok frame → (frame ≠ [] → k ≤ frame.length) → P t → P (t.recordTx frame k)
  failed : ∀ t, P t → P (t.report .transportIOError)
  abandoned : ∀ t, P t → P t.detachNext

/-- `P` survives a read of the inbound stream. -/
def KeptByRead (P : State → Prop) : Prop := ∀ t rx n, P t → P { t with rx := rx, draws := n }

section
variable {P : State → Prop} {ok : List Byte → Prop} {s : State}

/-- A `Send` keeps what survives the sending of its frame. -/
theorem keep_send (k : KeptBySend P ok) {frame : List Byte} (hf : ok frame) (h : P s) :
    P (send frame s).state := by
  obtain ⟨rest, n, e | ⟨m, e⟩ | ⟨m, e⟩⟩ := send_cases frame s <;> rw [e]
  · exact k.recorded _ frame frame.length hf (fun _ => Nat.le_refl _) (k.answered s rest n h)
  · have hk : frame ≠ [] → m % frame.length ≤ frame.length := fun hne =>
      Nat.le_of_lt (Nat.mod_lt _ (List.length_pos_iff.mpr hne))
    exact k.failed _ (k.recorded _ frame _ hf hk (k.answered s rest n h))
  · exact k.abandoned _ (k.recorded _ frame _ hf (fun _ => Nat.le_of_lt_succ (Nat.mod_lt _ (Nat.succ_pos _)))
      (k.answered s rest n h))

/-- An acknowledge keeps what survives its frame and a write of `ACKQ`. -/
theorem keep_acknowledge (k : KeptBySend P ok) (ack : ∀ t v, P t → P (t.setAckq v)) {a : Ack}
    (hf : ok (frameAck a)) (h : P s) : P (acknowledge a s).state :=
  Ran.andThen_keeps (keep_send k hf (ack _ _ h)) fun _ hs => ack _ _ hs

/-- A response keeps what survives a read, the report of a shortfall, and its store. -/
theorem keep_receive (k : KeptBySend P ok) (read : KeptByRead P) {n : Nat} {store : List Byte → State → State}
    (stored : ∀ bytes t, P t → P (store bytes t)) (h : P s) : P (receive n store s).state := by
  obtain ⟨rest, m, ⟨b, _, e⟩ | e⟩ := receive_cases n store s <;> rw [e]
  · exact stored _ _ (read _ _ _ h)
  · exact k.failed _ (read s rest m h)

/-- The switch query keeps what survives its frame, a read and a write of `SW`. -/
theorem keep_querySwitches (k : KeptBySend P ok) (read : KeptByRead P) (sw : ∀ t v, P t → P (t.setSw v))
    (hf : ok frameQ) (h : P s) : P (querySwitches s).state := by
  refine Ran.andThen_keeps (keep_send k hf h) fun s hs => keep_receive k read (fun bytes t ht => ?_) hs
  unfold storeSnapshot
  split
  · exact sw _ _ ht
  · exact ht

/-- The rotary query keeps what survives its frame, a read and a write of `ROT`. -/
theorem keep_queryRotary (k : KeptBySend P ok) (read : KeptByRead P) (rot : ∀ t v, P t → P (t.setRot v))
    (hf : ok frameR) (h : P s) : P (queryRotary s).state := by
  refine Ran.andThen_keeps (keep_send k hf h) fun s hs => keep_receive k read (fun bytes t ht => ?_) hs
  unfold storeRotary
  split
  · exact rot _ _ ht
  · exact ht

/-- A write of the address-error bit keeps what any write of the two status fields keeps. -/
theorem keep_driveAddrErr {c : Config} (status : ∀ t v0 v1, P t → P { t with s0 := v0, s1 := v1 }) (h : P s)
    (on : Bool) : P (s.driveAddrErr c on) := by
  obtain ⟨v0, v1, e⟩ := s.driveAddrErr_only c on
  rw [e]
  exact status _ _ _ h

/-! ## What a console command and a tick keep

The hypotheses name the updates each makes; `ok` accepts the frames it sends. -/

variable {c : Config}

/-- The invalid path keeps what its four writes keep. -/
theorem keep_invalidPath (inv : ∀ t v, P t → P (t.setInvAddr v)) (sig : ∀ t x, P t → P (t.signal x))
    (err : ∀ t on, P t → P (t.driveAddrErr c on)) (rep : ∀ t, P t → P (t.report .invalidAddress)) (h : P s) :
    P (invalidPath c s) := by
  unfold invalidPath
  refine rep _ (err _ _ ?_)
  split
  · exact sig _ _ (inv _ _ h)
  · exact inv _ _ h

/-- Load-address (43_console_commands.md R145). -/
theorem keep_runLoadAddress (k : KeptBySend P ok) (read : KeptByRead P) (sw : ∀ t v, P t → P (t.setSw v))
    (addr : ∀ t, P t → P (t.setActAddr (t.switchAddr c))) (inv : ∀ t v, P t → P (t.setInvAddr v))
    (exam : ∀ t v, P t → P (t.setFirstExam v)) (dep : ∀ t v, P t → P (t.setFirstDep v))
    (ack : ∀ t v, P t → P (t.setAckq v)) (okQ : ok frameQ) (okA : ∀ w l a, ok (frameA w l a))
    (okC : ok (frameAck c.ackLoad)) (okF : ∀ a b, ok (frameF a b)) (h : P s) : P (runLoadAddress c s).state := by
  refine Ran.andThen_keeps (keep_querySwitches k read sw okQ h) fun s hs => ?_
  have hl : P (loadSwitchAddr c s) := dep _ _ (exam _ _ (inv _ _ (addr _ hs)))
  refine Ran.andThen_keeps (keep_send k (okA _ _ _) hl) fun s hs => ?_
  exact Ran.andThen_keeps (keep_acknowledge k ack okC hs) fun s hs => keep_send k (okF _ _) hs

/-- Examine up to its frames (43_console_commands.md R146). -/
theorem keep_examineStep (sig : ∀ t x, P t → P (t.signal x))
    (addr : ∀ t v, v ≤ (c.profile t.model).addressMask → P t → P (t.setActAddr v))
    (inv : ∀ t v, P t → P (t.setInvAddr v)) (exam : ∀ t v, P t → P (t.setFirstExam v))
    (dep : c.crossReset = true → ∀ t v, P t → P (t.setFirstDep v))
    (err : ∀ t on, P t → P (t.driveAddrErr c on)) (rep : ∀ t, P t → P (t.report .invalidAddress)) (h : P s) :
    P (examineStep c s) := by
  unfold examineStep
  split
  · exact keep_invalidPath inv sig err rep h
  · dsimp only
    split
    · rename_i hin
      have h' := exam _ false (addr s _ (of_decide_eq_true hin) h)
      refine sig _ _ ?_
      split
      · exact dep ‹_› _ _ h'
      · exact h'
    · exact keep_invalidPath inv sig err rep h

/-- Examine (43_console_commands.md R146). -/
theorem keep_runExamine (k : KeptBySend P ok) (sig : ∀ t x, P t → P (t.signal x))
    (addr : ∀ t v, v ≤ (c.profile t.model).addressMask → P t → P (t.setActAddr v))
    (inv : ∀ t v, P t → P (t.setInvAddr v)) (exam : ∀ t v, P t → P (t.setFirstExam v))
    (dep : c.crossReset = true → ∀ t v, P t → P (t.setFirstDep v))
    (err : ∀ t on, P t → P (t.driveAddrErr c on)) (rep : ∀ t, P t → P (t.report .invalidAddress))
    (ack : ∀ t v, P t → P (t.setAckq v)) (okA : ∀ w l a, ok (frameA w l a)) (okC : ok (frameAck c.ackExam))
    (okF : ∀ a b, ok (frameF a b)) (h : P s) : P (runExamine c s).state := by
  have hx := keep_examineStep sig addr inv exam dep err rep h
  refine Ran.andThen_keeps (keep_send k (okA _ _ _) hx) fun s hs => ?_
  exact Ran.andThen_keeps (keep_acknowledge k ack okC hs) fun s hs => keep_send k (okF _ _) hs

/-- Deposit (43_console_commands.md R147, R149). The datum of the signal and the frame are any. -/
theorem keep_runDeposit (k : KeptBySend P ok) (read : KeptByRead P) (model : ∀ t, P t → t.model = s.model)
    (sw : ∀ t v, P t → P (t.setSw v)) (sig : ∀ t x, P t → P (t.signal x))
    (addr : ∀ t v, v ≤ (c.profile t.model).addressMask → P t → P (t.setActAddr v))
    (inv : ∀ t v, P t → P (t.setInvAddr v)) (dep : ∀ t v, P t → P (t.setFirstDep v))
    (exam : c.crossReset = true → ∀ t v, P t → P (t.setFirstExam v))
    (err : ∀ t on, P t → P (t.driveAddrErr c on)) (rep : ∀ t, P t → P (t.report .invalidAddress))
    (rom : ∀ t, P t → P (t.report .bootRomProtected)) (ack : ∀ t v, P t → P (t.setAckq v)) (okQ : ok frameQ)
    (okB : ∀ w l a d, ok (frameB w l a d)) (okC : ok (frameAck c.ackDepo)) (okF : ∀ a b, ok (frameF a b))
    (h : P s) : P (runDeposit c s).state := by
  refine Ran.andThen_keeps ?_ fun s hs => keep_send k (okF _ _) hs
  unfold depositStep
  split
  · exact keep_invalidPath inv sig err rep h
  · dsimp only
    split
    · rename_i hin
      split
      · exact rom _ h
      · refine Ran.andThen_keeps (keep_querySwitches k read sw okQ h) fun u hu => ?_
        have hle : s.target c s.firstDep ≤ (c.profile u.model).addressMask := by
          rw [model u hu]
          exact of_decide_eq_true hin
        have h' := dep _ false (addr u _ hle hu)
        refine Ran.andThen_keeps (keep_send k (okB _ _ _ _) (sig _ _ ?_)) fun s hs =>
          keep_acknowledge k ack okC hs
        split
        · exact exam ‹_› _ _ h'
        · exact h'
    · exact keep_invalidPath inv sig err rep h

/-- Continue (43_console_commands.md R152). -/
theorem keep_runContinue (k : KeptBySend P ok) (sig : ∀ t x, P t → P (t.signal x))
    (err : ∀ t on, P t → P (t.driveAddrErr c on)) (okF : ∀ a b, ok (frameF a b)) (h : P s) :
    P (runContinue c s).state := by
  unfold runContinue
  split
  · exact keep_send k (okF _ _) (sig _ _ h)
  · exact keep_send k (okF _ _) (err _ _ (sig _ _ h))

/-- Start (43_console_commands.md R151). -/
theorem keep_runStart (k : KeptBySend P ok) (sig : ∀ t x, P t → P (t.signal x))
    (mode : ∀ t, P t → P (t.setHaltMode .run)) (okF : ∀ a b, ok (frameF a b)) (h : P s) :
    P (runStart s).state := by
  refine keep_send k (okF _ _) (mode _ ?_)
  split
  · exact sig _ _ h
  · exact sig _ _ h

/-- HALT key down (43_console_commands.md R153). -/
theorem keep_runHaltDown (k : KeptBySend P ok) (mode : ∀ t, P t → P (t.setHaltMode .haltDown))
    (okF : ∀ a b, ok (frameF a b)) (h : P s) : P (runHaltDown s).state := keep_send k (okF _ _) (mode _ h)

/-- HALT key up (43_console_commands.md R154). -/
theorem keep_runHaltUp (k : KeptBySend P ok) (mode : ∀ t, P t → P (t.setHaltMode .enableIdle))
    (ack : ∀ t, P t → P (t.setAckq none)) (okI : c.eEmitsClearAll = true → ok frameClearI)
    (okF : ∀ a b, ok (frameF a b)) (h : P s) : P (runHaltUp c s).state := by
  refine Ran.andThen_keeps ?_ fun s hs => keep_send k (okF _ _) hs
  split
  · exact keep_send k (okI ‹_›) (ack _ (mode _ h))
  · exact ack _ (mode _ h)

/-- The frames of a tick (44_scheduler_cadence.md R172). -/
theorem keep_displayFrames (k : KeptBySend P ok) (okB : ∀ w l a d, ok (frameB w l a d))
    (okF : ∀ a b, ok (frameF a b)) (okU : c.statusTick ≠ .bThenF → ∀ w l a d x y, ok (frameU w l a d x y)) (a : Addr)
    (d : Datum) (fifth : Bool) (h : P s) : P (displayFrames c a d fifth s).state := by
  unfold displayFrames
  split
  · refine Ran.andThen_keeps (keep_send k (okB _ _ _ _) h) fun s hs => ?_
    split
    · exact keep_send k (okF _ _) hs
    · exact hs
  · rename_i hc
    split
    · exact keep_send k (okU (by simp [hc]) _ _ _ _ _ _) h
    · exact keep_send k (okB _ _ _ _) h
  · rename_i hc
    refine Ran.andThen_keeps (keep_send k (okB _ _ _ _) h) fun s hs => ?_
    split
    · exact keep_send k (okU (by simp [hc]) _ _ _ _ _ _) hs
    · exact hs

/-- The rotary step of a fifth tick (44_scheduler_cadence.md R173). -/
theorem keep_rotaryStep (k : KeptBySend P ok) (read : KeptByRead P) (rot : ∀ t v, P t → P (t.setRot v))
    (zero : ∀ t, P t → P (t.setRotaryCount 0))
    (count : ∀ t, t.rotaryCount + 1 ≠ c.rotaryThreshold → P t → P (t.setRotaryCount (t.rotaryCount + 1)))
    (okR : ok frameR) (h : P s) : P (rotaryStep c s).state := by
  unfold rotaryStep
  split
  · dsimp only
    split
    · exact keep_queryRotary k read rot okR (zero _ h)
    · exact zero _ h
  · exact count _ ‹_› h

/-- The HALT poll (44_scheduler_cadence.md R174): an accepted byte runs its command, which `cmd` says is kept. -/
theorem keep_haltPoll (read : KeptByRead P)
    (cmd : ∀ b t, c.tickPollAccept b = true → P t → P (runSymbol c (decodeSymbol b) t).state) (h : P s) :
    P (haltPoll c s).state := by
  obtain ⟨b, rest, n, e⟩ := s.takeRx_spec
  have hr := read s rest n h
  unfold haltPoll State.pollRecv
  rw [e]
  cases b with
  | none => exact hr
  | some b =>
    dsimp only
    split
    · exact cmd _ _ ‹_› hr
    · exact hr

/-- A tick (44_scheduler_cadence.md R170). -/
theorem keep_runTick (k : KeptBySend P ok) (read : KeptByRead P) (rot : ∀ t v, P t → P (t.setRot v))
    (zero : ∀ t, P t → P (t.setUpdateCount 0))
    (count : ∀ t, t.updateCount = s.updateCount → s.updateCount + 1 ≠ c.updateThreshold → P t →
      P (t.setUpdateCount (s.updateCount + 1)))
    (rzero : ∀ t, P t → P (t.setRotaryCount 0))
    (rcount : ∀ t, t.rotaryCount + 1 ≠ c.rotaryThreshold → P t → P (t.setRotaryCount (t.rotaryCount + 1)))
    (cmd : ∀ b t, c.tickPollAccept b = true → P t → P (runSymbol c (decodeSymbol b) t).state)
    (okB : ∀ w l a d, ok (frameB w l a d)) (okF : ∀ a b, ok (frameF a b))
    (okU : c.statusTick ≠ .bThenF → ∀ w l a d x y, ok (frameU w l a d x y)) (okR : ok frameR) (a : Addr)
    (d : Datum) (h : P s) : P (runTick c a d s).state := by
  have k' : KeptBySend (fun t => P t ∧ t.updateCount = s.updateCount) ok :=
    ⟨fun _ _ _ h => ⟨k.answered _ _ _ h.1, h.2⟩, fun _ _ _ hf hk h => ⟨k.recorded _ _ _ hf hk h.1, h.2⟩,
      fun _ h => ⟨k.failed _ h.1, h.2⟩, fun _ h => ⟨k.abandoned _ h.1, h.2⟩⟩
  have hd := keep_displayFrames (c := c) k' okB okF okU a d (decide (s.updateCount + 1 = c.updateThreshold)) ⟨h, rfl⟩
  unfold runTick
  dsimp only
  cases hr : displayFrames c a d (decide (s.updateCount + 1 = c.updateThreshold)) s with
  | stop u => rw [hr] at hd; exact hd.1
  | on u =>
    rw [hr] at hd
    obtain ⟨hu, hn⟩ := hd
    rw [Ran.state_on] at hu hn
    rw [Ran.andThen_on]
    split
    · exact Ran.andThen_keeps (keep_rotaryStep k read rot rzero rcount okR (zero _ hu)) fun t ht =>
        keep_haltPoll read cmd ht
    · rename_i hne
      rw [hn]
      exact count u hn (by simpa using hne) hu

end

/-! ## Results, when the transport takes the frames and the panel answers -/

/-- A `Send` adds exactly one frame to the history. -/
theorem send_tx_one (frame : List Byte) (s : State) : ∃ k, (send frame s).state.tx = s.tx ++ [⟨frame, k⟩] := by
  obtain ⟨rest, n, h | ⟨k, h⟩ | ⟨k, h⟩⟩ := send_cases frame s <;> rw [h] <;> exact ⟨_, rfl⟩

/-- The switch query with its five bytes. -/
theorem querySwitches_ok {s : State} {rest : List SendResult} {b0 b1 b2 b3 b4 : Byte} {rx : List (Option Byte)}
    (hs : s.sends = .ok :: rest) (hr : s.rx = some b0 :: some b1 :: some b2 :: some b3 :: some b4 :: rx) :
    querySwitches s = .on ((((s.setSends rest).recordTx frameQ 1).setRx rx).setSw ⟨b0, b1, b2, b3, b4⟩) := by
  have h := recv_bytes [b0, b1, b2, b3, b4] (s := (s.setSends rest).recordTx frameQ 1) (rest := rx)
    (by simpa using hr)
  simp only [List.length_cons, List.length_nil] at h
  have hf : frameQ.length = 1 := rfl
  simp [querySwitches, send_ok hs, receive, hf, h, storeSnapshot]

/-- The rotary query with its byte. -/
theorem queryRotary_ok {s : State} {rest : List SendResult} {b : Byte} {rx : List (Option Byte)}
    (hs : s.sends = .ok :: rest) (hr : s.rx = some b :: rx) :
    queryRotary s = .on ((((s.setSends rest).recordTx frameR 1).setRx rx).setRot b) := by
  have h := recv_bytes [b] (s := (s.setSends rest).recordTx frameR 1) (rest := rx) (by simpa using hr)
  simp only [List.length_cons, List.length_nil] at h
  have hf : frameR.length = 1 := rfl
  simp [queryRotary, send_ok hs, receive, hf, h, storeRotary]

/-- An acknowledge that the transport takes. -/
theorem acknowledge_ok {s : State} {rest : List SendResult} (hs : s.sends = .ok :: rest) (k : Ack) :
    acknowledge k s = .on ((((s.setAckq (some k)).setSends rest).recordTx (frameAck k) 3).setAckq none) := by
  have h : (s.setAckq (some k)).sends = .ok :: rest := hs
  simp only [acknowledge, send_ok h, Ran.andThen_on]
  rfl

/-! ## The invalid path and the address-error bit, as one update -/

/-- Everything a write of the address-error bit does on the hardware. -/
theorem State.driveAddrErr_effect (s : State) (on : Bool) :
    ∃ v0 v1, s.driveAddrErr Config.hw on = { s with s0 := v0, s1 := v1 } ∧
      (s.model.addrErrBit = true →
        { s with s0 := v0, s1 := v1 }.statusBit Config.hw.layout.addrErr = on ∧
        ∀ p, p ≠ Config.hw.layout.addrErr → { s with s0 := v0, s1 := v1 }.statusBit p = s.statusBit p) ∧
      (s.model.addrErrBit = false → v0 = s.s0 ∧ v1 = s.s1) := by
  cases hm : s.model.addrErrBit with
  | true =>
    obtain ⟨v0, v1, h⟩ := s.writeBit_only Config.hw.layout.addrErr on
    refine ⟨v0, v1, by simp [State.driveAddrErr, hm, h], fun _ => ?_, by simp⟩
    rw [← h]
    exact ⟨by simp, fun p hp => State.statusBit_writeBit_other _ _ hp⟩
  | false => exact ⟨s.s0, s.s1, by simp [State.driveAddrErr, hm], by simp, by simp⟩

/-- The invalid path as one update of the state: `inv_addr`, one report, the freeze signal on the models that
freeze, and the status fields as a set address-error bit leaves them (43_console_commands.md R148). -/
theorem invalidPath_effect (s : State) :
    ∃ v0 v1,
      invalidPath Config.hw s = { s with
        s0 := v0, s1 := v1, invAddr := true, reports := s.reports ++ [.invalidAddress]
        signals := s.signals ++ if s.model.freezeOnInvalid then [.freeze] else [] } ∧
      (s.model.addrErrBit = true →
        { s with s0 := v0, s1 := v1 }.statusBit Config.hw.layout.addrErr = true ∧
        ∀ p, p ≠ Config.hw.layout.addrErr → { s with s0 := v0, s1 := v1 }.statusBit p = s.statusBit p) ∧
      (s.model.addrErrBit = false → v0 = s.s0 ∧ v1 = s.s1) := by
  cases hf : s.model.freezeOnInvalid with
  | true =>
    obtain ⟨v0, v1, h, h1, h2⟩ := ((s.setInvAddr true).signal .freeze).driveAddrErr_effect true
    refine ⟨v0, v1, ?_, h1, h2⟩
    simp only [invalidPath, State.setInvAddr_model, Config.profile_freezeOnInvalid, hf, if_true, h]
    rfl
  | false =>
    obtain ⟨v0, v1, h, h1, h2⟩ := (s.setInvAddr true).driveAddrErr_effect true
    refine ⟨v0, v1, ?_, h1, h2⟩
    simp only [invalidPath, State.setInvAddr_model, Config.profile_freezeOnInvalid, hf, Bool.false_eq_true,
      if_false, h, List.append_nil]
    rfl

/-! ## The paths of examine and deposit, and of a fifth tick -/

/-- Examine moves when the address is valid and the target in range (43_console_commands.md R146). -/
theorem examineStep_moves {c : Config} {s : State} (hi : s.invAddr = false)
    (ht : s.inRange c (s.target c s.firstExam) = true) :
    examineStep c s = examineAt c (s.target c s.firstExam) s := by
  simp [examineStep, hi, ht]

/-- Examine takes the invalid path otherwise (43_console_commands.md R146, R148). -/
theorem examineStep_invalid {c : Config} {s : State}
    (h : s.invAddr = true ∨ s.inRange c (s.target c s.firstExam) = false) :
    examineStep c s = invalidPath c s := by
  rcases h with h | h <;> simp [examineStep, h]

/-- Deposit goes on to its query when the address is valid, in range and outside the ROM windows
(43_console_commands.md R147). -/
theorem depositStep_moves {c : Config} {s : State} (hi : s.invAddr = false)
    (ht : s.inRange c (s.target c s.firstDep) = true) (hr : s.inRomWindow c (s.target c s.firstDep) = false) :
    depositStep c s = (querySwitches s).andThen (depositAt c (s.target c s.firstDep)) := by
  simp [depositStep, hi, ht, hr]

/-- Deposit into a ROM window is only reported (43_console_commands.md R149). -/
theorem depositStep_rom {c : Config} {s : State} (hi : s.invAddr = false)
    (ht : s.inRange c (s.target c s.firstDep) = true) (hr : s.inRomWindow c (s.target c s.firstDep) = true) :
    depositStep c s = .on (s.report .bootRomProtected) := by
  simp [depositStep, hi, ht, hr]

/-- Deposit takes the invalid path otherwise (43_console_commands.md R147, R148). -/
theorem depositStep_invalid {c : Config} {s : State}
    (h : s.invAddr = true ∨ s.inRange c (s.target c s.firstDep) = false) :
    depositStep c s = .on (invalidPath c s) := by
  rcases h with h | h <;> simp [depositStep, h]

/-- Off its threshold the second counter only counts (44_scheduler_cadence.md R173). -/
theorem rotaryStep_counts {c : Config} {s : State} (h : s.rotaryCount + 1 ≠ c.rotaryThreshold) :
    rotaryStep c s = .on (s.setRotaryCount (s.rotaryCount + 1)) := by
  simp [rotaryStep, h]

/-- On its threshold it cycles, and queries the knobs of a model that has them (44_scheduler_cadence.md R173). -/
theorem rotaryStep_cycles {c : Config} {s : State} (h : s.rotaryCount + 1 = c.rotaryThreshold) :
    rotaryStep c s =
      if c.rotary s.model = true then queryRotary (s.setRotaryCount 0) else .on (s.setRotaryCount 0) := by
  rw [rotaryStep, if_pos h]
  rfl

/-- The HALT poll by what it finds (44_scheduler_cadence.md R174). -/
theorem haltPoll_cons {c : Config} {s : State} {x : Option Byte} {rest : List (Option Byte)} (h : s.rx = x :: rest) :
    haltPoll c s =
      match x with
      | none => .on (s.setRx rest)
      | some b =>
        if c.tickPollAccept b = true then runSymbol c (decodeSymbol b) (s.setRx rest) else .on (s.setRx rest) := by
  cases x <;> simp [haltPoll, State.pollRecv, State.takeRx_cons h]

end Sys2Proof.Machine
end

