-- ==== Sys2Proof/Laws/Machine.lean ====
section
/-! SUPPORT. What the whole machine can do, said once: a property that every elementary update keeps is kept by
every operation, and by every step but the three inputs that are no operation. -/

namespace Sys2Proof.Machine

/-- A frame of the codec: one of the ten tags first, 1 to 8 bytes (30_encoding.md R62, 20_memory.md R52). -/
def CodecFrame (frame : List Byte) : Prop :=
  (∃ tag payload, frame = tag :: payload ∧ tag ∈ frameTags) ∧ frame.length ≤ 8

theorem codecFrame_frameA (w : Width) (l : AddrLen) (a : Addr) : CodecFrame (frameA w l a) :=
  ⟨⟨_, _, rfl, by decide⟩, by cases l <;> simp [frameA, addrBytes]⟩
theorem codecFrame_frameD (d : Datum) : CodecFrame (frameD d) :=
  ⟨⟨_, _, rfl, by decide⟩, by simp [frameD, dataBytes]⟩
theorem codecFrame_frameB (w : Width) (l : AddrLen) (a : Addr) (d : Datum) : CodecFrame (frameB w l a d) :=
  ⟨⟨_, _, rfl, by decide⟩, by cases l <;> simp [frameB, addrBytes, dataBytes]⟩
theorem codecFrame_frameU (w : Width) (l : AddrLen) (a : Addr) (d : Datum) (x y : Byte) :
    CodecFrame (frameU w l a d x y) :=
  ⟨⟨_, _, rfl, by decide⟩, by cases l <;> simp [frameU, addrBytes, dataBytes]⟩
theorem codecFrame_frameF (x y : Byte) : CodecFrame (frameF x y) := ⟨⟨_, _, rfl, by decide⟩, by simp [frameF]⟩
theorem codecFrame_frameQ : CodecFrame frameQ := ⟨⟨_, _, rfl, by decide⟩, by simp [frameQ]⟩
theorem codecFrame_frameR : CodecFrame frameR := ⟨⟨_, _, rfl, by decide⟩, by simp [frameR]⟩
theorem codecFrame_frameAck (k : Ack) : CodecFrame (frameAck k) := ⟨⟨_, _, rfl, by decide⟩, by simp [frameAck]⟩
theorem codecFrame_frameClearI : CodecFrame frameClearI := ⟨⟨_, _, rfl, by decide⟩, by simp [frameClearI]⟩
theorem codecFrame_frameClearA : CodecFrame frameClearA := ⟨⟨_, _, rfl, by decide⟩, by simp [frameClearA]⟩

/-- `P` survives every elementary update an operation of the block makes. -/
structure KeptByUpdates (P : State → Prop) : Prop extends KeptBySend P CodecFrame where
  read : KeptByRead P
  model : ∀ t u, P t → P u → t.model = u.model
  sw : ∀ t v, P t → P (t.setSw v)
  rot : ∀ t v, P t → P (t.setRot v)
  ackq : ∀ t v, P t → P (t.setAckq v)
  addr : ∀ t v, v ≤ (Config.hw.profile t.model).addressMask → P t → P (t.setActAddr v)
  inv : ∀ t v, P t → P (t.setInvAddr v)
  exam : ∀ t v, P t → P (t.setFirstExam v)
  dep : ∀ t v, P t → P (t.setFirstDep v)
  mode : ∀ t v, P t → P (t.setHaltMode v)
  zero : ∀ t, P t → P (t.setUpdateCount 0)
  count : ∀ t, t.updateCount + 1 ≠ Config.hw.updateThreshold → P t → P (t.setUpdateCount (t.updateCount + 1))
  rzero : ∀ t, P t → P (t.setRotaryCount 0)
  rcount : ∀ t, t.rotaryCount + 1 ≠ Config.hw.rotaryThreshold → P t → P (t.setRotaryCount (t.rotaryCount + 1))
  sig : ∀ t x, P t → P (t.signal x)
  rep : ∀ t k, P t → P (t.report k)
  err : ∀ t on, P t → P (t.driveAddrErr Config.hw on)
  bits : ∀ t f flag on, t.flagBreaks Config.hw f flag = false → P t → P (t.driveStatus f flag on)
  ring : ∀ t level, P t → P (t.applyRing Config.hw level)
  mmu : ∀ t e18 e22, P t → P (t.applyMmu Config.hw e18 e22)

section
variable {P : State → Prop} {s t : State}

/-- Every console command keeps what the updates keep. -/
theorem keep_runSymbol (k : KeptByUpdates P) (sym : Symbol) (h : P s) : P (runSymbol Config.hw sym s).state := by
  have b := k.toKeptBySend
  cases sym with
  | noCommand => exact h
  | haltDown => exact keep_runHaltDown b (fun t => k.mode t _) codecFrame_frameF h
  | haltUp =>
    exact keep_runHaltUp (c := Config.hw) b (fun t => k.mode t _) (fun t => k.ackq t _) (fun _ => codecFrame_frameClearI)
      codecFrame_frameF h
  | continue_ => exact keep_runContinue b k.sig k.err codecFrame_frameF h
  | deposit =>
    exact keep_runDeposit b k.read (fun t ht => k.model t s ht h) k.sw k.sig k.addr k.inv k.dep (fun _ => k.exam)
      k.err (fun t => k.rep t _) (fun t => k.rep t _) k.ackq codecFrame_frameQ codecFrame_frameB
      (codecFrame_frameAck _) codecFrame_frameF h
  | loadAddress =>
    refine keep_runLoadAddress b k.read k.sw (fun t => k.addr t _ ?_) k.inv k.exam k.dep k.ackq codecFrame_frameQ
      codecFrame_frameA (codecFrame_frameAck _) codecFrame_frameF h
    rw [State.switchAddr, BitVec.le_def, BitVec.toNat_and]
    exact Nat.and_le_right
  | start => exact keep_runStart b k.sig (fun t => k.mode t _) codecFrame_frameF h
  | examine =>
    exact keep_runExamine b k.sig k.addr k.inv k.exam (fun _ => k.dep) k.err (fun t => k.rep t _) k.ackq
      codecFrame_frameA (codecFrame_frameAck _) codecFrame_frameF h
  | ignored => exact h

/-- Every operation keeps what the updates keep. -/
theorem keep_exec (k : KeptByUpdates P) {i : Instr} (e : exec i s = .next t) (h : P s) : P t := by
  have b := k.toKeptBySend
  cases i with
  | setBit f flag on =>
    simp only [exec, execSetBit] at e
    split at e
    · split at e
      · cases e
      · injection e with e
        exact e ▸ k.bits _ _ _ _ (by simp_all) h
    · injection e with e
      exact e ▸ h
  | tick a d =>
    injection e with e
    refine e ▸ State.guarded_keeps h fun _ => keep_runTick b k.read k.rot k.zero (fun t hn hne ht => ?_) k.rzero
      k.rcount (fun x t _ ht => keep_runSymbol k _ ht) codecFrame_frameB codecFrame_frameF
      (fun _ => codecFrame_frameU) codecFrame_frameR a d h
    rw [← hn] at hne ⊢
    exact k.count t hne ht
  | sendQ =>
    injection e with e
    exact e ▸ State.guarded_keeps h fun _ => keep_querySwitches b k.read k.sw codecFrame_frameQ h
  | sendR =>
    injection e with e
    exact e ▸ State.guarded_keeps h fun _ => keep_queryRotary b k.read k.rot codecFrame_frameR h
  | sendAck p m =>
    injection e with e
    exact e ▸ State.guarded_keeps h fun _ => keep_acknowledge b k.ackq (codecFrame_frameAck _) h
  | setRing level => injection e with e; exact e ▸ State.guarded_keeps h fun _ => k.ring _ _ h
  | setMmu e18 e22 => injection e with e; exact e ▸ State.guarded_keeps h fun _ => k.mmu _ _ _ h
  | sendA a => injection e with e; exact e ▸ State.guarded_keeps h fun _ => keep_send b (codecFrame_frameA _ _ _) h
  | sendD d => injection e with e; exact e ▸ State.guarded_keeps h fun _ => keep_send b (codecFrame_frameD _) h
  | sendB a d =>
    injection e with e
    exact e ▸ State.guarded_keeps h fun _ => keep_send b (codecFrame_frameB _ _ _ _) h
  | sendU a d =>
    injection e with e
    exact e ▸ State.guarded_keeps h fun _ => keep_send b (codecFrame_frameU _ _ _ _ _ _) h
  | sendF => injection e with e; exact e ▸ State.guarded_keeps h fun _ => keep_send b (codecFrame_frameF _ _) h
  | sendClearI => injection e with e; exact e ▸ State.guarded_keeps h fun _ => keep_send b codecFrame_frameClearI h
  | sendClearA => injection e with e; exact e ▸ State.guarded_keeps h fun _ => keep_send b codecFrame_frameClearA h
  | cmdNul => injection e with e; exact e ▸ State.guarded_keeps h fun _ => keep_runSymbol k _ h
  | cmdH => injection e with e; exact e ▸ State.guarded_keeps h fun _ => keep_runSymbol k _ h
  | cmdE => injection e with e; exact e ▸ State.guarded_keeps h fun _ => keep_runSymbol k _ h
  | cmdC => injection e with e; exact e ▸ State.guarded_keeps h fun _ => keep_runSymbol k _ h
  | cmdD => injection e with e; exact e ▸ State.guarded_keeps h fun _ => keep_runSymbol k _ h
  | cmdL => injection e with e; exact e ▸ State.guarded_keeps h fun _ => keep_runSymbol k _ h
  | cmdS => injection e with e; exact e ▸ State.guarded_keeps h fun _ => keep_runSymbol k _ h
  | cmdX => injection e with e; exact e ▸ State.guarded_keeps h fun _ => keep_runSymbol k _ h
  | cmdIgn x => injection e with e; exact e ▸ State.guarded_keeps h fun _ => keep_runSymbol k _ h

end

/-! ## The host's input -/

/-- A running operation has left the host's input as in `s`, but for the detach that stopped it
(70_reset_and_hazards.md R201). -/
def Ran.EventsKept (s : State) : Ran → Prop
  | .on t => t.events = s.events
  | .stop t => KeepsEvents s t

theorem Ran.EventsKept.state {s : State} {r : Ran} (h : r.EventsKept s) : KeepsEvents s r.state := by
  cases r with
  | on t => exact .inl h
  | stop t => exact h

/-- Two parts of an operation keep the host's input when each does. -/
theorem Ran.EventsKept.andThen {s : State} {r : Ran} {f : State → Ran} (first : r.EventsKept s)
    (second : ∀ u, (f u).EventsKept u) : (r.andThen f).EventsKept s := by
  cases r with
  | stop t => exact first
  | on t =>
    have h := second t
    rw [Ran.andThen_on]
    cases hf : f t with
    | on u => rw [hf] at h; exact h.trans first
    | stop u =>
      rw [hf, Ran.EventsKept, KeepsEvents, first] at h
      exact h

/-- The part an operation goes on with may be another state, with the same host's input. -/
theorem Ran.EventsKept.of_eq {s t : State} {r : Ran} (e : t.events = s.events) (h : r.EventsKept t) :
    r.EventsKept s := by
  cases r with
  | on u => exact h.trans e
  | stop u =>
    rw [Ran.EventsKept, KeepsEvents, e] at h
    exact h

theorem send_eventsKept (frame : List Byte) (s : State) : (send frame s).EventsKept s := by
  obtain ⟨rest, n, h | ⟨k, h⟩ | ⟨k, h⟩⟩ := send_cases frame s <;> rw [h]
  · rfl
  · exact .inl rfl
  · exact .inr rfl

theorem receive_eventsKept {n : Nat} {store : List Byte → State → State}
    (stored : ∀ bytes t, (store bytes t).events = t.events) (s : State) : (receive n store s).EventsKept s := by
  obtain ⟨rest, k, ⟨b, _, h⟩ | h⟩ := receive_cases n store s <;> rw [h]
  · exact stored _ _
  · exact .inl rfl

theorem querySwitches_eventsKept (s : State) : (querySwitches s).EventsKept s :=
  (send_eventsKept _ _).andThen fun _ => receive_eventsKept (fun _ _ => by unfold storeSnapshot; split <;> rfl) _

theorem queryRotary_eventsKept (s : State) : (queryRotary s).EventsKept s :=
  (send_eventsKept _ _).andThen fun _ => receive_eventsKept (fun _ _ => by unfold storeRotary; split <;> rfl) _

theorem acknowledge_eventsKept (k : Ack) (s : State) : (acknowledge k s).EventsKept s :=
  ((send_eventsKept (frameAck k) _).of_eq rfl).andThen fun _ => rfl

theorem invalidPath_events (c : Config) (s : State) : (invalidPath c s).events = s.events :=
  keep_invalidPath (P := fun t => t.events = s.events) (fun _ _ h => h) (fun _ _ h => h)
    (fun _ on h => keep_driveAddrErr (P := fun t => t.events = s.events) (fun _ _ _ h => h) h on) (fun _ h => h) rfl

theorem examineStep_events (c : Config) (s : State) : (examineStep c s).events = s.events :=
  keep_examineStep (P := fun t => t.events = s.events) (fun _ _ h => h) (fun _ _ _ h => h) (fun _ _ h => h)
    (fun _ _ h => h) (fun _ _ _ h => h)
    (fun _ on h => keep_driveAddrErr (P := fun t => t.events = s.events) (fun _ _ _ h => h) h on) (fun _ h => h) rfl

theorem depositAt_eventsKept (c : Config) (t : Addr) (s : State) : (depositAt c t s).EventsKept s := by
  refine ((send_eventsKept _ _).of_eq ?_).andThen fun _ => acknowledge_eventsKept _ _
  cases c.crossReset <;> rfl

theorem depositStep_eventsKept (c : Config) (s : State) : (depositStep c s).EventsKept s := by
  unfold depositStep
  split
  · exact invalidPath_events c s
  · dsimp only
    split
    · split
      · rfl
      · exact (querySwitches_eventsKept s).andThen fun _ => depositAt_eventsKept _ _ _
    · exact invalidPath_events c s

/-- No console command touches the host's input, but for the detach that stops it. -/
theorem runSymbol_eventsKept (c : Config) (sym : Symbol) (s : State) : (runSymbol c sym s).EventsKept s := by
  cases sym with
  | noCommand => rfl
  | haltDown => exact (send_eventsKept _ _).of_eq rfl
  | haltUp =>
    refine Ran.EventsKept.andThen ?_ fun _ => send_eventsKept _ _
    split
    · exact (send_eventsKept _ _).of_eq rfl
    · rfl
  | continue_ =>
    show (runContinue c s).EventsKept s
    unfold runContinue
    split
    · exact (send_eventsKept _ _).of_eq rfl
    · refine (send_eventsKept _ _).of_eq ?_
      exact keep_driveAddrErr (s := s.signal .continue_) (P := fun t => t.events = s.events) (fun _ _ _ h => h) rfl _
  | deposit => exact (depositStep_eventsKept c s).andThen fun _ => send_eventsKept _ _
  | loadAddress =>
    refine (querySwitches_eventsKept s).andThen fun u => ?_
    refine ((send_eventsKept _ (loadSwitchAddr c u)).of_eq rfl).andThen fun _ => ?_
    exact (acknowledge_eventsKept _ _).andThen fun _ => send_eventsKept _ _
  | start =>
    show (runStart s).EventsKept s
    refine (send_eventsKept _ _).of_eq ?_
    show (if _ then _ else _ : State).events = _
    split <;> rfl
  | examine =>
    refine ((send_eventsKept _ (examineStep c s)).of_eq (examineStep_events c s)).andThen fun _ => ?_
    exact (acknowledge_eventsKept _ _).andThen fun _ => send_eventsKept _ _
  | ignored => rfl

theorem displayFrames_eventsKept (c : Config) (a : Addr) (d : Datum) (fifth : Bool) (s : State) :
    (displayFrames c a d fifth s).EventsKept s := by
  unfold displayFrames
  split
  · exact (send_eventsKept _ _).andThen fun _ => by split <;> first | exact send_eventsKept _ _ | rfl
  · split <;> exact send_eventsKept _ _
  · exact (send_eventsKept _ _).andThen fun _ => by split <;> first | exact send_eventsKept _ _ | rfl

theorem rotaryStep_eventsKept (c : Config) (s : State) : (rotaryStep c s).EventsKept s := by
  unfold rotaryStep
  split
  · dsimp only
    split
    · exact (queryRotary_eventsKept _).of_eq rfl
    · rfl
  · rfl

theorem haltPoll_eventsKept (c : Config) (s : State) : (haltPoll c s).EventsKept s := by
  obtain ⟨b, rest, n, e⟩ := s.takeRx_spec
  unfold haltPoll State.pollRecv
  rw [e]
  cases b with
  | none => rfl
  | some b =>
    dsimp only
    split
    · exact (runSymbol_eventsKept _ _ _).of_eq rfl
    · rfl

/-- No tick touches the host's input, but for the detach that stops it. -/
theorem runTick_eventsKept (c : Config) (a : Addr) (d : Datum) (s : State) : (runTick c a d s).EventsKept s := by
  refine (displayFrames_eventsKept _ _ _ _ _).andThen fun u => ?_
  split
  · exact ((rotaryStep_eventsKept _ _).of_eq rfl).andThen fun _ => haltPoll_eventsKept _ _
  · rfl

/-- A guarded operation leaves the host's input as it does without its guard. -/
theorem State.guarded_events {s : State} {op : State → Ran} (h : (op s).EventsKept s) :
    KeepsEvents s (s.guarded op) := by
  cases ha : s.active with
  | true => rw [State.guarded_active ha]; exact h.state
  | false => rw [State.guarded_inactive ha]; exact .inl rfl

/-- No operation touches the host's input, but for the detach that abandons one of its `Send`s. -/
theorem exec_events {i : Instr} {s t : State} (e : exec i s = .next t) : KeepsEvents s t := by
  cases i with
  | setBit f flag on =>
    simp only [exec, execSetBit] at e
    split at e
    · split at e
      · cases e
      · injection e with e
        obtain ⟨v0, v1, h⟩ := s.driveStatus_only f flag on
        exact .inl (by rw [← e, h])
    · injection e with e
      exact .inl (by rw [← e])
  | setRing level =>
    injection e with e
    obtain ⟨v0, v1, h⟩ := s.applyRing_only Config.hw level
    exact e ▸ State.guarded_events (by show State.events _ = _; rw [h])
  | setMmu e18 e22 =>
    injection e with e
    obtain ⟨v0, v1, h⟩ := s.applyMmu_only Config.hw e18 e22
    exact e ▸ State.guarded_events (by show State.events _ = _; rw [h])
  | tick a d => injection e with e; exact e ▸ State.guarded_events (runTick_eventsKept _ _ _ _)
  | sendQ => injection e with e; exact e ▸ State.guarded_events (querySwitches_eventsKept _)
  | sendR => injection e with e; exact e ▸ State.guarded_events (queryRotary_eventsKept _)
  | sendAck p m => injection e with e; exact e ▸ State.guarded_events (acknowledge_eventsKept _ _)
  | sendA a => injection e with e; exact e ▸ State.guarded_events (send_eventsKept _ _)
  | sendD d => injection e with e; exact e ▸ State.guarded_events (send_eventsKept _ _)
  | sendB a d => injection e with e; exact e ▸ State.guarded_events (send_eventsKept _ _)
  | sendU a d => injection e with e; exact e ▸ State.guarded_events (send_eventsKept _ _)
  | sendF => injection e with e; exact e ▸ State.guarded_events (send_eventsKept _ _)
  | sendClearI => injection e with e; exact e ▸ State.guarded_events (send_eventsKept _ _)
  | sendClearA => injection e with e; exact e ▸ State.guarded_events (send_eventsKept _ _)
  | cmdNul => injection e with e; exact e ▸ State.guarded_events (runSymbol_eventsKept _ _ _)
  | cmdH => injection e with e; exact e ▸ State.guarded_events (runSymbol_eventsKept _ _ _)
  | cmdE => injection e with e; exact e ▸ State.guarded_events (runSymbol_eventsKept _ _ _)
  | cmdC => injection e with e; exact e ▸ State.guarded_events (runSymbol_eventsKept _ _ _)
  | cmdD => injection e with e; exact e ▸ State.guarded_events (runSymbol_eventsKept _ _ _)
  | cmdL => injection e with e; exact e ▸ State.guarded_events (runSymbol_eventsKept _ _ _)
  | cmdS => injection e with e; exact e ▸ State.guarded_events (runSymbol_eventsKept _ _ _)
  | cmdX => injection e with e; exact e ▸ State.guarded_events (runSymbol_eventsKept _ _ _)
  | cmdIgn x => injection e with e; exact e ▸ State.guarded_events (runSymbol_eventsKept _ _ _)

/-! ## A step -/

/-- The step after a detach has become the next input ends the session and records nothing
(70_reset_and_hazards.md R201). -/
theorem step_detach {s : State} {rest : List Event} (h : s.events = .detach :: rest) :
    step s = .next (s.setEvents rest).discard := by
  simp only [step, fetch, h]
  rfl

section
variable {s t : State}

/-- Everything a step can be: nothing left to perform, an operation on a state that differs in its inputs only,
or one of the three inputs that are no operation. -/
theorem step_cases (e : step s = .next t) :
    t = s ∨ ∃ rest,
      (∃ rx n, t = { s with events := rest, rx := rx, draws := n }) ∨
      (∃ i rx n, exec i { s with events := rest, rx := rx, draws := n } = .next t) ∨
      t = { s with events := rest, connected := false } ∨ t = (s.setEvents rest).discard ∨
      ∃ m kind line opened, s.attached = false ∧ t = (s.setEvents rest).attachSession m kind line opened := by
  cases he : s.events with
  | nil =>
    simp only [step, fetch, he] at e
    injection e with e
    exact .inl e.symm
  | cons x rest =>
    refine .inr ⟨rest, ?_⟩
    cases x with
    | invoke i =>
      cases hw : i.wellFormed with
      | true =>
        simp only [step, fetch, he, takeEvent, invoke, hw, if_true] at e
        exact .inr (.inl ⟨i, s.rx, s.draws, e⟩)
      | false =>
        simp only [step, fetch, he, takeEvent, invoke, hw, Bool.false_eq_true, if_false] at e
        cases e
    | poll =>
      obtain ⟨b, rx, n, hb⟩ := (s.setEvents rest).takeRx_spec
      cases ha : (s.setEvents rest).active with
      | false =>
        simp only [step, fetch, he, takeEvent, pollCommand, ha, Bool.false_eq_true, if_false] at e
        injection e with e
        exact .inl ⟨s.rx, s.draws, e.symm⟩
      | true =>
        cases b with
        | none =>
          simp only [step, fetch, he, takeEvent, pollCommand, ha, if_true, State.pollRecv, hb] at e
          injection e with e
          exact .inl ⟨rx, n, e.symm⟩
        | some b =>
          simp only [step, fetch, he, takeEvent, pollCommand, ha, if_true, State.pollRecv, hb] at e
          exact .inr (.inl ⟨_, rx, n, e⟩)
    | attach m kind line opened =>
      cases ha : s.attached with
      | true =>
        simp only [step, fetch, he, takeEvent, State.setEvents_attached, ha, if_true] at e
        cases e
      | false =>
        simp only [step, fetch, he, takeEvent, State.setEvents_attached, ha, Bool.false_eq_true, if_false] at e
        injection e with e
        exact .inr (.inr (.inr (.inr ⟨m, kind, line, opened, rfl, e.symm⟩)))
    | detach =>
      simp only [step, fetch, he, takeEvent] at e
      injection e with e
      exact .inr (.inr (.inr (.inl e.symm)))
    | linkDown =>
      simp only [step, fetch, he, takeEvent] at e
      injection e with e
      exact .inr (.inr (.inl e.symm))

end

/-- A state whose status fields, address and counters are zero meets the invariant, whatever its model, when its TX
history holds frames of the codec and its link is within a session (10_state.md R15, R16, R21, R25, R26). -/
theorem inv_of_zero {t : State} (h0 : t.s0 = 0x00) (h1 : t.s1 = 0x00) (ha : t.actAddr = 0)
    (hu : t.updateCount = 0) (hr : t.rotaryCount = 0) (ht : TxFrames t) (hl : LinkWithinSession t) :
    Inv Config.hw t := by
  have z : ∀ p, t.statusBit p = false := by
    rintro ⟨f, b⟩
    cases f <;> simp [State.statusBit, State.status, h0, h1]
  refine ⟨fun _ => ?_, fun _ => by simp [z], ?_, ⟨by rw [hu]; decide, by rw [hr]; decide⟩, ht, hl⟩
  · obtain ⟨level, e⟩ := Config.hw_ringCode_zero
    exact ⟨level, by rw [e, State.ringShown, z, z]; decide⟩
  · rw [AddrWithinMask, ha]
    simp [BitVec.le_def]

end Sys2Proof.Machine
end

