-- ==== Sys2Proof/Laws/PerInstr.lean ====
section
/-! SUPPORT. Statements about each operation as syntax. `FirstByte`: every encoding of the operation has 1 to 8
bytes (20_memory.md R52) and begins with the byte of its row of the opcode table (30_encoding.md R74); a host call
has no encoding (R75). -/

namespace Sys2Proof.Laws.FirstByte

/-- The `match` byte of the operation's row of the opcode table, where the row has a wire encoding. -/
def tableByte : Instr → Option Byte
  | .sendA _ => some 0x41
  | .sendD _ => some 0x44
  | .sendB _ _ => some 0x42
  | .sendU _ _ => some 0x55
  | .sendF => some 0x46
  | .sendQ => some 0x51
  | .sendR => some 0x52
  | .sendAck _ _ => some 0x63
  | .sendClearI => some 0x69
  | .sendClearA => some 0x61
  | .cmdNul => some 0x00
  | .cmdH => some 0x48
  | .cmdE => some 0x45
  | .cmdC => some 0x63
  | .cmdD => some 0x64
  | .cmdL => some 0x6C
  | .cmdS => some 0x73
  | .cmdX => some 0x78
  | .cmdIgn b => some b
  | .setBit _ _ _ => none
  | .setRing _ => none
  | .setMmu _ _ => none
  | .tick _ _ => none

/-- Every encoding of the operation begins with its table byte and is no longer than 8 bytes. -/
def Statement (i : Instr) : Prop :=
  ∀ (wm : Width) (alen : AddrLen) (s0 s1 : Byte) (frame : List Byte),
    encode wm alen s0 s1 i = some frame → frame.head? = tableByte i ∧ frame.length ≤ 8

/-- `SEND_A`. -/
theorem sendA (a : Addr) : Statement (.sendA a) := by
  intro wm alen s0 s1 frame h
  cases h
  exact ⟨rfl, by cases alen <;> exact Nat.le_of_ble_eq_true rfl⟩

/-- `SEND_D`. -/
theorem sendD (d : Datum) : Statement (.sendD d) := by
  rintro wm alen s0 s1 frame ⟨⟩
  exact ⟨rfl, Nat.le_of_ble_eq_true rfl⟩

/-- `SEND_B`. -/
theorem sendB (a : Addr) (d : Datum) : Statement (.sendB a d) := by
  intro wm alen s0 s1 frame h
  cases h
  exact ⟨rfl, by cases alen <;> exact Nat.le_of_ble_eq_true rfl⟩

/-- `SEND_U`. -/
theorem sendU (a : Addr) (d : Datum) : Statement (.sendU a d) := by
  intro wm alen s0 s1 frame h
  cases h
  exact ⟨rfl, by cases alen <;> exact Nat.le_of_ble_eq_true rfl⟩

/-- `SEND_F`. -/
theorem sendF : Statement .sendF := by
  rintro wm alen s0 s1 frame ⟨⟩
  exact ⟨rfl, Nat.le_of_ble_eq_true rfl⟩

/-- `SEND_Q`. -/
theorem sendQ : Statement .sendQ := by
  rintro wm alen s0 s1 frame ⟨⟩
  exact ⟨rfl, Nat.le_of_ble_eq_true rfl⟩

/-- `SEND_R`. -/
theorem sendR : Statement .sendR := by
  rintro wm alen s0 s1 frame ⟨⟩
  exact ⟨rfl, Nat.le_of_ble_eq_true rfl⟩

/-- `SEND_c`. -/
theorem sendAck (port mask : Byte) : Statement (.sendAck port mask) := by
  rintro wm alen s0 s1 frame ⟨⟩
  exact ⟨rfl, Nat.le_of_ble_eq_true rfl⟩

/-- `SEND_i`. -/
theorem sendClearI : Statement .sendClearI := by
  rintro wm alen s0 s1 frame ⟨⟩
  exact ⟨rfl, Nat.le_of_ble_eq_true rfl⟩

/-- `SEND_a`. -/
theorem sendClearA : Statement .sendClearA := by
  rintro wm alen s0 s1 frame ⟨⟩
  exact ⟨rfl, Nat.le_of_ble_eq_true rfl⟩

/-- `CMD_NUL`. -/
theorem cmdNul : Statement .cmdNul := by
  rintro wm alen s0 s1 frame ⟨⟩
  exact ⟨rfl, Nat.le_of_ble_eq_true rfl⟩

/-- `CMD_H`. -/
theorem cmdH : Statement .cmdH := by
  rintro wm alen s0 s1 frame ⟨⟩
  exact ⟨rfl, Nat.le_of_ble_eq_true rfl⟩

/-- `CMD_E`. -/
theorem cmdE : Statement .cmdE := by
  rintro wm alen s0 s1 frame ⟨⟩
  exact ⟨rfl, Nat.le_of_ble_eq_true rfl⟩

/-- `CMD_c`. -/
theorem cmdC : Statement .cmdC := by
  rintro wm alen s0 s1 frame ⟨⟩
  exact ⟨rfl, Nat.le_of_ble_eq_true rfl⟩

/-- `CMD_d`. -/
theorem cmdD : Statement .cmdD := by
  rintro wm alen s0 s1 frame ⟨⟩
  exact ⟨rfl, Nat.le_of_ble_eq_true rfl⟩

/-- `CMD_l`. -/
theorem cmdL : Statement .cmdL := by
  rintro wm alen s0 s1 frame ⟨⟩
  exact ⟨rfl, Nat.le_of_ble_eq_true rfl⟩

/-- `CMD_s`. -/
theorem cmdS : Statement .cmdS := by
  rintro wm alen s0 s1 frame ⟨⟩
  exact ⟨rfl, Nat.le_of_ble_eq_true rfl⟩

/-- `CMD_x`. -/
theorem cmdX : Statement .cmdX := by
  rintro wm alen s0 s1 frame ⟨⟩
  exact ⟨rfl, Nat.le_of_ble_eq_true rfl⟩

/-- `CMD_IGN`. -/
theorem cmdIgn (b : Byte) : Statement (.cmdIgn b) := by
  rintro wm alen s0 s1 frame ⟨⟩
  exact ⟨rfl, Nat.le_of_ble_eq_true rfl⟩

/-- `SET_BIT`. -/
theorem setBit (field : StatusField) (flag : Byte) (on : Bool) : Statement (.setBit field flag on) := by
  intro wm alen s0 s1 frame h
  cases h

/-- `SET_RING`. -/
theorem setRing (level : RingLevel) : Statement (.setRing level) := by
  intro wm alen s0 s1 frame h
  cases h

/-- `SET_MMU`. -/
theorem setMmu (enable18 enable22 : Bool) : Statement (.setMmu enable18 enable22) := by
  intro wm alen s0 s1 frame h
  cases h

/-- `TICK`. -/
theorem tick (a : Addr) (d : Datum) : Statement (.tick a d) := by
  intro wm alen s0 s1 frame h
  cases h

end Sys2Proof.Laws.FirstByte
end

