-- ==== Sys2Proof/Tests/Slice0.lean ====
section
/-! SUPPORT. Tests of one operation or one step each. Expected results are those of spec/95_test_vectors.md (V<n>, S<n>, P<n>)
or are written out by hand from the rules named; they run under `TESTCFG` (95_test_vectors.md section 1), or on the
machine itself where no OPEN parameter matters. After them, for each statement with hypotheses, a named witness that
meets them all. -/

namespace Sys2Proof.Machine.Tests

/-- `TESTCFG` (95_test_vectors.md section 1). -/
def cfg : Config := Config.ofOpen OpenParams.testcfg

/-- The reset state of a session on `m` with these answers of the transport and the panel to come. -/
def live (m : Model) (sends : List SendResult) (rx : List (Option Byte)) : State :=
  { State.reset with model := m, sends := sends, rx := rx }

/-- The frames an operation leaves in the history. -/
def frames (r : Ran) : List (List Byte) := r.state.tx.map Sent.frame

/-- A transport that takes the next `n` frames. -/
def oks (n : Nat) : List SendResult := List.replicate n .ok

/-! ## Ill-formed terms -/

/-- The one check of `wellFormed` refuses a `CMD_IGN` of each of the eight bytes of 41_inbound_decode.md R109. -/
theorem test_wellFormed_refuses_reserved :
    [0x00, 0x45, 0x48, 0x63, 0x64, 0x6C, 0x73, 0x78].all (fun b => !(Instr.cmdIgn b).wellFormed) = true := by decide

/-- It accepts the nearest other bytes (V36 to V43). -/
theorem test_wellFormed_accepts_others :
    [0x43, 0x44, 0x4C, 0x53, 0x58, 0x65, 0x68, 0xC8].all (fun b => (Instr.cmdIgn b).wellFormed) = true := by decide

/-- The fetch refuses an ill-formed term by name. -/
theorem test_step_refuses_ill_formed :
    step { State.reset with events := [.invoke (.cmdIgn 0x48)] } = .refused .illFormedOperation := rfl

/-! ## Decoding, from words written out bit by bit (30_encoding.md R61 to R69, R76) -/

theorem test_decode_cmdNul : decodeIn 0b0000_0000 = .cmdNul := by decide
theorem test_decode_cmdH : decodeIn 0b0100_1000 = .cmdH := by decide
theorem test_decode_cmdE : decodeIn 0b0100_0101 = .cmdE := by decide
theorem test_decode_cmdC : decodeIn 0b0110_0011 = .cmdC := by decide
theorem test_decode_cmdD : decodeIn 0b0110_0100 = .cmdD := by decide
theorem test_decode_cmdL : decodeIn 0b0110_1100 = .cmdL := by decide
theorem test_decode_cmdS : decodeIn 0b0111_0011 = .cmdS := by decide
theorem test_decode_cmdX : decodeIn 0b0111_1000 = .cmdX := by decide
/-- V36 to V45: case, bit 7 and the outbound tags are no commands. -/
theorem test_decode_cmdIgn :
    [0x43, 0x44, 0x4C, 0x53, 0x58, 0x65, 0x68, 0xC8, 0x01, 0x20, 0x7F, 0x80, 0xFF, 0x41, 0x42, 0x46, 0x51, 0x52,
      0x55, 0x61, 0x69].all (fun b => decide (decodeIn b = .cmdIgn b)) = true := by decide

/-- V4's frame. -/
theorem test_decode_sendA :
    (decode .outbound .w18 .three [0b0100_0001, 0b0000_0011, 0b1111_1111, 0b1100_0000]).toOption =
      some (.sendA 0x03FFC0, []) := by decide
/-- V9's frame, the short address field. -/
theorem test_decode_sendA_short :
    (decode .outbound .w16 .two [0b0100_0001, 0xFF, 0xFE]).toOption = some (.sendA 0x00FFFE, []) := by decide
/-- V11's frame. -/
theorem test_decode_sendD :
    (decode .outbound .w16 .three [0b0100_0100, 0xBE, 0xEF]).toOption = some (.sendD 0xBEEF, []) := by decide
/-- V15's frame, and a byte after it. -/
theorem test_decode_sendB :
    (decode .outbound .w18 .three [0b0100_0010, 0x03, 0xFF, 0xC1, 0x00, 0x53, 0x46]).toOption =
      some (.sendB 0x03FFC1 0x0053, [0x46]) := by decide
/-- V17's frame. -/
theorem test_decode_sendU :
    (decode .outbound .w22 .three [0b0101_0101, 0x00, 0x02, 0x02, 0x15, 0xC0, 0x81, 0x02]).toOption =
      some (.sendU 0x000202 0x15C0, []) := by decide
/-- V19's frame. -/
theorem test_decode_sendF :
    (decode .outbound .w16 .three [0b0100_0110, 0x43, 0x00]).toOption = some (.sendF, []) := by decide
theorem test_decode_sendQ : (decode .outbound .w16 .three [0b0101_0001]).toOption = some (.sendQ, []) := by decide
theorem test_decode_sendR : (decode .outbound .w16 .three [0b0101_0010]).toOption = some (.sendR, []) := by decide
/-- V32's frame. -/
theorem test_decode_sendAck :
    (decode .outbound .w16 .three [0b0110_0011, 0xFF, 0x80]).toOption = some (.sendAck 0xFF 0x80, []) := by decide
theorem test_decode_sendClearI :
    (decode .outbound .w16 .three [0b0110_1001]).toOption = some (.sendClearI, []) := by decide
theorem test_decode_sendClearA :
    (decode .outbound .w16 .three [0b0110_0001]).toOption = some (.sendClearA, []) := by decide
/-- 30_encoding.md R70: no frame begins with another byte. -/
theorem test_decode_no_tag : (decode .outbound .w16 .three [0x43, 0x00, 0x00]).toOption = none := by decide
/-- 30_encoding.md R63: the top byte has no bit above the mode. -/
theorem test_decode_above_mode :
    (decode .outbound .w18 .three [0x41, 0x04, 0x00, 0x00]).toOption = none := by decide
/-- The selectors of the calls (30_encoding.md R75 and the table's rows). -/
theorem test_decode_calls :
    decodeTableWord 2 0 = some (.setBit .f0 0 false) ∧ decodeTableWord 2 1 = some (.setRing .kernel) ∧
      decodeTableWord 2 2 = some (.setMmu false false) ∧ decodeTableWord 2 3 = some (.tick 0 0) := by decide
/-- A word of three bytes: `SEND_c` with zero operands, the tag in bits 7 to 0. -/
theorem test_decode_table_word : decodeTableWord 24 0x000063 = some (.sendAck 0 0) := by decide

/-! ## Frames (V1 to V19) -/

theorem test_sendA_mode_mask :
    frames (putA cfg 0x3FFFFE (live .m0 (oks 1) [])) = [[0x41, 0x00, 0xFF, 0xFE]] ∧
      frames (putA cfg 0x2ABCDE (live .m2 (oks 1) [])) = [[0x41, 0x02, 0xBC, 0xDE]] := by decide
theorem test_sendA_wide : frames (putA cfg 0x012345 (live .m4 (oks 1) [])) = [[0x41, 0x01, 0x23, 0x45]] := by decide
theorem test_sendD : frames (putD 0xBEEF (live .m0 (oks 1) [])) = [[0x44, 0xBE, 0xEF]] := by decide
theorem test_sendB :
    frames (putB cfg 0x03FFC1 0x0053 (live .m2 (oks 1) [])) = [[0x42, 0x03, 0xFF, 0xC1, 0x00, 0x53]] := by decide
theorem test_sendU :
    frames (putU cfg 0x000202 0x15C0 { live .m4 (oks 1) [] with s0 := 0x81, s1 := 0x02 }) =
      [[0x55, 0x00, 0x02, 0x02, 0x15, 0xC0, 0x81, 0x02]] := by decide
theorem test_sendF :
    frames (putF { live .m0 (oks 1) [] with s0 := 0x13, s1 := 0x03 }) = [[0x46, 0x13, 0x03]] := by decide

/-! ## Queries and toggles (V27 to V35) -/

/-- V28: a response may hold command letters. -/
theorem test_sendQ :
    (querySwitches (live .m2 (oks 1) [some 0x48, some 0x45, some 0x63, some 0x64, some 0x6C])).state.sw =
      ⟨0x48, 0x45, 0x63, 0x64, 0x6C⟩ := by decide
/-- V29: nothing is received after a failed query. -/
theorem test_sendQ_fails :
    let t := (querySwitches (live .m2 [.fail 0] [some 0x48])).state
    t.sw = State.reset.sw ∧ t.rx = [some 0x48] ∧ t.reports = [.transportIOError] := by decide
theorem test_sendR : (queryRotary (live .m4 (oks 1) [some 0x05])).state.rot = 0x05 := by decide
theorem test_sendAck :
    let t := (acknowledge ⟨0xFF, 0x80⟩ (live .m0 (oks 1) [])).state
    t.tx = [⟨[0x63, 0xFF, 0x80], 3⟩] ∧ t.ackq = none := by decide
/-- V33: the acknowledgement stays pending after a failed send. -/
theorem test_sendAck_fails :
    let t := (acknowledge ⟨0x01, 0x02⟩ (live .m0 [.fail 5] [])).state
    t.ackq = some ⟨0x01, 0x02⟩ ∧ t.reports = [.transportIOError] := by decide
theorem test_sendClearI : frames (putClearI (live .m0 (oks 1) [])) = [[0x69]] := by decide
theorem test_sendClearA : frames (putClearA (live .m0 (oks 1) [])) = [[0x61]] := by decide
/-- 70_reset_and_hazards.md R201: a `Send` abandoned by a detach reports nothing, and the rest of the command is not
run: no acknowledge and no status frame after the address frame that is cut. -/
theorem test_send_abandoned :
    let t := (runExamine cfg { live .m2 [.ok, .abandoned 1] [] with actAddr := 0x000200 }).state
    t.tx = [⟨[0x41, 0x00, 0x02, 0x02], 4⟩, ⟨[0x63, 0x01, 0x02], 1⟩] ∧ t.reports = [] ∧ t.events = [.detach] := by
  decide
/-- The next step ends the session (R201). -/
theorem test_step_after_abandoned :
    let t := { live .m2 [] [] with ackq := some ⟨1, 2⟩, events := [.detach, .poll] }
    step t = .next { State.reset with attached := false, connected := false, events := [.poll] } := rfl
/-- V35: nothing while disconnected. -/
theorem test_inactive :
    exec .cmdH { live .m2 (oks 1) [] with connected := false } =
      .next { live .m2 (oks 1) [] with connected := false } := rfl

/-! ## Status manager (V46 to V59) -/

theorem test_setRing :
    ((live .m4 [] []).applyRing cfg .user).s0 = 0x03 ∧
      ({ live .m4 [] [] with s0 := 0x17 }.applyRing cfg .super).s0 = 0x15 := by decide
/-- V59: no ring display on `M0`. -/
theorem test_setRing_no_display : (live .m0 [] []).applyRing cfg .user = live .m0 [] [] := by decide
/-- V49 to V52. -/
theorem test_setMmu_widest :
    ({ live .m4 [] [] with s0 := 0x03 }.applyMmu cfg true true).s0 = 0x43 ∧
      ({ live .m4 [] [] with s0 := 0x43 }.applyMmu cfg true false).s0 = 0x23 ∧
      ({ live .m4 [] [] with s0 := 0x23 }.applyMmu cfg false true).s0 = 0x13 := by decide
/-- V58. -/
theorem test_setMmu_single :
    ((live .m2 [] []).applyMmu cfg true false).s0 = 0x08 ∧
      ({ live .m2 [] [] with s0 := 0x08 }.applyMmu cfg true true).s0 = 0x08 ∧
      ({ live .m2 [] [] with s0 := 0x08 }.applyMmu cfg false false).s0 = 0x00 := by decide
/-- V53 to V57. -/
theorem test_setBit :
    ({ live .m4 [] [] with s0 := 0x13 }.driveStatus .f0 0x04 true).s0 = 0x17 ∧
      ((live .m4 [] []).driveStatus .f1 0x03 true).s1 = 0x03 ∧
      ({ live .m4 [] [] with s1 := 0x03 }.driveStatus .f1 0x01 false).s1 = 0x02 := by decide
/-- The two calls 95_test_vectors.md section 3.5 lists as refused, and the nearest accepted one. -/
theorem test_setBit_owned :
    (live .m4 [] []).flagBreaks cfg .f0 0x02 = true ∧ (live .m4 [] []).flagBreaks cfg .f0 0x30 = true ∧
      (live .m4 [] []).flagBreaks cfg .f0 0x04 = false := by decide

/-! ## Address predicates and the increment (V60 to V86) -/

theorem test_inRom_low :
    [0xE9FF, 0xEA00, 0xEBFF, 0xEC00, 0xF5FF, 0xF600, 0xF7FF, 0xF800, 0x03EA00].map (inRom .w18) =
      [false, true, true, false, false, true, true, false, false] := by decide
theorem test_inRom_mirror :
    [0x3FE9FF, 0x3FEA00, 0x3FF7FF, 0x3FF800].map (inRom .w22) = [false, true, true, false] := by decide
theorem test_incr :
    [0x000000, 0x000001, 0x000200, 0x000201, 0x03FFBE, 0x03FFBF, 0x03FFC0, 0x03FFC6].map (incr cfg) =
      [0x000002, 0x000002, 0x000202, 0x000202, 0x03FFC0, 0x03FFC0, 0x03FFC1, 0x03FFC7] := by decide
theorem test_incr_edges :
    [0x03FFC7, 0x03FFC8, 0x00FFFE, 0x03FFFE, 0x3FFFFD, 0x3FFFFE, 0x3FFFFF].map (incr cfg) =
      [0x03FFC8, 0x03FFCA, 0x010000, 0x040000, 0x3FFFFE, 0x000000, 0x000000] := by decide

/-! ## Commands (P1 to P4, one command each) -/

/-- P3, first command: the switch value is masked to the model. -/
theorem test_loadAddress :
    let r := runLoadAddress cfg (live .m0 (oks 4) [some 0xFE, some 0xFF, some 0x3F, some 0x00, some 0x00])
    frames r = [[0x51], [0x41, 0x00, 0xFF, 0xFE], [0x63, 0x01, 0x01], [0x46, 0x00, 0x00]] ∧
      r.state.actAddr = 0x00FFFE ∧ r.state.firstExam = true ∧ r.state.firstDep = true := by decide
/-- P3, fifth command: load-address clears `inv_addr`. -/
theorem test_loadAddress_clears_invalid :
    (runLoadAddress cfg { live .m0 (oks 4) [some 0x00, some 0x01, some 0x00, some 0x00, some 0x00] with
      invAddr := true }).state.invAddr = false := by decide
/-- P1, third command: the second examine moves by two. -/
theorem test_examine :
    let r := runExamine cfg { live .m2 (oks 3) [] with actAddr := 0x000200 }
    frames r = [[0x41, 0x00, 0x02, 0x02], [0x63, 0x01, 0x02], [0x46, 0x00, 0x00]] ∧
      r.state.signals = [.examine] := by decide
/-- P3, third command: out of range on `M0`. -/
theorem test_examine_invalid :
    let r := runExamine cfg { live .m0 (oks 3) [] with actAddr := 0x00FFFE }
    frames r = [[0x41, 0x00, 0xFF, 0xFE], [0x63, 0x01, 0x02], [0x46, 0x00, 0x00]] ∧
      r.state.signals = [.freeze] ∧ r.state.reports = [.invalidAddress] ∧ r.state.invAddr = true := by decide
/-- P2, third command: one step inside the register window (S4). -/
theorem test_deposit :
    let r := runDeposit cfg { live .m2 (oks 4) [some 0x53, some 0x00, some 0x00, some 0x00, some 0x00] with
      actAddr := 0x03FFC0 }
    frames r = [[0x51], [0x42, 0x03, 0xFF, 0xC1, 0x00, 0x53], [0x63, 0x01, 0x04], [0x46, 0x00, 0x00]] ∧
      r.state.signals = [.deposit 0x03FFC1 0x0053] := by decide
/-- P2, last command: a deposit into a ROM window (S6). -/
theorem test_deposit_rom :
    let r := runDeposit cfg { live .m2 (oks 1) [] with actAddr := 0x00E9FE }
    frames r = [[0x46, 0x00, 0x00]] ∧ r.state.actAddr = 0x00E9FE ∧ r.state.reports = [.bootRomProtected] := by decide
/-- P4, continue in HaltDown and after: the address-error lamp. -/
theorem test_continue :
    let s := { live .m3 (oks 1) [] with s0 := 0x0D }
    frames (runContinue cfg { s with haltMode := .haltDown }) = [[0x46, 0x0D, 0x00]] ∧
      (runContinue cfg { s with haltMode := .haltDown }).state.signals = [.step] ∧
      frames (runContinue cfg { s with haltMode := .enableIdle }) = [[0x46, 0x09, 0x00]] ∧
      (runContinue cfg { s with haltMode := .enableIdle }).state.signals = [.continue_] := by decide
/-- P4, start; and start in HaltDown (43_console_commands.md R151). -/
theorem test_start :
    (runStart { live .m3 (oks 1) [] with actAddr := 0x03FFFE }).state.signals = [.run 0x03FFFE] ∧
      (runStart { live .m3 (oks 1) [] with haltMode := .haltDown }).state.signals = [.resetAll] ∧
      (runStart { live .m3 (oks 1) [] with haltMode := .haltDown }).state.haltMode = .run := by decide
/-- S9. -/
theorem test_haltDown : (runHaltDown (live .m3 (oks 1) [])).state.haltMode = .haltDown := by decide
theorem test_haltUp :
    let t := (runHaltUp cfg { live .m3 (oks 1) [] with haltMode := .haltDown, ackq := some ⟨1, 2⟩ }).state
    t.haltMode = .enableIdle ∧ t.ackq = none ∧ t.tx = [⟨[0x46, 0x00, 0x00], 3⟩] := by decide
/-- P6. -/
theorem test_ignored :
    exec .cmdNul (live .m2 [] []) = .next (live .m2 [] []) ∧
      exec (.cmdIgn 0x58) (live .m2 [] []) = .next (live .m2 [] []) := ⟨rfl, rfl⟩
/-- The spelling of the pseudo-commands with no number (30_encoding.md R72). -/
theorem test_signal_text : Signal.text cfg .resetAll = some "reset all".toList := by decide
/-- The operands as the programs write them (95_test_vectors.md section 4, P2 and P4). -/
theorem test_signal_operands :
    Signal.text cfg (.deposit 0x03FFC0 0x0053) = some "deposit <0x03FFC0> <0x0053>".toList ∧
      Signal.text cfg (.run 0x03FFFE) = some "run <0x03FFFE>".toList := by decide

/-- The empty mask is accepted and changes nothing (V57). -/
theorem test_setBit_empty : exec (.setBit .f0 0x00 true) State.reset = .next State.reset := rfl

/-- A poll that finds `H` runs HALT down, on the state without that byte (41_inbound_decode.md R113). -/
theorem test_step_poll :
    step { live .m2 (oks 1) [some 0x48] with events := [.poll] } =
      .next { live .m2 [] [] with haltMode := .haltDown, tx := [⟨[0x46, 0x00, 0x00], 3⟩] } := rfl
/-- A table word placed at reset is the next operation. -/
theorem test_withFetchWord : step (State.reset.withFetchWord 8 0x6C) = exec .cmdL State.reset := rfl

/-! ## Ticks (P5, one tick each) -/

theorem test_tick_fifth :
    let r := runTick cfg 0x001000 0x0123 { live .m4 (oks 2) [none] with s0 := 0x43, updateCount := 4 }
    frames r = [[0x42, 0x00, 0x10, 0x00, 0x01, 0x23], [0x46, 0x43, 0x00]] ∧ r.state.updateCount = 0 ∧
      r.state.rotaryCount = 1 := by decide
theorem test_tick_fifteenth :
    let r := runTick cfg 0x001000 0x0123
      { live .m4 (oks 3) [some 0x05, none] with s0 := 0x43, updateCount := 4, rotaryCount := 2 }
    frames r = [[0x42, 0x00, 0x10, 0x00, 0x01, 0x23], [0x46, 0x43, 0x00], [0x52]] ∧ r.state.rot = 0x05 := by decide

/-! ## Witnesses: states and operands that meet the hypotheses of each statement -/

theorem witness_inbound_byte_round_trip :
    (Instr.cmdNul.direction = .inbound ∧ Instr.cmdNul.wellFormed = true) ∧
      ((Instr.cmdIgn 0xFF).direction = .inbound ∧ (Instr.cmdIgn 0xFF).wellFormed = true) := by decide

theorem witness_outbound_frame_round_trip :
    ((Instr.sendU 0x3FFFFF 0xFFFF).direction = .outbound ∧ (Instr.sendU 0x3FFFFF 0xFFFF).fits .w22 .three) ∧
      ((Instr.sendA 0x00FFFF).direction = .outbound ∧ (Instr.sendA 0x00FFFF).fits .w16 .two) := by
  refine ⟨⟨rfl, ?_⟩, ⟨rfl, ?_⟩⟩ <;> rintro a ⟨⟩ <;> decide

theorem witness_decoded_frames_reencode :
    (decode .outbound .w22 .three [0x55, 0x3F, 0xFF, 0xFF, 0x00, 0x01, 0x81, 0x02, 0x46]).toOption =
      some (.sendU 0x3FFFFF 0x0001, [0x46]) := by decide

/-- A state with these inputs of the host, and one answer of each other kind. -/
def asked (events : List Event) : State := { live .m4 (oks 4) [some 0x48] with events := events }

theorem witness_step_runs_decoded_operation :
    ((asked [.invoke .cmdH]).events = .invoke .cmdH :: [] ∧ Instr.cmdH.wellFormed = true) ∧
      ((asked [.invoke (.cmdIgn 0x48)]).events = .invoke (.cmdIgn 0x48) :: [] ∧
        (Instr.cmdIgn 0x48).wellFormed = false) ∧
      ((asked [.poll]).events = .poll :: [] ∧ (asked [.poll]).active = true ∧ (asked [.poll]).rx = some 0x48 :: []) ∧
      (let s := { asked [.poll] with rx := [none] };
        s.events = .poll :: [] ∧ s.active = true ∧ s.rx = none :: []) ∧
      (let s := { asked [.poll] with connected := false };
        s.events = .poll :: [] ∧ s.active = false) ∧
      (asked []).events = [] := by decide

theorem witness_placed_word_runs_next :
    State.reset.active = true ∧ decodeTableWord 8 0x6C = some .cmdL ∧
      decodeTableWord 64 0x55 = some (.sendU 0 0) := by decide

/-- The absent state with this attach to come. -/
def absent (variant : Option Model) (opened : Bool) : State :=
  { State.reset.discard with events := [.attach variant .bridged [] opened] }

theorem witness_attach_is_reset :
    (absent (some .m4) true).attached = false ∧
      (absent (some .m4) true).events = .attach (some .m4) .bridged [] true :: [] := by decide

theorem witness_unsupported_variant_goes_dormant :
    ((absent none true).attached = false ∧ (absent none true).events = .attach none .bridged [] true :: []) ∧
      ({ State.reset with dormant := true }.dormant = true ∧ { State.reset with dormant := true }.attached = true) ∧
      ∃ v, step { State.reset with dormant := true, events := [.detach] } = .next v ∧ v.dormant = false :=
  ⟨by decide, ⟨rfl, rfl⟩, _, rfl, rfl⟩

theorem witness_failed_transport_leaves_no_session :
    (absent (some .m0) false).attached = false ∧
      (absent (some .m0) false).events = .attach (some .m0) .bridged [] false :: [] := by decide

theorem witness_detach_discards_state :
    (asked [.detach, .attach (some .m2) .inline [] true]).events =
      .detach :: .attach (some .m2) .inline [] true :: [] := by decide

theorem witness_link_down_clears_connected :
    (asked [.linkDown]).events = .linkDown :: [] ∧ (asked [.attach none .inline [] true]).attached = true ∧
      (asked [.attach none .inline [] true]).events = .attach none .inline [] true :: [] := by decide

theorem witness_inactive_is_no_op :
    ({ State.reset with connected := false }.connected = false) ∧
      ({ State.reset with dormant := true }.dormant = true) := by decide

/-- For `SendAddressFrame`, `SendDataFrame`, `SendCompositeFrames`, `ToggleFramesSent`, `HaltKeySetsMode` and
`StartSignals`. -/
theorem witness_one_frame : (live .m4 [.ok] []).active = true ∧ (live .m4 [.ok] []).sends = .ok :: [] := by decide

theorem witness_queries_store_responses :
    (let s := live .m4 [.ok] [some 1, some 2, some 3, some 4, some 5];
      s.active = true ∧ s.sends = .ok :: [] ∧ s.rx = some 1 :: some 2 :: some 3 :: some 4 :: some 5 :: []) ∧
      (let s := live .m4 [.ok] [some 9];
        s.active = true ∧ s.sends = .ok :: [] ∧ s.rx = some 9 :: []) ∧
      (Instr.sendF.direction = .outbound ∧ Instr.sendF ≠ .sendQ ∧ Instr.sendF ≠ .sendR ∧
        ∃ t, exec .sendF (live .m4 [.ok] []) = .next t) :=
  ⟨by decide, by decide, rfl, by decide, by decide, _, rfl⟩

/-- At the boundaries: four bytes of five, and none. -/
theorem witness_short_response_stores_nothing :
    (let s := live .m4 [.ok] [some 1, some 2, some 3, some 4, none];
      s.active = true ∧ s.sends = .ok :: [] ∧ [1, 2, 3, 4].length < 5 ∧
        s.rx = [1, 2, 3, 4].map some ++ none :: []) ∧
      (let s := live .m4 [.ok] [none];
        s.active = true ∧ s.sends = .ok :: [] ∧ ([] : List Byte).length < 5 ∧ s.rx = none :: []) := by decide

theorem witness_failed_send_ends_operation :
    (Instr.sendAck 1 2).direction = .outbound ∧ Instr.sendQ.direction = .outbound ∧
      (live .m4 [.fail 7] []).active = true ∧ (live .m4 [.fail 7] []).sends = .fail 7 :: [] := by decide

/-- The shortest and the longest cut; an operation that a detach abandons, and one that runs whole. -/
theorem witness_detach_abandons_send :
    (∀ k ∈ [0, 8], let s := { live .m4 [.abandoned k] [] with events := [.invoke (.sendU 1 2)] };
      (Instr.sendU 1 2).direction = .outbound ∧ s.active = true ∧ s.sends = .abandoned k :: [] ∧
        s.events = .invoke (.sendU 1 2) :: []) ∧
      (let s := live .m2 [.ok, .abandoned 4] [some 0, some 2, some 0, some 0, some 0];
        s.active = true ∧ s.sends = .ok :: .abandoned 4 :: [] ∧
          s.rx = some 0 :: some 2 :: some 0 :: some 0 :: some 0 :: [] ∧
          ∃ v, v = Config.hw.swAddr s.model ⟨0, 2, 0, 0, 0⟩ &&& (Config.hw.width s.model).fullMask) ∧
      (∃ t, exec .cmdH (live .m0 [.abandoned 0] []) = .next t ∧ t.events ≠ []) ∧
      ∃ t, exec .cmdH (live .m0 [.ok] []) = .next t ∧ t.events = [] :=
  ⟨fun _ _ => ⟨rfl, rfl, rfl, rfl⟩, ⟨rfl, rfl, rfl, _, rfl⟩, ⟨_, rfl, by decide⟩, _, rfl, rfl⟩

theorem witness_outbound_operations_frame :
    Instr.sendQ.direction = .outbound ∧ (∃ t, exec .sendQ (live .m4 [.ok] []) = .next t) ∧
      (Instr.sendAck 1 2).direction = .outbound ∧ ∃ t, exec (.sendAck 1 2) (live .m4 [.ok] []) = .next t :=
  ⟨rfl, ⟨_, rfl⟩, rfl, _, rfl⟩

theorem witness_other_bytes_are_ignored :
    (let b : Byte := 0x58;
      b ≠ 0x00 ∧ b ≠ 0x45 ∧ b ≠ 0x48 ∧ b ≠ 0x63 ∧ b ≠ 0x64 ∧ b ≠ 0x6C ∧ b ≠ 0x73 ∧ b ≠ 0x78) ∧
      (let s := { asked [.poll] with rx := [some 0x58] };
        s.active = true ∧ s.events = .poll :: [] ∧ s.rx = some 0x58 :: []) := by decide

theorem witness_continue_signals :
    (let s := { live .m3 [.ok] [] with haltMode := .haltDown };
      s.active = true ∧ s.sends = .ok :: [] ∧ s.haltMode = .haltDown) ∧
      (let s := live .m3 [.ok] [];
        s.active = true ∧ s.sends = .ok :: [] ∧ s.haltMode ≠ .haltDown ∧ (s.model = .m3 ∨ s.model = .m4)) ∧
      (let s := live .m0 [.ok] [];
        s.active = true ∧ s.haltMode ≠ .haltDown ∧ s.model ≠ .m3 ∧ s.model ≠ .m4) := by decide

theorem witness_load_address_loads_switches :
    let s := live .m2 (oks 4) [some 0, some 2, some 0, some 0, some 0]
    s.active = true ∧ s.sends = .ok :: .ok :: .ok :: .ok :: [] ∧
      s.rx = some 0 :: some 2 :: some 0 :: some 0 :: some 0 :: [] ∧
      ∃ v, v = Config.hw.swAddr s.model ⟨0, 2, 0, 0, 0⟩ &&& (Config.hw.width s.model).fullMask :=
  ⟨rfl, rfl, rfl, _, rfl⟩

/-- For the first clause, at the first and the last frame after the query. -/
theorem witness_failed_frame_skips_rest_of_load_address :
    ∀ n ∈ [1, 3], let s := live .m2 (oks n ++ [.fail 3]) [some 0, some 2, some 0, some 0, some 0];
      s.active = true ∧ s.sends = List.replicate n .ok ++ .fail 3 :: [] ∧ 1 ≤ n ∧ n < 4 ∧
        s.rx = some 0 :: some 2 :: some 0 :: some 0 :: some 0 :: [] ∧
        ∃ v, v = Config.hw.swAddr s.model ⟨0, 2, 0, 0, 0⟩ &&& (Config.hw.width s.model).fullMask := by
  intro n hn
  simp only [List.mem_cons, List.not_mem_nil, or_false] at hn
  rcases hn with rfl | rfl <;> exact ⟨rfl, rfl, by decide, by decide, rfl, _, rfl⟩

/-- For the second and the third: examine at its first and its last frame, deposit at its first and its last after the
query, the target on the widest model and outside the ROM windows. -/
theorem witness_failed_frame_skips_rest_of_examine_and_deposit :
    (∀ n ∈ [0, 2], let s := { live .m4 (oks n ++ [.fail 3]) [] with actAddr := 0x3FFFFE, firstExam := true };
      s.active = true ∧ s.sends = List.replicate n .ok ++ .fail 3 :: [] ∧ n < 3 ∧ s.invAddr = false ∧
        0x3FFFFE = s.target Config.hw s.firstExam ∧ (0x3FFFFE : Addr) ≤ (Config.hw.width s.model).fullMask) ∧
      (∀ n ∈ [1, 3],
        let s := { live .m4 (oks n ++ [.fail 3]) ((oks 5).map fun _ => some 0x00) with
          actAddr := 0x00EC00, firstDep := true };
        s.active = true ∧ s.sends = List.replicate n .ok ++ .fail 3 :: [] ∧ 1 ≤ n ∧ n < 4 ∧
          s.rx = some 0 :: some 0 :: some 0 :: some 0 :: some 0 :: [] ∧ s.invAddr = false ∧
          0x00EC00 = s.target Config.hw s.firstDep ∧ (0x00EC00 : Addr) ≤ (Config.hw.width s.model).fullMask ∧
          inRom (Config.hw.width s.model) 0x00EC00 = false) := by
  have w : (0x3FFFFE : Addr) ≤ (Config.hw.width .m4).fullMask ∧ (0x00EC00 : Addr) ≤ (Config.hw.width .m4).fullMask ∧
      inRom (Config.hw.width .m4) 0x00EC00 = false := by
    rw [Config.hw_width_m4]
    decide
  constructor <;> intro n hn <;> simp only [List.mem_cons, List.not_mem_nil, or_false] at hn
  · rcases hn with rfl | rfl <;> exact ⟨rfl, rfl, by decide, rfl, rfl, w.1⟩
  · rcases hn with rfl | rfl <;> exact ⟨rfl, rfl, by decide, by decide, rfl, rfl, rfl, w.2⟩

/-- For the fourth. -/
theorem witness_failed_frame_of_one_frame_command :
    let s := live .m3 [.fail 1] []
    s.active = true ∧ s.sends = List.replicate 0 .ok ++ .fail 1 :: [] ∧ Instr.cmdC ∈ [Instr.cmdH, .cmdE, .cmdC, .cmdS] ∧
      ∃ t, exec .cmdC { s with sends := .ok :: [] } = .next t := ⟨rfl, rfl, by decide, _, rfl⟩

/-- Load-address, and a deposit outside the ROM windows; a failed query, and a response cut at its last byte. -/
theorem witness_failed_query_writes_no_address :
    (let s := live .m0 [.fail 0] [];
      s.active = true ∧ s.sends = .fail 0 :: []) ∧
      (let s := { live .m4 [.ok] [some 1, some 2, some 3, some 4, none] with actAddr := 0x00EC00, firstDep := true };
        s.active = true ∧ s.invAddr = false ∧ s.target Config.hw s.firstDep ≤ (Config.hw.width s.model).fullMask ∧
          inRom (Config.hw.width s.model) (s.target Config.hw s.firstDep) = false ∧ s.sends = .ok :: [] ∧
          [1, 2, 3, 4].length < 5 ∧ s.rx = [1, 2, 3, 4].map some ++ none :: []) := by
  have w : (0x00EC00 : Addr) ≤ (Config.hw.width .m4).fullMask ∧ inRom (Config.hw.width .m4) 0x00EC00 = false := by
    rw [Config.hw_width_m4]
    decide
  exact ⟨⟨rfl, rfl⟩, rfl, rfl, w.1, w.2, rfl, by decide, rfl⟩

/-- At the edges of the register alias window, and of the address space. -/
theorem witness_increment_rule :
    (0x3FFC0 ≤ (0x3FFC0 : Addr).toNat ∧ (0x3FFC0 : Addr).toNat ≤ 0x3FFC7) ∧
      (0x3FFC0 ≤ (0x3FFC7 : Addr).toNat ∧ (0x3FFC7 : Addr).toNat ≤ 0x3FFC7) ∧
      ((0x3FFBF : Addr).toNat < 0x3FFC0 ∨ 0x3FFC7 < (0x3FFBF : Addr).toNat) ∧
      ((0x3FFC8 : Addr).toNat < 0x3FFC0 ∨ 0x3FFC7 < (0x3FFC8 : Addr).toNat) ∧
      ((0x3FFFFF : Addr).toNat < 0x3FFC0 ∨ 0x3FFC7 < (0x3FFFFF : Addr).toNat) := by decide

/-- On the widest model, the first operation at the top of the address space, and the next, which wraps. -/
theorem witness_examine_moves_address :
    let s := { live .m4 (oks 3) [] with actAddr := 0x3FFFFE, firstExam := true }
    let u := { live .m4 (oks 3) [] with actAddr := 0x3FFFFE }
    (s.active = true ∧ s.sends = .ok :: .ok :: .ok :: [] ∧ s.invAddr = false ∧
      0x3FFFFE = s.target Config.hw s.firstExam ∧ (0x3FFFFE : Addr) ≤ (Config.hw.width s.model).fullMask) ∧
      (u.active = true ∧ u.sends = .ok :: .ok :: .ok :: [] ∧ u.invAddr = false ∧
        0x000000 = u.target Config.hw u.firstExam ∧ (0x000000 : Addr) ≤ (Config.hw.width u.model).fullMask) := by
  refine ⟨⟨rfl, rfl, rfl, rfl, ?_⟩, rfl, rfl, rfl, by decide, ?_⟩
  · show _ ≤ (Config.hw.width .m4).fullMask
    rw [Config.hw_width_m4]
    decide
  · show _ ≤ (Config.hw.width .m4).fullMask
    rw [Config.hw_width_m4]
    decide

/-- Just above a ROM window. -/
theorem witness_deposit_moves_address :
    let s := { live .m4 (oks 4) [some 1, some 2, some 3, some 4, some 5] with actAddr := 0x00EC00, firstDep := true }
    s.active = true ∧ s.sends = .ok :: .ok :: .ok :: .ok :: [] ∧
      s.rx = some 1 :: some 2 :: some 3 :: some 4 :: some 5 :: [] ∧ s.invAddr = false ∧
      0x00EC00 = s.target Config.hw s.firstDep ∧ (0x00EC00 : Addr) ≤ (Config.hw.width s.model).fullMask ∧
      inRom (Config.hw.width s.model) 0x00EC00 = false ∧
      ∃ d : Datum, d = (Config.hw.swAddr s.model ⟨1, 2, 3, 4, 5⟩).setWidth 16 := by
  refine ⟨rfl, rfl, rfl, rfl, rfl, ?_, ?_, _, rfl⟩
  · show _ ≤ (Config.hw.width .m4).fullMask
    rw [Config.hw_width_m4]
    decide
  · show inRom (Config.hw.width .m4) _ = _
    rw [Config.hw_width_m4]
    decide

/-- By `inv_addr`, on a model that freezes, one that has the address-error bit, and one with neither. -/
theorem witness_invalid_address_path :
    [Model.m0, .m2, .m4].all (fun m =>
      let s := { live m (oks 3) [] with invAddr := true }
      s.active && decide (s.sends = .ok :: .ok :: .ok :: []) && decide (s.sends = .ok :: oks 2) && s.invAddr) =
      true := by decide

/-- By the target, just above a 16-bit model's space: the widths of `M0` to `M3` are OPEN, so on any model that has
that width. -/
theorem witness_invalid_address_path_target (m : Model) (h : Config.hw.width m = .w16) :
    let s := { live m (oks 3) [] with actAddr := 0x00FFFE }
    ¬ s.target Config.hw s.firstExam ≤ (Config.hw.width s.model).fullMask ∧
      ¬ s.target Config.hw s.firstDep ≤ (Config.hw.width s.model).fullMask := by
  show ¬ (incr Config.hw 0x00FFFE ≤ (Config.hw.width m).fullMask) ∧
    ¬ (incr Config.hw 0x00FFFE ≤ (Config.hw.width m).fullMask)
  rw [h]
  decide

/-- The first and the last address of each window. -/
theorem witness_rom_deposit_rejected :
    ∀ t ∈ [(0x00EA00 : Addr), 0x00EBFF, 0x00F600, 0x00F7FF, 0x3FEA00, 0x3FEBFF, 0x3FF600, 0x3FF7FF],
      let s := { live .m4 [.ok] [] with actAddr := t, firstDep := true }
      s.active = true ∧ s.sends = .ok :: [] ∧ s.invAddr = false ∧ t = s.target Config.hw s.firstDep ∧
        t ≤ (Config.hw.width s.model).fullMask ∧
        ((0xEA00 ≤ t.toNat ∧ t.toNat < 0xEC00) ∨ (0xF600 ≤ t.toNat ∧ t.toNat < 0xF800) ∨
          (Config.hw.width s.model = .w22 ∧
            ((0x3FEA00 ≤ t.toNat ∧ t.toNat < 0x3FEC00) ∨ (0x3FF600 ≤ t.toNat ∧ t.toNat < 0x3FF800)))) := by
  intro t ht
  have h : t ≤ Width.w22.fullMask ∧
      ((0xEA00 ≤ t.toNat ∧ t.toNat < 0xEC00) ∨ (0xF600 ≤ t.toNat ∧ t.toNat < 0xF800) ∨
        ((0x3FEA00 ≤ t.toNat ∧ t.toNat < 0x3FEC00) ∨ (0x3FF600 ≤ t.toNat ∧ t.toNat < 0x3FF800))) := by
    simp only [List.mem_cons, List.not_mem_nil, or_false] at ht
    rcases ht with rfl | rfl | rfl | rfl | rfl | rfl | rfl | rfl <;> decide
  refine ⟨rfl, rfl, rfl, rfl, ?_, ?_⟩
  · show t ≤ (Config.hw.width .m4).fullMask
    rw [Config.hw_width_m4]
    exact h.1
  · exact h.2.imp id (Or.imp id fun h' => ⟨Config.hw_width_m4, h'⟩)

/-- With three sends that succeed: by `inv_addr` both clauses, and by the target the ROM case, at the edges of each
window. (By a target out of range: `witness_invalid_address_path_target`, whose state has the same sends.) -/
theorem witness_rejected_command_frames :
    (let s := { live .m2 (oks 3) [] with invAddr := true };
      s.active = true ∧ s.sends = .ok :: .ok :: .ok :: [] ∧ s.invAddr = true ∧
        (∃ t, exec .cmdX s = .next t) ∧ ∃ t, exec .cmdD s = .next t) ∧
    ∀ t ∈ [(0x00EA00 : Addr), 0x00EBFF, 0x00F600, 0x00F7FF, 0x3FEA00, 0x3FEBFF, 0x3FF600, 0x3FF7FF],
      let s := { live .m4 (oks 3) [] with actAddr := t, firstDep := true }
      s.active = true ∧ s.sends = .ok :: .ok :: .ok :: [] ∧ s.invAddr = false ∧
        inRom (Config.hw.width s.model) (s.target Config.hw s.firstDep) = true ∧ ∃ u, exec .cmdD s = .next u := by
  refine ⟨⟨rfl, rfl, rfl, ⟨_, rfl⟩, _, rfl⟩, fun t ht => ⟨rfl, rfl, rfl, ?_, _, rfl⟩⟩
  show inRom (Config.hw.width .m4) t = true
  rw [Config.hw_width_m4]
  simp only [List.mem_cons, List.not_mem_nil, or_false] at ht
  rcases ht with rfl | rfl | rfl | rfl | rfl | rfl | rfl | rfl <;> decide

/-- For the second clause of `RomDepositRejected`, and for `ConsoleCommandsFrame`. -/
theorem witness_console_commands_frame :
    Instr.cmdX.direction = .inbound ∧ (∃ t, exec .cmdX (live .m4 [] []) = .next t) ∧
      Instr.cmdL.direction = .inbound ∧ ∃ t, exec .cmdL (live .m0 [] []) = .next t :=
  ⟨rfl, ⟨_, rfl⟩, rfl, _, rfl⟩

theorem witness_command_ends_with_status_frame :
    let s := live .m4 (oks 4) [some 1, some 2, some 3, some 4, some 5]
    Instr.cmdD ∈ [Instr.cmdH, .cmdE, .cmdC, .cmdD, .cmdL, .cmdS, .cmdX] ∧ s.active = true ∧
      s.sends = .ok :: .ok :: .ok :: .ok :: [] ∧ [1, 2, 3, 4, 5].length = 5 ∧
      s.rx = [1, 2, 3, 4, 5].map some ++ [] ∧ ∃ t, exec .cmdD s = .next t :=
  ⟨by decide, rfl, rfl, rfl, rfl, _, rfl⟩

theorem witness_continue_never_acknowledges :
    Instr.cmdC ∈ [Instr.cmdC, .cmdS, .cmdH, .cmdE] ∧ ∃ t, exec .cmdC (live .m4 [.ok] []) = .next t :=
  ⟨by decide, _, rfl⟩

/-- The empty mask, and the bit of `RUN`, which is the host's. -/
theorem witness_set_bit_drives_flag :
    let s := live .m4 [] []
    s.active = true ∧ s.flagBreaks Config.hw .f0 0x00 = false ∧
      s.flagBreaks Config.hw Config.hw.layout.run.field (bitMask Config.hw.layout.run) = false := by
  refine ⟨rfl, rfl, ?_⟩
  rw [State.flagBreaks, Bool.and_eq_false_iff]
  refine .inr (List.any_eq_false.mpr fun p hp => ?_)
  simp only [bitMask_getLsbD, Bool.and_eq_true, decide_eq_true_eq, not_and]
  intro hf hb
  have e : p = Config.hw.layout.run := by
    revert hf hb
    generalize Config.hw.layout.run = q
    cases p
    cases q
    rintro rfl hb
    exact congrArg _ (Fin.ext hb)
  exact (Config.hw_hostBits_not_owned _).1 (e ▸ hp)

/-- One bit of each producer. Which models show the ring is OPEN: on any that does. -/
theorem witness_set_bit_on_owned_bit_refused (m : Model) (h : Config.hw.hasRing m = true) :
    ((live .m4 [] []).active = true ∧
        (bitMask Config.hw.layout.w16).getLsbD Config.hw.layout.w16.bit.val = true ∧ (live .m4 [] []).model = .m4) ∧
      ((live .m0 [] []).active = true ∧
        (bitMask Config.hw.layout.virt).getLsbD Config.hw.layout.virt.bit.val = true ∧
        (live .m0 [] []).model ≠ .m4) ∧
      ((live m [] []).active = true ∧
        (bitMask Config.hw.layout.ringLo).getLsbD Config.hw.layout.ringLo.bit.val = true ∧
        Config.hw.hasRing (live m [] []).model = true) := by
  simp only [bitMask_getLsbD, decide_true]
  exact ⟨⟨rfl, trivial, rfl⟩, ⟨rfl, trivial, by decide⟩, rfl, trivial, h⟩

/-- For `SetRingShowsLevel`, `SetMmuShowsWidth` and the first clause of `PlacedWordRunsNext`. -/
theorem witness_active : (live .m4 [] []).active = true ∧ (live .m0 [] []).active = true := by decide

/-- For `StatusManagerIdempotent` and `StatusManagerFrame`. -/
theorem witness_status_manager :
    let i := Instr.setMmu true false
    let s := live .m4 [] []
    let s' := { live .m4 (oks 2) [none] with rot := 0x07 }
    i.direction = .call ∧ (∀ a d, i ≠ .tick a d) ∧ (∃ t, exec i s = .next t) ∧ s'.s0 = s.s0 ∧ s'.s1 = s.s1 ∧
      s'.model = s.model ∧ s'.active = s.active ∧ (∃ t', exec i s' = .next t') ∧
      { s with connected := false }.active = false :=
  ⟨rfl, (by intro a d h; cases h), ⟨_, rfl⟩, rfl, rfl, rfl, rfl, ⟨_, rfl⟩, rfl⟩

theorem witness_tick_sends_display_frame :
    let s := { live .m2 [.ok] [] with updateCount := 3 }
    s.active = true ∧ s.updateCount + 1 ≠ 5 ∧ s.sends = .ok :: [] := by decide

/-- Both sides of the poll's choice. -/
theorem witness_fifth_tick_sends_status_and_polls :
    ∀ x : Option Byte, x ∈ [some 0x48, some 0x78, none] →
      let s := { live .m4 (oks 3) [x] with updateCount := 4, rotaryCount := 1 }
      s.active = true ∧ s.updateCount = 4 ∧ s.rotaryCount + 1 ≠ 3 ∧ s.sends = .ok :: .ok :: .ok :: [] ∧
        s.rx = x :: [] := fun _ _ => ⟨rfl, rfl, (by decide : 1 + 1 ≠ 3), rfl, rfl⟩

/-- Some model has rotary knobs and some has none (10_state.md R12). On either, an answer that is the code of `H`
included, none, and both sides of the poll's choice. -/
theorem witness_fifteenth_tick_polls_rotary :
    (∃ m, Config.hw.rotary m = true) ∧ (∃ m, Config.hw.rotary m = false) ∧
      ∀ m, ∀ y ∈ [some 0x05, some 0x48, none], ∀ x ∈ [some 0x48, some 0x78, none],
        let s := { live m (oks 4) [y, x] with updateCount := 4, rotaryCount := 2 }
        s.active = true ∧ s.updateCount = 4 ∧ s.rotaryCount = 2 ∧ s.sends = .ok :: .ok :: .ok :: .ok :: [] ∧
          s.rx = y :: x :: [] := by
  refine ⟨?_, ?_, fun _ _ _ _ _ => ⟨rfl, rfl, rfl, rfl, rfl⟩⟩
  · by_contra h
    have h' : ∀ m, Config.hw.rotary m = false := by simpa using h
    have := Config.hw_two_rotary
    rw [List.countP_eq_zero.mpr fun m _ => by simp [h' m]] at this
    exact absurd this (by decide)
  · by_contra h
    have h' : ∀ m, Config.hw.rotary m = true := by simpa using h
    have := Config.hw_two_rotary
    rw [List.countP_eq_length.mpr fun m _ => h' m] at this
    exact absurd this (by decide)

theorem witness_failed_tick_is_skipped :
    let s := { live .m4 [.fail 2] [] with updateCount := 4 }
    s.active = true ∧ s.sends = .fail 2 :: [] := by decide

/-- On a fifth tick and off it. -/
theorem witness_tick_frame :
    (∃ t, exec (.tick 0 0) { live .m4 [] [] with updateCount := 4 } = .next t) ∧
      (∃ t, exec (.tick 0 0) (live .m4 [] []) = .next t) ∧ (live .m4 [] []).updateCount + 1 ≠ 5 ∧
      (let s := { live .m4 (oks 3) [none, some 0x45, some 0x48] with updateCount := 4, rotaryCount := 2 };
        2 ≤ s.rx.length ∧ (∀ x ∈ s.rx.take 2, x ≠ some 0x48) ∧ ∃ t, exec (.tick 0 0) s = .next t) :=
  ⟨⟨_, rfl⟩, ⟨_, rfl⟩, by decide, by decide, by simp [live], _, rfl⟩

/-- At the counters' last values, with reads that find nothing and one that finds another byte. -/
theorem witness_fifteen_ticks_keep_ratio :
    let s := { live .m4 (oks 19) [none, none, some 0x45, none] with updateCount := 4, rotaryCount := 2 }
    s.active = true ∧ CountersBelow Config.hw s ∧ 19 ≤ s.sends.length ∧ (∀ r ∈ s.sends, r = .ok) ∧
      4 ≤ s.rx.length ∧ ∀ x ∈ s.rx, x ≠ some 0x48 :=
  ⟨rfl, ⟨by decide, by decide⟩, by decide, by decide, by decide, by simp [live]⟩

theorem witness_step_keeps_invariant :
    Inv Config.hw (asked [.invoke .sendF]) ∧ ∃ t, step (asked [.invoke .sendF]) = .next t :=
  ⟨inv_of_zero rfl rfl rfl rfl rfl (by intro e he; cases he) ⟨fun _ => rfl, fun _ => rfl⟩, _, rfl⟩

/-- One operation that is neither producer, on the widest model and on another; and each producer. -/
theorem witness_owned_bits_have_one_producer :
    (∃ t, exec (.setRing .user) (live .m4 [] []) = .next t) ∧ (∀ e18 e22, Instr.setRing .user ≠ .setMmu e18 e22) ∧
      (∃ t, exec (.setMmu true false) (live .m0 [] []) = .next t) ∧
      (∀ level, Instr.setMmu true false ≠ .setRing level) ∧ (live .m4 [] []).model = .m4 ∧
      (live .m0 [] []).model ≠ .m4 :=
  ⟨⟨_, rfl⟩, (by intro a b h; cases h), ⟨_, rfl⟩, (by intro l h; cases h), rfl, by decide⟩

/-- Turning translation on sets the virtual-addressing bit, which is clear at reset. -/
theorem mmu_writes_status :
    ¬ SameStatus (live .m0 [] []) ((live .m0 [] []).writeBit Config.hw.layout.virt true) := by
  intro h
  have e := State.statusBit_congr h.1 h.2 Config.hw.layout.virt
  rw [State.statusBit_writeBit_same] at e
  revert e
  rcases Config.hw.layout.virt with ⟨f, b⟩
  cases f <;> simp [State.statusBit, State.status, live, State.reset]

/-- Operations that do write each of the registers named. -/
theorem witness_registers_have_named_writers :
    (∃ t, exec (.setMmu true false) (live .m0 [] []) = .next t ∧ ¬ SameStatus (live .m0 [] []) t) ∧
      (∃ t, exec .cmdH (live .m0 [.ok] []) = .next t ∧ t.haltMode ≠ .run) ∧
      (let s := { live .m0 (oks 4) ((oks 5).map fun _ => some 0x00) with invAddr := true };
        ∃ t, exec .cmdL s = .next t ∧ t.invAddr ≠ true ∧ t.firstExam ≠ false ∧ t.firstDep ≠ false) ∧
      (∃ t, exec .sendR (live .m0 [.ok] [some 7]) = .next t ∧ t.rot ≠ 0x00) ∧
      (∃ t, exec .sendQ (live .m0 [.ok] [some 7, some 7, some 7, some 7, some 7]) = .next t ∧
        t.sw ≠ State.reset.sw) ∧
      (∃ t, exec (.sendAck 1 2) (live .m0 [.fail 0] []) = .next t ∧ t.ackq ≠ none) ∧
      (∃ t, exec (.tick 0 0) (live .m0 [.ok] []) = .next t ∧ ¬ SameCounters (live .m0 [.ok] []) t) :=
  ⟨⟨_, rfl, mmu_writes_status⟩, ⟨_, rfl, by decide⟩, ⟨_, rfl, by decide, by decide, by decide⟩, ⟨_, rfl, by decide⟩,
    ⟨_, rfl, by decide⟩, ⟨_, rfl, by decide⟩, ⟨_, rfl, fun h => absurd h.1 (by decide)⟩⟩

/-- For `HistoriesOnlyGrow`, and each clause of `OnlyTheTenTagsAreEmitted`. -/
theorem witness_only_the_ten_tags_are_emitted :
    (∃ t, step (asked [.poll]) = .next t) ∧
      ((asked [.poll]).active = true ∧ (asked [.poll]).events = .poll :: [] ∧ (asked [.poll]).rx = some 0x48 :: []) ∧
      (0x48 : Byte) ∈ [(0x48 : Byte), 0x45, 0x63, 0x64, 0x6C, 0x73, 0x78] ∧
      (0x00 : Byte) ∉ [(0x48 : Byte), 0x45, 0x63, 0x64, 0x6C, 0x73, 0x78] ∧
      (0x68 : Byte) ∉ [(0x48 : Byte), 0x45, 0x63, 0x64, 0x6C, 0x73, 0x78] :=
  ⟨⟨_, rfl⟩, by decide, by decide, by decide, by decide⟩

end Sys2Proof.Machine.Tests
end

section
/-! PROOFS. The responses of the panel (30_encoding.md R77): only the two queries read the inbound stream, and each
stores what it read. -/

namespace Sys2Proof.Machine

/-! ## The meanings of the queries, and of the frames without a response -/

/-- The meaning of `SEND_Q` while the link is up. -/
theorem exec_sendQ_active {s : State} (h : s.active = true) : exec .sendQ s = .next (querySwitches s).state :=
  congrArg _ (State.guarded_active h querySwitches)

/-- The meaning of `SEND_R` while the link is up. -/
theorem exec_sendR_active {s : State} (h : s.active = true) : exec .sendR s = .next (queryRotary s).state :=
  congrArg _ (State.guarded_active h queryRotary)

/-- An outbound operation other than the two queries is one guarded `Send`, bare or as an acknowledge. -/
theorem exec_outbound_cases {i : Instr} {s t : State} (ho : i.direction = .outbound) (hq : i ≠ .sendQ)
    (hr : i ≠ .sendR) (e : exec i s = .next t) :
    (∃ frame, t = s.guarded (send frame)) ∨ ∃ k, t = s.guarded (acknowledge k) := by
  cases i with
  | sendQ => exact absurd rfl hq
  | sendR => exact absurd rfl hr
  | sendAck port mask => cases e; exact .inr ⟨_, rfl⟩
  | sendA a => cases e; exact .inl ⟨_, rfl⟩
  | sendD d => cases e; exact .inl ⟨_, rfl⟩
  | sendB a d => cases e; exact .inl ⟨_, rfl⟩
  | sendU a d => cases e; exact .inl ⟨_, rfl⟩
  | sendF => cases e; exact .inl ⟨_, rfl⟩
  | sendClearI => cases e; exact .inl ⟨_, rfl⟩
  | sendClearA => cases e; exact .inl ⟨_, rfl⟩
  | _ => cases ho

/-! ## Nothing read, nothing stored -/

/-- The panel's input is unread and the registers that take responses are those of `s`. -/
def SameResponses (s t : State) : Prop := t.rx = s.rx ∧ t.sw = s.sw ∧ t.rot = s.rot

/-- No part of a `Send` reads the panel or stores a response, whatever the frame and its outcome. -/
theorem keptBySend_sameResponses (s : State) : KeptBySend (SameResponses s) fun _ => True where
  answered _ _ _ h := h
  recorded _ _ _ _ _ h := h
  failed _ h := h
  abandoned _ h := h

/-- Only the queries have a response. -/
theorem exec_outbound_sameResponses {i : Instr} {s t : State} (ho : i.direction = .outbound) (hq : i ≠ .sendQ)
    (hr : i ≠ .sendR) (e : exec i s = .next t) : SameResponses s t := by
  have before : SameResponses s s := ⟨rfl, rfl, rfl⟩
  have k := keptBySend_sameResponses s
  obtain ⟨frame, rfl⟩ | ⟨ack, rfl⟩ := exec_outbound_cases ho hq hr e
  · exact State.guarded_keeps before fun _ => keep_send k trivial before
  · exact State.guarded_keeps before fun _ => keep_acknowledge k (fun _ _ h => h) trivial before

/-! ## The obligation -/

/-- Settles O20: each query by its result when the transport takes the frame and the panel answers; the other frames
because no part of their `Send` reads the panel. -/
theorem queriesStoreResponses : Obligations.QueriesStoreResponses := by
  refine ⟨fun s rest b0 b1 b2 b3 b4 rx ha hs hx => ?_, fun s rest b rx ha hs hx => ?_,
    fun i s t ho hq hr e => exec_outbound_sameResponses ho hq hr e⟩
  · rw [exec_sendQ_active ha, querySwitches_ok hs hx]
    exact ⟨_, rfl⟩
  · rw [exec_sendR_active ha, queryRotary_ok hs hx]
    exact ⟨_, rfl⟩

end Sys2Proof.Machine
end

section
/-! PROOFS. The inbound bytes that select no command (41_inbound_decode.md R107, R109): the decoder sends them to
`CMD_NUL` and `CMD_IGN`, whose meanings change nothing, and a poll that finds one consumes it. -/

namespace Sys2Proof.Machine

/-! ## The two operations without an effect -/

/-- The operation that goes on with the state it was given changes nothing, whether its guard lets it run or not. -/
theorem State.guarded_on (s : State) : s.guarded .on = s := by
  cases ha : s.active with
  | true => exact State.guarded_active ha .on
  | false => exact State.guarded_inactive ha .on

/-- The meaning of `CMD_NUL`: "no command pending" runs as the operation that just goes on. -/
theorem exec_cmdNul (s : State) : exec .cmdNul s = .next s := congrArg _ (State.guarded_on s)

/-- The meaning of `CMD_IGN`, whatever byte it carries. -/
theorem exec_cmdIgn (b : Byte) (s : State) : exec (.cmdIgn b) s = .next s := congrArg _ (State.guarded_on s)

/-! ## The poll and the decoder -/

/-- A poll of an active block that finds a byte consumes it and runs the operation it selects (R113). -/
theorem step_poll_byte {s : State} {rest : List Event} {b : Byte} {rx : List (Option Byte)} (ha : s.active = true)
    (he : s.events = .poll :: rest) (hx : s.rx = some b :: rx) :
    step s = exec (decodeIn b) { s with events := rest, rx := rx } := by
  have hact : (s.setEvents rest).active = true := ha
  have htake : (s.setEvents rest).takeRx = (some b, (s.setEvents rest).setRx rx) := State.takeRx_cons hx
  simp only [step, fetch, he, takeEvent, pollCommand, hact, if_true, State.pollRecv, htake]
  rfl

/-- A byte outside the eight selects `CMD_IGN` with that byte. -/
theorem decodeIn_ignored {b : Byte} (h : reservedInboundBytes.contains b = false) : decodeIn b = .cmdIgn b := by
  rw [decodeIn, decodeSymbol_ignored h, Symbol.instr]

/-! ## The obligations -/

/-- Settles O26: the decoder gives byte 0 the operation `CMD_NUL`, and that operation has no effect. -/
theorem noCommandDoesNothing : Obligations.NoCommandDoesNothing :=
  ⟨by decide, exec_cmdNul⟩

/-- Settles O27: such a byte selects `CMD_IGN`, so the poll that consumes it runs an operation without an effect. -/
theorem otherBytesAreIgnored : Obligations.OtherBytesAreIgnored := by
  intro b hNul hE hH hC hD hL hS hX
  have hout : reservedInboundBytes.contains b = false := by
    simpa [reservedInboundBytes] using ⟨hNul, hE, hH, hC, hD, hL, hS, hX⟩
  have hdec : decodeIn b = .cmdIgn b := decodeIn_ignored hout
  refine ⟨hdec, exec_cmdIgn b, fun s rest rx ha he hx => ?_⟩
  rw [step_poll_byte ha he hx, hdec, exec_cmdIgn]

end Sys2Proof.Machine
end

section
/-! PROOFS. The status-manager operations are idempotent functions of `S` and their operands (42_status_manager.md
R121): each drives a fixed set of status bits to fixed values, and which bits and values rests on the operands and the
model alone. -/

namespace Sys2Proof.Machine

/-! ## Driving a set of status bits -/

/-- `t` is `s` with the status bits that `d` names driven to the values it gives them. -/
structure Drives (d : BitPos → Option Bool) (s t : State) : Prop where
  only : ∃ v0 v1, t = { s with s0 := v0, s1 := v1 }
  bits : ∀ p, t.statusBit p = (d p).getD (s.statusBit p)

/-- Two states with the same status bits have the same status fields. -/
theorem sameStatus_of_statusBit {s t : State} (h : ∀ p, t.statusBit p = s.statusBit p) : SameStatus s t :=
  ⟨BitVec.eq_of_getLsbD_eq fun k hk => h ⟨.f0, k, hk⟩, BitVec.eq_of_getLsbD_eq fun k hk => h ⟨.f1, k, hk⟩⟩

namespace Drives

variable {d : BitPos → Option Bool} {s s' t t' u : State}

theorem model_eq (h : Drives d s t) : t.model = s.model := by
  obtain ⟨v0, v1, rfl⟩ := h.only
  rfl

theorem active_eq (h : Drives d s t) : t.active = s.active := by
  obtain ⟨v0, v1, rfl⟩ := h.only
  rfl

theorem refl (s : State) : Drives (fun _ => none) s s where
  only := ⟨s.s0, s.s1, rfl⟩
  bits _ := rfl

/-- The result of a drive rests on the prior status fields only. -/
theorem sameStatus (h : Drives d s t) (h' : Drives d s' t') (hs : SameStatus s s') : SameStatus t t' :=
  sameStatus_of_statusBit fun p => by rw [h'.bits, h.bits, State.statusBit_congr hs.1 hs.2]

/-- Driving the same bits again changes nothing. -/
theorem idem (h : Drives d s t) (h' : Drives d t u) : u = t := by
  have hbits : SameStatus t u := sameStatus_of_statusBit fun p => by
    rw [h'.bits, h.bits]
    cases d p <;> rfl
  obtain ⟨v0, v1, rfl⟩ := h'.only
  obtain ⟨rfl, rfl⟩ := hbits
  rfl

end Drives

/-! ## What each operation drives -/

/-- `set_bit` names the bits of the mask in its field (R122). -/
def flagDrive (f : StatusField) (flag : Byte) (on : Bool) (p : BitPos) : Option Bool :=
  if p.field = f ∧ flag.getLsbD p.bit.val = true then some on else none

/-- `set_ring_protection` names the two ring bits (R123). -/
def ringDrive (l : StatusLayout) (code : BitVec 2) (p : BitPos) : Option Bool :=
  if p = l.ringLo then some (code.getLsbD 0) else if p = l.ringHi then some (code.getLsbD 1) else none

/-- `set_mmu_mode` names the virtual-addressing bit or the three width bits (R124). -/
def widthDrive (l : StatusLayout) (rule : MmuRule) (w : Width) (p : BitPos) : Option Bool :=
  match rule with
  | .singleVirtualBit => if p = l.virt then some (decide (w ≠ .w16)) else none
  | .threeWidthBits =>
    if p = l.w22 then some (decide (w = .w22))
    else if p = l.w18 then some (decide (w = .w18))
    else if p = l.w16 then some (decide (w = .w16)) else none

theorem State.driveStatus_drives (s : State) (f : StatusField) (flag : Byte) (on : Bool) :
    Drives (flagDrive f flag on) s (s.driveStatus f flag on) where
  only := s.driveStatus_only f flag on
  bits p := by
    rw [State.statusBit_driveStatus, flagDrive]
    split <;> rfl

theorem State.writeRing_drives (s : State) (l : StatusLayout) (code : BitVec 2) :
    Drives (ringDrive l code) s (s.writeRing l code) where
  only := s.writeRing_only l code
  bits p := by
    rw [State.statusBit_writeRing, ringDrive]
    split_ifs <;> rfl

theorem State.writeWidth_drives (s : State) (l : StatusLayout) (rule : MmuRule) (w : Width) :
    Drives (widthDrive l rule w) s (s.writeWidth l rule w) where
  only := s.writeWidth_only l rule w
  bits p := by
    rw [State.statusBit_writeWidth]
    cases rule with
    | singleVirtualBit => dsimp only [widthDrive]; split <;> rfl
    | threeWidthBits => dsimp only [widthDrive]; split_ifs <;> rfl

/-- On a model without ring display no bit is driven (R123). -/
theorem State.applyRing_drives (c : Config) (s : State) (level : RingLevel) :
    Drives (if c.hasRing s.model then ringDrive c.layout (c.ringCode.code level) else fun _ => none) s
      (s.applyRing c level) := by
  rw [State.applyRing, Config.profile_hasRing]
  split
  · exact s.writeRing_drives c.layout _
  · exact Drives.refl s

theorem State.applyMmu_drives (c : Config) (s : State) (e18 e22 : Bool) :
    Drives (widthDrive c.layout s.model.mmuRule (c.widthOf e18 e22)) s (s.applyMmu c e18 e22) :=
  s.writeWidth_drives c.layout _ _

/-! ## The operations -/

/-- The meaning of `SET_BIT` while the link is up: on an allowed mask the drive, on any other the refusal. -/
theorem exec_setBit_active {s : State} (ha : s.active = true) (f : StatusField) (flag : Byte) (on : Bool) :
    exec (.setBit f flag on) s =
      if s.flagBreaks Config.hw f flag = true then .refused .bitOwnedByAnotherProducer
      else .next (s.driveStatus f flag on) := if_pos ha

/-- The meaning of `SET_RING` while the link is up. -/
theorem exec_setRing_active {s : State} (ha : s.active = true) (level : RingLevel) :
    exec (.setRing level) s = .next (s.applyRing Config.hw level) := congrArg _ (State.guarded_active ha _)

/-- The meaning of `SET_MMU` while the link is up. -/
theorem exec_setMmu_active {s : State} (ha : s.active = true) (e18 e22 : Bool) :
    exec (.setMmu e18 e22) s = .next (s.applyMmu Config.hw e18 e22) := congrArg _ (State.guarded_active ha _)

/-- A status-manager operation that answers a next state on an active `s` answers one on every active state of that
model, and drives there the same bits to the same values. -/
theorem exec_statusManager_active {i : Instr} {s t : State} (hi : i.direction = .call) (ht : ∀ a d, i ≠ .tick a d)
    (ha : s.active = true) (e : exec i s = .next t) :
    ∃ d, ∀ u : State, u.model = s.model → u.active = true → ∃ u', exec i u = .next u' ∧ Drives d u u' := by
  cases i with
  | setBit f flag on =>
    refine ⟨_, fun u hm hu => ⟨_, ?_, u.driveStatus_drives f flag on⟩⟩
    have allowed : ¬ s.flagBreaks Config.hw f flag = true := fun hb => by
      rw [exec_setBit_active ha, if_pos hb] at e
      cases e
    have sameOwner : u.flagBreaks Config.hw f flag = s.flagBreaks Config.hw f flag := by
      rw [State.flagBreaks, hm, State.flagBreaks]
    rw [exec_setBit_active hu, sameOwner, if_neg allowed]
  | setRing level =>
    exact ⟨_, fun u hm hu => ⟨_, exec_setRing_active hu level, hm ▸ u.applyRing_drives Config.hw level⟩⟩
  | setMmu e18 e22 =>
    exact ⟨_, fun u hm hu => ⟨_, exec_setMmu_active hu e18 e22, hm ▸ u.applyMmu_drives Config.hw e18 e22⟩⟩
  | tick a d => exact absurd rfl (ht a d)
  | _ => cases hi

/-- While inactive a status-manager operation does nothing (R127). -/
theorem exec_statusManager_inactive {i : Instr} {s : State} (hi : i.direction = .call) (ht : ∀ a d, i ≠ .tick a d)
    (ha : s.active = false) : exec i s = .next s := by
  cases i with
  | setBit f flag on => exact if_neg (ha ▸ Bool.false_ne_true)
  | setRing level => exact congrArg _ (State.guarded_inactive ha _)
  | setMmu e18 e22 => exact congrArg _ (State.guarded_inactive ha _)
  | tick a d => exact absurd rfl (ht a d)
  | _ => cases hi

/-- Active or not, a status-manager operation that answers a next state on `s` answers one on every state of the same
model and activity, and drives there the same bits to the same values. -/
theorem exec_statusManager_drives {i : Instr} {s t : State} (hi : i.direction = .call) (ht : ∀ a d, i ≠ .tick a d)
    (e : exec i s = .next t) :
    ∃ d, ∀ u : State, u.model = s.model → u.active = s.active → ∃ u', exec i u = .next u' ∧ Drives d u u' := by
  cases ha : s.active with
  | true => exact exec_statusManager_active hi ht ha e
  | false => exact ⟨_, fun u _ hu => ⟨u, exec_statusManager_inactive hi ht hu, Drives.refl u⟩⟩

/-! ## The obligation -/

/-- Settles O47: driving the same bits to the same values again changes nothing, and what the drive leaves in a
status field is the bits driven and, elsewhere, the prior ones. -/
theorem statusManagerIdempotent : Obligations.StatusManagerIdempotent := by
  intro i s t hi ht e
  obtain ⟨d, run⟩ := exec_statusManager_drives hi ht e
  have driven {u u' : State} (hm : u.model = s.model) (hu : u.active = s.active) (eu : exec i u = .next u') :
      Drives d u u' := by
    obtain ⟨v, ev, h⟩ := run u hm hu
    cases ev.symm.trans eu
    exact h
  have once : Drives d s t := driven rfl rfl e
  refine ⟨?_, fun s' t' h0 h1 hm hu e' => once.sameStatus (driven hm hu e') ⟨h0, h1⟩⟩
  obtain ⟨u, eu, twice⟩ := run t once.model_eq once.active_eq
  rw [eu, once.idem twice]

end Sys2Proof.Machine
end

section
/-! PROOFS. While the link is lost or the block dormant every operation is a no-op, and so is the poll
(60_exceptions.md R185, 40_outbound_frames.md R90): the mode is not active, and the guards answer the same state. -/

namespace Sys2Proof.Machine

/-- A lost link or a dormant block is not active, attached or not (60_exceptions.md R193). -/
theorem State.active_eq_false {s : State} (h : s.connected = false ∨ s.dormant = true) : s.active = false := by
  obtain hlost | hdormant := h
  · simp [State.active, hlost]
  · simp [State.active, hdormant]

/-- While inactive no operation does anything: the status manager by R127, the tick and the operations of the two
directions by the guard put before them. -/
theorem exec_inactive {s : State} (ha : s.active = false) (i : Instr) : exec i s = .next s := by
  cases i with
  | setBit field flag on => exact exec_statusManager_inactive rfl nofun ha
  | setRing level => exact exec_statusManager_inactive rfl nofun ha
  | setMmu e18 e22 => exact exec_statusManager_inactive rfl nofun ha
  | _ => exact congrArg _ (State.guarded_inactive ha _)

/-- A poll while inactive is used up and reads nothing of the panel's input (R113). -/
theorem step_poll_inactive {s : State} {rest : List Event} (ha : s.active = false) (he : s.events = .poll :: rest) :
    step s = .next { s with events := rest } := by
  have hact : (s.setEvents rest).active = false := ha
  simp only [step, fetch, he, takeEvent, pollCommand, hact, Bool.false_eq_true, if_false]
  rfl

/-- Settles O15: either loss makes the block inactive, and an inactive block skips its operations and its poll. -/
theorem inactiveIsNoOp : Obligations.InactiveIsNoOp := by
  intro s h
  have ha : s.active = false := State.active_eq_false h
  exact ⟨exec_inactive ha, fun _ he => step_poll_inactive ha he⟩

end Sys2Proof.Machine
end

section
/-! PROOFS. The wire encoding: a byte of the inbound alphabet and its operation determine each other, and the frame
decoder and the frame encoder are inverse to each other (30_encoding.md R62 to R69, 41_inbound_decode.md R100). -/

namespace Sys2Proof

/-! ## The address and data fields, bit by bit (30_encoding.md R63, R64, R68) -/

/-- Each bit of a decoded address is a bit of one of its three bytes. -/
theorem getLsbD_decAddr (ah am al : Byte) (k : Nat) :
    (decAddr ah am al).getLsbD k =
      if k < 8 then al.getLsbD k else if k < 16 then am.getLsbD (k - 8) else ah.getLsbD (k - 16) := by
  have hm : 8 ≤ k - 8 → am.getLsbD (k - 8) = false := am.getLsbD_of_ge _
  have hl : 8 ≤ k → al.getLsbD k = false := al.getLsbD_of_ge _
  have hh : 8 ≤ k - 16 → ah.getLsbD (k - 16) = false := ah.getLsbD_of_ge _
  simp only [decAddr, BitVec.getLsbD_or, BitVec.getLsbD_shiftLeft, BitVec.getLsbD_setWidth]
  split_ifs <;> grind

/-- Each bit of a decoded datum is a bit of one of its two bytes. -/
theorem getLsbD_decData (dh dl : Byte) (k : Nat) :
    (decData dh dl).getLsbD k = if k < 8 then dl.getLsbD k else dh.getLsbD (k - 8) := by
  have hl : 8 ≤ k → dl.getLsbD k = false := dl.getLsbD_of_ge _
  have hh : 8 ≤ k - 8 → dh.getLsbD (k - 8) = false := dh.getLsbD_of_ge _
  simp only [decData, BitVec.getLsbD_or, BitVec.getLsbD_shiftLeft, BitVec.getLsbD_setWidth]
  split_ifs <;> grind

/-- The full mask of a width is the two low bytes and, above them, the mask of the top byte. -/
theorem Width.getLsbD_fullMask (wm : Width) (k : Nat) :
    wm.fullMask.getLsbD k = if k < 16 then true else wm.topMask.getLsbD (k - 16) := by
  by_cases hk : k < 22
  · have low : ∀ j : Fin 22, wm.fullMask.getLsbD j = if j.val < 16 then true else wm.topMask.getLsbD (j - 16) := by
      cases wm <;> decide
    exact low ⟨k, hk⟩
  · rw [BitVec.getLsbD_of_ge _ _ (by omega), if_neg (by omega)]
    by_cases hk' : k - 16 < 8
    · have top : ∀ j : Fin 8, 6 ≤ j.val → false = wm.topMask.getLsbD j := by cases wm <;> decide
      exact top ⟨k - 16, hk'⟩ (by simp only; omega)
    · exact (BitVec.getLsbD_of_ge _ _ (by omega)).symm

/-- The top address byte on the wire: the high bits of the address, those above the mode masked off (R63). -/
def topByte (wm : Width) (a : Addr) : Byte := (a.extractLsb' 16 6).setWidth 8 &&& wm.topMask

theorem addrBytes_three (wm : Width) (a : Addr) :
    addrBytes wm .three a = [topByte wm a, a.extractLsb' 8 8, a.extractLsb' 0 8] := rfl

theorem addrBytes_two (wm : Width) (a : Addr) : addrBytes wm .two a = [a.extractLsb' 8 8, a.extractLsb' 0 8] := rfl

theorem getLsbD_topByte (wm : Width) (a : Addr) (k : Nat) :
    (topByte wm a).getLsbD k = (a.getLsbD (16 + k) && wm.topMask.getLsbD k) := by
  have ha : 22 ≤ 16 + k → a.getLsbD (16 + k) = false := a.getLsbD_of_ge _
  have ht : 8 ≤ k → wm.topMask.getLsbD k = false := wm.topMask.getLsbD_of_ge _
  simp only [topByte, BitVec.getLsbD_and, BitVec.getLsbD_setWidth, BitVec.getLsbD_extractLsb']
  grind

/-- No bit of the top byte is above the mode (R63). -/
theorem topByte_within_mode (wm : Width) (a : Addr) : topByte wm a &&& ~~~wm.topMask = 0 := by
  rw [topByte, BitVec.and_assoc, BitVec.and_not_self]
  exact BitVec.and_zero

/-- Decoding the address bytes gives the address masked to the width mode (R68). -/
theorem decAddr_addrBytes (wm : Width) (a : Addr) :
    decAddr (topByte wm a) (a.extractLsb' 8 8) (a.extractLsb' 0 8) = (a &&& wm.fullMask).setWidth 24 := by
  refine BitVec.eq_of_getLsbD_eq fun k hk => ?_
  have hm := wm.getLsbD_fullMask k
  rw [getLsbD_decAddr, BitVec.getLsbD_setWidth, BitVec.getLsbD_and, hm, getLsbD_topByte]
  simp only [BitVec.getLsbD_extractLsb']
  grind

/-- Decoding the data bytes gives the datum (R68). -/
theorem decData_dataBytes (d : Datum) : decData (d.extractLsb' 8 8) (d.extractLsb' 0 8) = d := by
  refine BitVec.eq_of_getLsbD_eq fun k hk => ?_
  rw [getLsbD_decData]
  simp only [BitVec.getLsbD_extractLsb']
  grind

/-- Encoding a decoded datum gives its bytes back. -/
theorem dataBytes_decData (dh dl : Byte) : dataBytes (decData dh dl) = [dh, dl] := by
  have high : (decData dh dl).extractLsb' 8 8 = dh := BitVec.eq_of_getLsbD_eq fun k hk => by
    rw [BitVec.getLsbD_extractLsb', getLsbD_decData]
    grind
  have low : (decData dh dl).extractLsb' 0 8 = dl := BitVec.eq_of_getLsbD_eq fun k hk => by
    rw [BitVec.getLsbD_extractLsb', getLsbD_decData]
    grind
  rw [dataBytes, high, low]

/-- A top byte without bits above the mode has only bits of the mode. -/
theorem getLsbD_of_within_mode {wm : Width} {ah : Byte} (h : ah &&& ~~~wm.topMask = 0) (k : Nat) :
    (ah.getLsbD k && wm.topMask.getLsbD k) = ah.getLsbD k := by
  have hz : (ah &&& ~~~wm.topMask).getLsbD k = false := h ▸ BitVec.getLsbD_zero
  have hk : 8 ≤ k → ah.getLsbD k = false := ah.getLsbD_of_ge _
  rw [BitVec.getLsbD_and, BitVec.getLsbD_not] at hz
  grind

/-- Encoding a decoded address gives its bytes back, when the top byte has no bit above the mode. -/
theorem addrBytes_decAddr {wm : Width} {ah am al : Byte} (h : ah &&& ~~~wm.topMask = 0) :
    addrBytes wm .three ((decAddr ah am al).setWidth 22) = [ah, am, al] := by
  have top : topByte wm ((decAddr ah am al).setWidth 22) = ah := BitVec.eq_of_getLsbD_eq fun k hk => by
    have hm := wm.getLsbD_fullMask (k + 16)
    have hw : 22 ≤ k + 16 → wm.fullMask.getLsbD (k + 16) = false := wm.fullMask.getLsbD_of_ge _
    have hb := getLsbD_of_within_mode h k
    rw [getLsbD_topByte, BitVec.getLsbD_setWidth, getLsbD_decAddr]
    grind
  have mid : ((decAddr ah am al).setWidth 22).extractLsb' 8 8 = am := BitVec.eq_of_getLsbD_eq fun k hk => by
    rw [BitVec.getLsbD_extractLsb', BitVec.getLsbD_setWidth, getLsbD_decAddr]
    grind
  have low : ((decAddr ah am al).setWidth 22).extractLsb' 0 8 = al := BitVec.eq_of_getLsbD_eq fun k hk => by
    rw [BitVec.getLsbD_extractLsb', BitVec.getLsbD_setWidth, getLsbD_decAddr]
    grind
  rw [addrBytes_three, top, mid, low]

/-! ## Which addresses survive the field -/

/-- The address survives the address field of this width mode and length (R63, R67). -/
def FieldHolds (wm : Width) (alen : AddrLen) (a : Addr) : Prop := a ≤ wm.fullMask ∧ (alen = .two → a ≤ 0xFFFF)

/-- A masked address is within the mask, and an address within the mask is not changed by it (20_memory.md R41). -/
theorem Width.le_fullMask_iff (wm : Width) (a : Addr) : a ≤ wm.fullMask ↔ a &&& wm.fullMask = a := by
  constructor
  · intro h
    apply BitVec.eq_of_toNat_eq
    rw [BitVec.toNat_and]
    rw [BitVec.le_def] at h
    cases wm with
    | w16 => exact Nat.and_two_pow_sub_one_of_lt_two_pow (n := 16) (Nat.lt_succ_of_le h)
    | w18 => exact Nat.and_two_pow_sub_one_of_lt_two_pow (n := 18) (Nat.lt_succ_of_le h)
    | w22 => exact Nat.and_two_pow_sub_one_of_lt_two_pow (n := 22) (Nat.lt_succ_of_le h)
  · intro h
    rw [← h, BitVec.le_def, BitVec.toNat_and]
    exact Nat.and_le_right

/-- An address within the mode is decoded from its own three bytes. -/
theorem decAddr_addrBytes_of_le {wm : Width} {a : Addr} (h : a ≤ wm.fullMask) :
    (decAddr (topByte wm a) (a.extractLsb' 8 8) (a.extractLsb' 0 8)).setWidth 22 = a := by
  rw [decAddr_addrBytes, (wm.le_fullMask_iff a).mp h, BitVec.setWidth_setWidth_of_le _ (by decide),
    BitVec.setWidth_eq]

/-- Two address bytes are three with a zero on top, in the narrowest mode. -/
theorem topByte_w16 (a : Addr) : topByte .w16 a = 0 := BitVec.and_zero

/-- What three address bytes decode to is within the mode, when the top one is. -/
theorem decAddr_le_fullMask {wm : Width} {ah am al : Byte} (h : ah &&& ~~~wm.topMask = 0) :
    (decAddr ah am al).setWidth 22 ≤ wm.fullMask := by
  rw [Width.le_fullMask_iff]
  refine BitVec.eq_of_getLsbD_eq fun k hk => ?_
  have hm := wm.getLsbD_fullMask k
  have hb := getLsbD_of_within_mode h (k - 16)
  rw [BitVec.getLsbD_and, BitVec.getLsbD_setWidth, getLsbD_decAddr]
  grind

theorem Width.le_fullMask_of_w16 (wm : Width) {a : Addr} (h : a ≤ Width.w16.fullMask) : a ≤ wm.fullMask :=
  BitVec.le_trans h (by cases wm <;> decide)

/-! ## Reading the fields of a frame -/

/-- The address field of an encoded address is read back, and what follows is left. -/
theorem decodeAddrField_addrBytes {wm : Width} {alen : AddrLen} {a : Addr} (h : FieldHolds wm alen a) (tag : Byte)
    (rest : List Byte) : decodeAddrField wm alen tag (addrBytes wm alen a ++ rest) = .ok (a, rest) := by
  cases alen with
  | three =>
    rw [addrBytes_three]
    simp only [List.cons_append, List.nil_append, decodeAddrField, if_pos (topByte_within_mode wm a),
      decAddr_addrBytes_of_le h.1]
  | two =>
    have d := decAddr_addrBytes_of_le (wm := .w16) (h.2 rfl)
    rw [topByte_w16] at d
    rw [addrBytes_two]
    simp only [List.cons_append, List.nil_append, decodeAddrField, d]

/-- Whatever the address field is read as, its bytes are the encoding of that address. -/
theorem addrBytes_of_decodeAddrField {wm : Width} {alen : AddrLen} {tag : Byte} {bytes rest : List Byte} {a : Addr}
    (h : decodeAddrField wm alen tag bytes = .ok (a, rest)) :
    FieldHolds wm alen a ∧ bytes = addrBytes wm alen a ++ rest := by
  unfold decodeAddrField at h
  split at h
  case h_1 ah am al _ =>
    split at h
    · rename_i hm
      cases h
      exact ⟨⟨decAddr_le_fullMask hm, nofun⟩, by rw [addrBytes_decAddr hm]; rfl⟩
    · cases h
  case h_2 am al _ =>
    cases h
    have hm : (0 : Byte) &&& ~~~Width.w16.topMask = 0 := BitVec.zero_and
    have hle : (decAddr 0 am al).setWidth 22 ≤ Width.w16.fullMask := decAddr_le_fullMask hm
    have hb : addrBytes wm .two ((decAddr 0 am al).setWidth 22) = [am, al] :=
      (List.cons.inj (addrBytes_decAddr (wm := .w16) hm)).2
    exact ⟨⟨wm.le_fullMask_of_w16 hle, fun _ => hle⟩, by rw [hb]; rfl⟩
  case h_3 => cases h

/-- Whatever a pair is read as, it is the first two bytes. -/
theorem eq_cons_of_decodePair {tag x y : Byte} {bytes rest : List Byte} (h : decodePair tag bytes = .ok (x, y, rest)) :
    bytes = x :: y :: rest := by
  unfold decodePair at h
  split at h
  · cases h; rfl
  · cases h

/-! ## Frames -/

/-- `toOption` keeps exactly the results. -/
theorem toOption_eq_some {ε α : Type} {x : Except ε α} {a : α} : x.toOption = some a ↔ x = .ok a := by
  cases x with
  | error e => exact ⟨nofun, nofun⟩
  | ok b => exact ⟨fun h => congrArg _ (Option.some.inj h), fun h => congrArg _ (Except.ok.inj h)⟩

/-- What an outbound operation needs of the mode, as a property of its address operand. -/
theorem Instr.fits_iff {i : Instr} {a : Addr} (h : i.frameAddr = some a) (wm : Width) (alen : AddrLen) :
    i.fits wm alen ↔ FieldHolds wm alen a :=
  ⟨fun hf => hf a h, fun hf _ hb => Option.some.inj (h.symm.trans hb) ▸ hf⟩

/-- An operation without an address operand fits every mode. -/
theorem Instr.fits_of_none {i : Instr} (h : i.frameAddr = none) (wm : Width) (alen : AddrLen) : i.fits wm alen :=
  fun a ha => by cases h.symm.trans ha

/-- The frame of an outbound operation whose address fits the mode is read back as that operation (R68). -/
theorem decodeOut_encode {wm : Width} {alen : AddrLen} (s0 s1 : Byte) {i : Instr} (rest : List Byte)
    (ho : i.direction = .outbound) (hf : i.fits wm alen) :
    ∃ frame, encode wm alen s0 s1 i = some frame ∧ decodeOut wm alen (frame ++ rest) = .ok (i, rest) := by
  cases i with
  | sendA a =>
    have ha := decodeAddrField_addrBytes ((Instr.fits_iff rfl _ _).mp hf) tagA rest
    refine ⟨_, rfl, ?_⟩
    simp only [decodeOut, frameA, List.cons_append, decodePayload, if_pos, ha]
  | sendD d =>
    refine ⟨_, rfl, ?_⟩
    show decodePayload wm alen tagD (dataBytes d ++ rest) = _
    rw [decodePayload, if_neg (by decide), if_pos rfl]
    simp only [decodePair_dataBytes, decData_dataBytes]
  | sendB a d =>
    have ha := decodeAddrField_addrBytes ((Instr.fits_iff rfl _ _).mp hf) tagB (dataBytes d ++ rest)
    refine ⟨_, rfl, ?_⟩
    rw [frameB, List.cons_append, List.append_assoc, decodeOut, decodePayload, if_neg (by decide),
      if_neg (by decide), if_pos rfl]
    simp only [ha, decodePair_dataBytes, decData_dataBytes]
  | sendU a d =>
    have ha := decodeAddrField_addrBytes ((Instr.fits_iff rfl _ _).mp hf) tagU (dataBytes d ++ (s0 :: s1 :: rest))
    refine ⟨_, rfl, ?_⟩
    rw [frameU, List.cons_append, List.append_assoc, List.append_assoc, decodeOut, decodePayload,
      if_neg (by decide), if_neg (by decide), if_neg (by decide), if_pos rfl]
    simp only [List.cons_append, List.nil_append, ha, decodePair_dataBytes, decodePair_cons, decData_dataBytes]
  | sendF => exact ⟨_, rfl, rfl⟩
  | sendQ => exact ⟨_, rfl, rfl⟩
  | sendR => exact ⟨_, rfl, rfl⟩
  | sendAck p m => exact ⟨_, rfl, rfl⟩
  | sendClearI => exact ⟨_, rfl, rfl⟩
  | sendClearA => exact ⟨_, rfl, rfl⟩
  | _ => cases ho

/-- A frame of the codec for this mode and address length: that of an outbound operation whose address fits. -/
def IsFrameOf (wm : Width) (alen : AddrLen) (i : Instr) (frame : List Byte) : Prop :=
  i.direction = .outbound ∧ i.fits wm alen ∧ ∃ s0 s1, encode wm alen s0 s1 i = some frame

/-- What the decoder accepts is the frame of the operation it reads, and the rest (R62 to R68). -/
theorem isFrameOf_of_decodePayload {wm : Width} {alen : AddrLen} {tag : Byte} {bytes rest : List Byte} {i : Instr}
    (h : decodePayload wm alen tag bytes = .ok (i, rest)) :
    ∃ frame, IsFrameOf wm alen i frame ∧ tag :: bytes = frame ++ rest := by
  have noAddr {j : Instr} {frame : List Byte} (s0 s1 : Byte) (hj : j.direction = .outbound) (ha : j.frameAddr = none)
      (e : encode wm alen s0 s1 j = some frame) : IsFrameOf wm alen j frame :=
    ⟨hj, Instr.fits_of_none ha wm alen, s0, s1, e⟩
  have withAddr {j : Instr} {a : Addr} {frame : List Byte} (s0 s1 : Byte) (hj : j.direction = .outbound)
      (ha : j.frameAddr = some a) (hf : FieldHolds wm alen a) (e : encode wm alen s0 s1 j = some frame) :
      IsFrameOf wm alen j frame := ⟨hj, (Instr.fits_iff ha _ _).mpr hf, s0, s1, e⟩
  unfold decodePayload at h
  split_ifs at h with hA hD hB hU hF hQ hR hK hI hC
  · subst hA
    split at h
    case h_2 => cases h
    case h_1 ha =>
    cases h
    obtain ⟨hf, rfl⟩ := addrBytes_of_decodeAddrField ha
    exact ⟨_, withAddr 0 0 rfl rfl hf rfl, rfl⟩
  · subst hD
    split at h
    case h_2 => cases h
    case h_1 dh dl _ hd =>
    cases h
    exact ⟨_, noAddr 0 0 rfl rfl rfl, by rw [frameD, dataBytes_decData, eq_cons_of_decodePair hd]; rfl⟩
  · subst hB
    split at h
    case h_2 => cases h
    case h_1 ha =>
    split at h
    case h_2 => cases h
    case h_1 dh dl _ hd =>
    cases h
    obtain ⟨hf, rfl⟩ := addrBytes_of_decodeAddrField ha
    refine ⟨_, withAddr 0 0 rfl rfl hf rfl, ?_⟩
    rw [frameB, dataBytes_decData, eq_cons_of_decodePair hd, List.cons_append, List.append_assoc]
    rfl
  · subst hU
    split at h
    case h_2 => cases h
    case h_1 ha =>
    split at h
    case h_2 => cases h
    case h_1 dh dl _ hd =>
    split at h
    case h_2 => cases h
    case h_1 s0 s1 _ hs =>
    cases h
    obtain ⟨hf, rfl⟩ := addrBytes_of_decodeAddrField ha
    refine ⟨_, withAddr s0 s1 rfl rfl hf rfl, ?_⟩
    rw [frameU, dataBytes_decData, eq_cons_of_decodePair hd, eq_cons_of_decodePair hs, List.cons_append,
      List.append_assoc, List.append_assoc]
    rfl
  · subst hF
    split at h
    case h_2 => cases h
    case h_1 s0 s1 _ hs =>
    cases h
    exact ⟨_, noAddr s0 s1 rfl rfl rfl, by rw [eq_cons_of_decodePair hs]; rfl⟩
  · cases h; subst hQ; exact ⟨_, noAddr 0 0 rfl rfl rfl, rfl⟩
  · cases h; subst hR; exact ⟨_, noAddr 0 0 rfl rfl rfl, rfl⟩
  · subst hK
    split at h
    case h_2 => cases h
    case h_1 p m _ hp =>
    cases h
    exact ⟨_, noAddr 0 0 rfl rfl rfl, by rw [eq_cons_of_decodePair hp]; rfl⟩
  · cases h; subst hI; exact ⟨_, noAddr 0 0 rfl rfl rfl, rfl⟩
  · cases h; subst hC; exact ⟨_, noAddr 0 0 rfl rfl rfl, rfl⟩

/-- Whatever the frame decoder accepts is the frame of the operation it reads, and the rest. -/
theorem isFrameOf_of_decodeOut {wm : Width} {alen : AddrLen} {bytes rest : List Byte} {i : Instr}
    (h : decodeOut wm alen bytes = .ok (i, rest)) : ∃ frame, IsFrameOf wm alen i frame ∧ bytes = frame ++ rest := by
  cases bytes with
  | nil => cases h
  | cons tag payload => exact isFrameOf_of_decodePayload h

/-! ## Inbound bytes -/

/-- The byte of an inbound operation: `encode` on that direction, which needs no mode and no status field (R69). -/
theorem decodeIn_encode {i : Instr} (hi : i.direction = .inbound) (hw : i.wellFormed = true) (wm : Width)
    (alen : AddrLen) (s0 s1 : Byte) : ∃ b, encode wm alen s0 s1 i = some [b] ∧ decodeIn b = i := by
  cases i with
  | cmdIgn b =>
    have out : reservedInboundBytes.contains b = false := by simpa [Instr.wellFormed] using hw
    exact ⟨b, rfl, by rw [decodeIn, decodeSymbol_ignored out]; rfl⟩
  | cmdNul => exact ⟨_, rfl, rfl⟩
  | cmdH => exact ⟨_, rfl, rfl⟩
  | cmdE => exact ⟨_, rfl, rfl⟩
  | cmdC => exact ⟨_, rfl, rfl⟩
  | cmdD => exact ⟨_, rfl, rfl⟩
  | cmdL => exact ⟨_, rfl, rfl⟩
  | cmdS => exact ⟨_, rfl, rfl⟩
  | cmdX => exact ⟨_, rfl, rfl⟩
  | _ => cases hi

/-- Every byte outside the reserved eight is read as itself; each of the eight is the byte of its letter (R100). -/
theorem encode_decodeIn (b : Byte) (wm : Width) (alen : AddrLen) (s0 s1 : Byte) :
    (decodeIn b).direction = .inbound ∧ (decodeIn b).wellFormed = true ∧
      encode wm alen s0 s1 (decodeIn b) = some [b] := by
  cases hr : reservedInboundBytes.contains b with
  | false =>
    rw [decodeIn, decodeSymbol_ignored hr]
    exact ⟨rfl, by simp only [Symbol.instr, Instr.wellFormed, hr, Bool.not_false], rfl⟩
  | true =>
    have hb : b ∈ reservedInboundBytes := List.contains_iff_mem.mp hr
    simp only [reservedInboundBytes, List.mem_cons, List.not_mem_nil, or_false] at hb
    obtain rfl | rfl | rfl | rfl | rfl | rfl | rfl | rfl := hb <;> exact ⟨rfl, rfl, rfl⟩

/-! ## The obligations -/

/-- Settles O3: the field decoder inverts the field encoder on an address that fits, and the tag selects the branch. -/
theorem outboundFrameRoundTrip : Obligations.OutboundFrameRoundTrip := by
  intro wm alen s0 s1 i rest ho hf
  obtain ⟨frame, he, hd⟩ := decodeOut_encode s0 s1 rest ho hf
  exact ⟨frame, he, toOption_eq_some.mpr hd⟩

/-- Settles O4: each branch of the decoder accepts exactly the bytes its operation is encoded by. -/
theorem decodedFramesReencode : Obligations.DecodedFramesReencode := by
  intro wm alen bytes rest i h
  obtain ⟨frame, ⟨ho, hf, s0, s1, he⟩, hb⟩ := isFrameOf_of_decodeOut (toOption_eq_some.mp h)
  exact ⟨ho, hf, s0, s1, frame, he, hb⟩

/-- Settles O2: the decoder and the encoder of the inbound alphabet are inverse to each other. -/
theorem inboundByteRoundTrip : Obligations.InboundByteRoundTrip := by
  refine fun wm alen s0 s1 => ⟨fun i rest hi hw => ?_, fun b => encode_decodeIn b wm alen s0 s1⟩
  obtain ⟨b, he, hd⟩ := decodeIn_encode hi hw wm alen s0 s1
  exact ⟨b, he, by rw [decode, hd]; rfl⟩

/-- Settles O5: bit by bit, each field is cut into bytes and put together again. -/
theorem addressAndDataFieldsDecode : Obligations.AddressAndDataFieldsDecode :=
  ⟨fun wm a => ⟨_, _, _, addrBytes_three wm a, decAddr_addrBytes wm a, topByte_within_mode wm a⟩,
    fun d => ⟨_, _, rfl, decData_dataBytes d⟩⟩

/-- Settles O1: the words, read by the decoder. -/
theorem spelledWordsDecode : Obligations.SpelledWordsDecode := by
  unfold Obligations.SpelledWordsDecode
  decide

end Sys2Proof
end

section
/-! PROOFS. The status bits and their producers (10_state.md R14, R17; 42_status_manager.md R122 to R128): which bits
are owned on a model, when `set_bit` names one of them, and what each operation of the status manager leaves. -/

namespace Sys2Proof

/-! ## The owned bits of a model -/

/-- The positions `set_mmu_mode` owns (10_state.md R14, R16). -/
def StatusLayout.mmuBits (l : StatusLayout) : MmuRule → List BitPos
  | .singleVirtualBit => [l.virt]
  | .threeWidthBits => [l.w16, l.w18, l.w22]

/-- The positions `set_ring_protection` owns where there is a ring display (10_state.md R14, R15). -/
def StatusLayout.ringBits (l : StatusLayout) : List BitPos := [l.ringHi, l.ringLo]

theorem Config.ownedBits_eq (c : Config) (m : Model) :
    c.ownedBits m = c.layout.mmuBits m.mmuRule ++ if c.hasRing m then c.layout.ringBits else [] := rfl

theorem Config.mem_ownedBits_of_mmu {c : Config} {m : Model} {p : BitPos} (h : p ∈ c.layout.mmuBits m.mmuRule) :
    p ∈ c.ownedBits m := by
  rw [Config.ownedBits_eq]
  exact List.mem_append_left _ h

theorem Config.mem_ownedBits_of_ring {c : Config} {m : Model} {p : BitPos} (hr : c.hasRing m = true)
    (h : p ∈ c.layout.ringBits) : p ∈ c.ownedBits m := by
  rw [Config.ownedBits_eq, if_pos hr]
  exact List.mem_append_right _ h

/-- No bit has both producers (10_state.md R17). -/
theorem Config.hw_mmu_ring_disjoint {m : Model} {p : BitPos} (hr : Config.hw.hasRing m = true)
    (hp : p ∈ Config.hw.layout.mmuBits m.mmuRule) : p ∉ Config.hw.layout.ringBits := by
  have hn := Config.hw_ownedBits_nodup m
  rw [Config.ownedBits_eq, if_pos hr] at hn
  exact fun hq => (List.nodup_append.mp hn).2.2 p hp p hq rfl

/-- Three width bits on the widest model only (10_state.md R12 (c)). -/
theorem Model.mmuRule_eq (m : Model) : m.mmuRule = if m = .m4 then .threeWidthBits else .singleVirtualBit := by
  cases m <;> rfl

namespace Machine

/-! ## The precondition of `set_bit` -/

/-- `set_bit` breaks its precondition when it names an owned bit (42_status_manager.md R122, log 19). -/
theorem State.flagBreaks_iff {c : Config} {s : State} {f : StatusField} {flag : Byte} :
    s.flagBreaks c f flag = true ↔ ∃ p ∈ c.ownedBits s.model, p.field = f ∧ flag.getLsbD p.bit.val = true := by
  simp only [State.flagBreaks, Bool.and_eq_true, List.any_eq_true, decide_eq_true_eq, bne_iff_ne, ne_eq]
  refine ⟨fun h => h.2, fun ⟨p, hp, hf, hb⟩ => ⟨?_, p, hp, hf, hb⟩⟩
  rintro rfl
  simp at hb

/-- A call that keeps the precondition changes no owned bit. -/
theorem State.driveStatus_owned {s : State} {f : StatusField} {flag : Byte} (on : Bool)
    (h : s.flagBreaks Config.hw f flag = false) {p : BitPos} (hp : p ∈ Config.hw.ownedBits s.model) :
    (s.driveStatus f flag on).statusBit p = s.statusBit p := by
  rw [State.statusBit_driveStatus, if_neg]
  exact fun named => Bool.false_ne_true (h.symm.trans (State.flagBreaks_iff.mpr ⟨p, hp, named⟩))

/-! ## The address-error bit -/

/-- Driving the address-error bit changes that bit only, and none on a model without it (42_status_manager.md R125). -/
theorem State.driveAddrErr_other {s : State} (on : Bool) {p : BitPos}
    (h : s.model.addrErrBit = true → p ≠ Config.hw.layout.addrErr) :
    (s.driveAddrErr Config.hw on).statusBit p = s.statusBit p := by
  obtain ⟨v0, v1, e, has, hasNot⟩ := s.driveAddrErr_effect on
  rw [e]
  cases hm : s.model.addrErrBit with
  | true => exact (has hm).2 p (h hm)
  | false =>
    obtain ⟨rfl, rfl⟩ := hasNot hm
    rfl

/-- It is no bit of another producer. -/
theorem State.driveAddrErr_owned {s : State} (on : Bool) {p : BitPos} (hp : p ∈ Config.hw.ownedBits s.model) :
    (s.driveAddrErr Config.hw on).statusBit p = s.statusBit p :=
  State.driveAddrErr_other on fun hm e => Config.hw_addrErr_not_owned hm (e ▸ hp)

/-! ## The ring bits and the width bits -/

/-- The ring bits show the code just written (10_state.md R15). -/
theorem State.ringShown_writeRing {l : StatusLayout} (h : l.ringHi ≠ l.ringLo) (s : State) (code : BitVec 2) :
    (s.writeRing l code).ringShown l = code := by
  have glue : ∀ c : BitVec 2, BitVec.ofBool (c.getLsbD 1) ++ BitVec.ofBool (c.getLsbD 0) = c := by decide
  rw [State.ringShown, State.statusBit_writeRing, State.statusBit_writeRing, if_neg h, if_pos rfl, if_pos rfl, glue]

/-- No other bit changes (42_status_manager.md R123). -/
theorem State.writeRing_other (s : State) (l : StatusLayout) (code : BitVec 2) {p : BitPos} (h : p ∉ l.ringBits) :
    (s.writeRing l code).statusBit p = s.statusBit p := by
  simp only [StatusLayout.ringBits, List.mem_cons, List.not_mem_nil, or_false, not_or] at h
  rw [State.statusBit_writeRing, if_neg h.2, if_neg h.1]

/-- Writing the width changes the bits of the model's rule only (42_status_manager.md R124). -/
theorem State.writeWidth_other (s : State) (l : StatusLayout) (rule : MmuRule) (w : Width) {p : BitPos}
    (h : p ∉ l.mmuBits rule) : (s.writeWidth l rule w).statusBit p = s.statusBit p := by
  rw [State.statusBit_writeWidth]
  cases rule with
  | singleVirtualBit => exact if_neg fun e => h (by simp [StatusLayout.mmuBits, e])
  | threeWidthBits =>
    simp only [StatusLayout.mmuBits, List.mem_cons, List.not_mem_nil, or_false, not_or] at h
    simp only [h, if_false]

/-- On the widest model each width bit says whether the width is its own (42_status_manager.md R124). -/
theorem State.statusBit_writeWidth_three (s : State) (w : Width) :
    (s.writeWidth Config.hw.layout .threeWidthBits w).statusBit Config.hw.layout.w16 = decide (w = .w16) ∧
      (s.writeWidth Config.hw.layout .threeWidthBits w).statusBit Config.hw.layout.w18 = decide (w = .w18) ∧
      (s.writeWidth Config.hw.layout .threeWidthBits w).statusBit Config.hw.layout.w22 = decide (w = .w22) := by
  obtain ⟨h1, h2, h3⟩ := Config.hw_width_distinct
  simp only [State.statusBit_writeWidth, h1, h2, h3, if_true, if_false, and_self]

/-- A state that differs in the status fields only, with the fields it has. -/
theorem eq_with_status {s t : State} (h : ∃ v0 v1, t = { s with s0 := v0, s1 := v1 }) :
    t = { s with s0 := t.s0, s1 := t.s1 } := by
  obtain ⟨v0, v1, rfl⟩ := h
  rfl

/-! ## The obligations -/

/-- Settles O43: the meaning of `SET_BIT` on an allowed mask is the drive of its field. -/
theorem setBitDrivesFlag : Obligations.SetBitDrivesFlag := by
  intro f flag on s ha allowed
  obtain ⟨v0, v1, e⟩ := s.driveStatus_only f flag on
  refine ⟨v0, v1, ?_, fun p => ?_⟩
  · rw [exec_setBit_active ha, if_neg (by simp [allowed]), e]
  · rw [← e, State.statusBit_driveStatus]

/-- Settles O44: each of these positions is owned on the active model, so the mask breaks the precondition. -/
theorem setBitOnOwnedBitRefused : Obligations.SetBitOnOwnedBitRefused := by
  intro p flag on s ha hb hp
  have owned : p ∈ Config.hw.ownedBits s.model := by
    obtain ⟨hm, h⟩ | ⟨hm, h⟩ | ⟨hr, h⟩ := hp
    · exact Config.mem_ownedBits_of_mmu (by simpa [Model.mmuRule_eq, hm, StatusLayout.mmuBits] using h)
    · exact Config.mem_ownedBits_of_mmu (by simpa [Model.mmuRule_eq, hm, StatusLayout.mmuBits] using h)
    · exact Config.mem_ownedBits_of_ring hr (by simpa [StatusLayout.ringBits] using h)
  rw [exec_setBit_active ha, if_pos (State.flagBreaks_iff.mpr ⟨p, owned, rfl, hb⟩)]

/-- Settles O45: on a model with a display the two ring bits are written, else nothing is. -/
theorem setRingShowsLevel : Obligations.SetRingShowsLevel := by
  intro level s ha
  refine ⟨_, exec_setRing_active ha level, ?_⟩
  split
  · rename_i hr
    rw [State.applyRing, Config.profile_hasRing, if_pos hr]
    exact ⟨State.ringShown_writeRing (Config.hw_ring_distinct hr) s _, fun p hp => s.writeRing_other _ _ hp,
      eq_with_status (s.writeRing_only _ _)⟩
  · rename_i hr
    rw [State.applyRing, Config.profile_hasRing, if_neg hr]

/-- Settles O46: the width of the operands decides the bits of the model's rule. -/
theorem setMmuShowsWidth : Obligations.SetMmuShowsWidth := by
  intro e18 e22 s ha
  refine ⟨_, exec_setMmu_active ha e18 e22, eq_with_status (s.applyMmu_only _ _ _), ?_⟩
  rw [State.applyMmu, Config.profile_mmuRule, Config.hw_widthOf, Model.mmuRule_eq]
  split
  · obtain ⟨h16, h18, h22⟩ := s.statusBit_writeWidth_three (widthOfEnables e18 e22)
    rw [h16, h18, h22]
    refine ⟨?_, ?_, ?_, fun p hp => s.writeWidth_other _ _ _ hp⟩ <;> cases e18 <;> cases e22 <;> rfl
  · refine ⟨?_, fun p hp => s.writeWidth_other _ _ _ hp⟩
    simp only [State.statusBit_writeWidth, if_true]
    cases e18 <;> cases e22 <;> rfl

/-- Settles O48: each operation drives status bits and writes nothing else, and is a no-op while inactive. -/
theorem statusManagerFrame : Obligations.StatusManagerFrame := by
  intro i s t hi ht e
  obtain ⟨d, run⟩ := exec_statusManager_drives hi ht e
  obtain ⟨u, eu, drives⟩ := run s rfl rfl
  cases e.symm.trans eu
  exact ⟨eq_with_status drives.only, fun ha =>
    Host.Outcome.next.inj (e.symm.trans (exec_statusManager_inactive hi ht ha))⟩

end Machine
end Sys2Proof
end

section
/-! PROOFS. The invariant of the block (10_state.md R15, R16, R21, R25, R26): it holds at reset, and every step keeps
it. A write of the status fields keeps it when it leaves the owned bits, or writes the bits of one producer legally. -/

namespace Sys2Proof.Machine

/-! ## Writes of the status fields -/

/-- The ring code stays legal when the ring bits stay (10_state.md R15). -/
theorem RingLegal.of_same {c : Config} {s t : State} (h : RingLegal c s) (hm : t.model = s.model)
    (same : c.hasRing s.model = true → ∀ p ∈ c.layout.ringBits, t.statusBit p = s.statusBit p) : RingLegal c t := by
  intro hr
  rw [hm] at hr
  obtain ⟨level, e⟩ := h hr
  refine ⟨level, ?_⟩
  rw [← e, State.ringShown, State.ringShown, same hr _ (by simp [StatusLayout.ringBits]),
    same hr _ (by simp [StatusLayout.ringBits])]

/-- The width bits stay exclusive when they stay (10_state.md R16). -/
theorem WidthExclusive.of_same {c : Config} {s t : State} (h : WidthExclusive c s) (hm : t.model = s.model)
    (same : ∀ p ∈ c.layout.mmuBits s.model.mmuRule, t.statusBit p = s.statusBit p) : WidthExclusive c t := by
  intro hr
  rw [hm] at hr
  have hr' : s.model.mmuRule = .threeWidthBits := hr
  rw [hr'] at same
  rw [same _ (by simp [StatusLayout.mmuBits]), same _ (by simp [StatusLayout.mmuBits]),
    same _ (by simp [StatusLayout.mmuBits])]
  exact h hr

/-- A write of the status fields keeps the invariant when it keeps the ring code legal and the width bits exclusive. -/
theorem Inv.of_status {c : Config} {s t : State} (h : Inv c s) (only : ∃ v0 v1, t = { s with s0 := v0, s1 := v1 })
    (ring : RingLegal c t) (width : WidthExclusive c t) : Inv c t := by
  obtain ⟨v0, v1, rfl⟩ := only
  obtain ⟨_, _, rest⟩ := h
  exact ⟨ring, width, rest⟩

/-- A write of the status fields that leaves the owned bits keeps the invariant. -/
theorem Inv.of_owned {s t : State} (h : Inv Config.hw s) (only : ∃ v0 v1, t = { s with s0 := v0, s1 := v1 })
    (same : ∀ p ∈ Config.hw.ownedBits s.model, t.statusBit p = s.statusBit p) : Inv Config.hw t := by
  have hm : t.model = s.model := by
    obtain ⟨v0, v1, rfl⟩ := only
    rfl
  exact h.of_status only
    (h.1.of_same hm fun hr p hp => same p (Config.mem_ownedBits_of_ring hr hp))
    (h.2.1.of_same hm fun p hp => same p (Config.mem_ownedBits_of_mmu hp))

/-- `set_ring_protection` writes a legal code and leaves the width bits (42_status_manager.md R126). -/
theorem Inv.applyRing {s : State} (h : Inv Config.hw s) (level : RingLevel) :
    Inv Config.hw (s.applyRing Config.hw level) := by
  cases hr : Config.hw.hasRing s.model with
  | false => rwa [State.applyRing, Config.profile_hasRing, hr, if_neg Bool.false_ne_true]
  | true =>
    rw [State.applyRing, Config.profile_hasRing, if_pos hr]
    have only := s.writeRing_only Config.hw.layout (Config.hw.ringCode.code level)
    have hm : (s.writeRing Config.hw.layout (Config.hw.ringCode.code level)).model = s.model := by
      obtain ⟨v0, v1, e⟩ := only
      rw [e]
    exact h.of_status only (fun _ => ⟨level, State.ringShown_writeRing (Config.hw_ring_distinct hr) s _⟩)
      (h.2.1.of_same hm fun p hp => s.writeRing_other _ _ (Config.hw_mmu_ring_disjoint hr hp))

/-- `set_mmu_mode` sets at most one width bit and leaves the ring bits (42_status_manager.md R126). -/
theorem Inv.applyMmu {s : State} (h : Inv Config.hw s) (e18 e22 : Bool) :
    Inv Config.hw (s.applyMmu Config.hw e18 e22) := by
  have only := s.applyMmu_only Config.hw e18 e22
  have hm : (s.applyMmu Config.hw e18 e22).model = s.model := by
    obtain ⟨v0, v1, e⟩ := only
    rw [e]
  refine h.of_status only (h.1.of_same hm fun hr p hp => ?_) fun hr => ?_
  · exact s.writeWidth_other _ _ _ fun hq => Config.hw_mmu_ring_disjoint hr hq hp
  · rw [hm] at hr
    rw [State.applyMmu, hr]
    obtain ⟨h16, h18, h22⟩ := s.statusBit_writeWidth_three (Config.hw.widthOf e18 e22)
    rw [h16, h18, h22]
    cases Config.hw.widthOf e18 e22 <;> decide

/-! ## Operations and steps -/

/-- Adding a frame of the codec, of which at most all got through, leaves a history of frames. -/
theorem TxFrames.recordTx {s : State} (h : TxFrames s) {frame : List Byte} {k : Nat} (hf : CodecFrame frame)
    (hk : frame ≠ [] → k ≤ frame.length) : TxFrames (s.recordTx frame k) := by
  intro e he
  obtain he | he := List.mem_append.mp he
  · exact h e he
  · obtain rfl := List.mem_singleton.mp he
    obtain ⟨⟨tag, payload, rfl, ht⟩, hl⟩ := hf
    exact ⟨⟨tag, payload, rfl, ht⟩, hl, hk nofun⟩

/-- Every elementary update keeps the invariant of a block of this model. -/
theorem keptByUpdates_inv (m : Model) : KeptByUpdates fun t => Inv Config.hw t ∧ t.model = m where
  answered _ _ _ h := h
  recorded := fun t frame k hf hk ⟨⟨ring, width, addr, count, tx, link⟩, hm⟩ =>
    ⟨⟨ring, width, addr, count, tx.recordTx hf hk, link⟩, hm⟩
  failed _ h := h
  abandoned _ h := h
  read _ _ _ h := h
  model _ _ h h' := h.2.trans h'.2.symm
  sw _ _ h := h
  rot _ _ h := h
  ackq _ _ h := h
  addr := fun _ _ hv ⟨⟨ring, width, _, rest⟩, hm⟩ => ⟨⟨ring, width, hv, rest⟩, hm⟩
  inv _ _ h := h
  exam _ _ h := h
  dep _ _ h := h
  mode _ _ h := h
  zero := fun _ ⟨⟨ring, width, addr, ⟨_, hr⟩, rest⟩, hm⟩ => ⟨⟨ring, width, addr, ⟨Nat.succ_pos 4, hr⟩, rest⟩, hm⟩
  count := fun _ hne ⟨⟨ring, width, addr, ⟨hu, hr⟩, rest⟩, hm⟩ =>
    ⟨⟨ring, width, addr, ⟨Nat.lt_of_le_of_ne hu hne, hr⟩, rest⟩, hm⟩
  rzero := fun _ ⟨⟨ring, width, addr, ⟨hu, _⟩, rest⟩, hm⟩ => ⟨⟨ring, width, addr, ⟨hu, Nat.succ_pos 2⟩, rest⟩, hm⟩
  rcount := fun _ hne ⟨⟨ring, width, addr, ⟨hu, hr⟩, rest⟩, hm⟩ =>
    ⟨⟨ring, width, addr, ⟨hu, Nat.lt_of_le_of_ne hr hne⟩, rest⟩, hm⟩
  sig _ _ h := h
  rep _ _ h := h
  err := fun t on ⟨h, hm⟩ =>
    have only := t.driveAddrErr_only Config.hw on
    ⟨h.of_owned only fun _ hp => State.driveAddrErr_owned on hp, by obtain ⟨v0, v1, e⟩ := only; rw [e]; exact hm⟩
  bits := fun t f flag on allowed ⟨h, hm⟩ =>
    ⟨h.of_owned (t.driveStatus_only f flag on) fun _ hp => State.driveStatus_owned on allowed hp,
      (State.setStatus_model t f _).trans hm⟩
  ring := fun t level ⟨h, hm⟩ =>
    ⟨h.applyRing level, by obtain ⟨v0, v1, e⟩ := t.applyRing_only Config.hw level; rw [e]; exact hm⟩
  mmu := fun t e18 e22 ⟨h, hm⟩ =>
    ⟨h.applyMmu e18 e22, by obtain ⟨v0, v1, e⟩ := t.applyMmu_only Config.hw e18 e22; rw [e]; exact hm⟩

/-- A state without a session meets the invariant, when its history holds frames (10_state.md R29). -/
theorem inv_discard {s : State} (h : TxFrames s) : Inv Config.hw s.discard :=
  inv_of_zero rfl rfl rfl rfl rfl h ⟨nofun, nofun⟩

/-- Attach leaves the invariant, whatever comes of it (70_reset_and_hazards.md R200). -/
theorem inv_attachSession {s : State} (h : TxFrames s) (variant : Option Model) (kind : TransportKind)
    (line : List Char) (opened : Bool) : Inv Config.hw (s.attachSession variant kind line opened) := by
  cases variant with
  | none => exact inv_of_zero rfl rfl rfl rfl rfl h ⟨nofun, fun _ => rfl⟩
  | some m =>
    cases opened with
    | true => exact inv_of_zero rfl rfl rfl rfl rfl h ⟨fun _ => rfl, nofun⟩
    | false => exact inv_discard h

/-! ## The obligations -/

/-- Settles O55: an operation keeps the invariant because each of its updates does; attach and detach leave zero
registers, and the loss of the link only clears `connected`. -/
theorem stepKeepsInvariant : Obligations.StepKeepsInvariant := by
  intro s t h e
  have hs : Inv Config.hw s := h
  obtain ⟨ring, width, addr, count, tx, _, dormant⟩ := h
  obtain rfl | ⟨rest, ⟨rx, n, rfl⟩ | ⟨i, rx, n, e⟩ | rfl | rfl | ⟨m, kind, line, opened, _, rfl⟩⟩ := step_cases e
  · exact hs
  · exact hs
  · exact (keep_exec (keptByUpdates_inv s.model) e ⟨hs, rfl⟩).1
  · exact ⟨ring, width, addr, count, tx, nofun, dormant⟩
  · exact inv_discard tx
  · exact inv_attachSession (s := s.setEvents rest) tx m kind line opened

/-- Settles O56: the registers are zero at reset, the history is empty and a session is on. -/
theorem resetMeetsInvariant : Obligations.ResetMeetsInvariant :=
  inv_of_zero rfl rfl rfl rfl rfl nofun ⟨fun _ => rfl, fun _ => rfl⟩

end Sys2Proof.Machine
end

section
/-! PROOFS. One step for each kind of input (00_scope.md R6, 41_inbound_decode.md R113, 70_reset_and_hazards.md R200,
R201, R214), the session that attach, detach and the loss of the link leave, and a placed word of the opcode table. -/

namespace Sys2Proof.Machine

/-! ## One step, by its input -/

section
variable {s : State} {rest : List Event}

/-- Without an input the block is quiescent (log 15). -/
theorem step_nil (he : s.events = []) : step s = .next s := by simp only [step, fetch, he]

/-- A well-formed invoked operation runs on the state without the request. -/
theorem step_invoke {i : Instr} (hw : i.wellFormed = true) (he : s.events = .invoke i :: rest) :
    step s = exec i (s.setEvents rest) := by
  simp only [step, fetch, he, takeEvent, invoke, hw, if_true]

/-- A term that is no operation is refused (log 17). -/
theorem step_invoke_illFormed {i : Instr} (hw : i.wellFormed = false) (he : s.events = .invoke i :: rest) :
    step s = .refused .illFormedOperation := by
  simp only [step, fetch, he, takeEvent, invoke, hw, Bool.false_eq_true, if_false]

/-- A poll of an active block that finds nothing consumes that answer. -/
theorem step_poll_nothing {rx : List (Option Byte)} (ha : s.active = true) (he : s.events = .poll :: rest)
    (hx : s.rx = none :: rx) : step s = .next { s with events := rest, rx := rx } := by
  have hact : (s.setEvents rest).active = true := ha
  have htake : (s.setEvents rest).takeRx = (none, (s.setEvents rest).setRx rx) := State.takeRx_cons hx
  simp only [step, fetch, he, takeEvent, pollCommand, hact, if_true, State.pollRecv, htake]
  rfl

section
variable {variant : Option Model} {kind : TransportKind} {line : List Char} {opened : Bool}

/-- An attach from the absent mode (70_reset_and_hazards.md R200). -/
theorem step_attach (ha : s.attached = false) (he : s.events = .attach variant kind line opened :: rest) :
    step s = .next ((s.setEvents rest).attachSession variant kind line opened) := by
  simp only [step, fetch, he, takeEvent, State.setEvents_attached, ha, Bool.false_eq_true, if_false]

/-- An attach within a session stops the model (R214, log 10). -/
theorem step_attach_within (ha : s.attached = true) (he : s.events = .attach variant kind line opened :: rest) :
    step s = .fault .attachWithinSession := by
  simp only [step, fetch, he, takeEvent, State.setEvents_attached, ha, if_true]

end

/-- The loss of the link clears `connected` (60_exceptions.md R186). -/
theorem step_linkDown (he : s.events = .linkDown :: rest) :
    step s = .next { s with connected := false, events := rest } := by
  simp only [step, fetch, he, takeEvent]
  rfl

end

/-! ## Operations that answer a next state, and those that do nothing -/

/-- Every operation but `SET_BIT` answers a next state. -/
theorem exec_next {i : Instr} (h : ∀ field flag on, i ≠ .setBit field flag on) (s : State) :
    ∃ t, exec i s = .next t := by
  cases i with
  | setBit field flag on => exact absurd rfl (h field flag on)
  | _ => exact ⟨_, rfl⟩

/-- An inbound operation is no `SET_BIT`. -/
theorem exec_inbound_next {i : Instr} (h : i.direction = .inbound) (s : State) : ∃ t, exec i s = .next t :=
  exec_next (by rintro field flag on rfl; cases h) s

/-- An operation that is not inbound is well formed: only `CMD_IGN` has a condition. -/
theorem wellFormed_of_not_inbound {i : Instr} (h : i.direction ≠ .inbound) :
    i.wellFormed = true := by
  cases i with
  | cmdIgn b => exact absurd rfl h
  | _ => rfl

/-- A dormant block is not active. -/
theorem exec_dormant {s : State} (h : s.dormant = true) (i : Instr) : exec i s = .next s :=
  exec_inactive (State.active_eq_false (.inr h)) i

/-- Without a session every operation is a no-op (10_state.md R29). -/
theorem exec_discard (s : State) (i : Instr) : exec i s.discard = .next s.discard := exec_inactive rfl i

/-- Without a session after a failed attach neither does an operation do anything (60_exceptions.md R182). -/
theorem exec_discard_report (s : State) (k : ErrorKind) (i : Instr) :
    exec i (s.discard.report k) = .next (s.discard.report k) := exec_inactive rfl i

/-- The only input that ends a dormant session is a detach (60_exceptions.md R181). -/
theorem detach_of_dormant_ends {u v : State} (ha : u.attached = true) (hd : u.dormant = true)
    (e : step u = .next v) (hv : v.dormant = false) : ∃ rest, u.events = .detach :: rest := by
  have awake (w : State) (hw : w.dormant = true) : step u ≠ .next w := by
    intro e'
    cases e.symm.trans e'
    exact Bool.false_ne_true (hv.symm.trans hw)
  cases he : u.events with
  | nil => exact absurd (step_nil he) (awake u hd)
  | cons x rest =>
    cases x with
    | invoke i =>
      cases hw : i.wellFormed with
      | true => exact absurd ((step_invoke hw he).trans (exec_dormant (s := u.setEvents rest) hd i)) (awake _ hd)
      | false => cases (step_invoke_illFormed hw he).symm.trans e
    | poll => exact absurd (step_poll_inactive (State.active_eq_false (.inr hd)) he) (awake _ hd)
    | attach variant kind line opened => cases (step_attach_within ha he).symm.trans e
    | detach => exact ⟨rest, rfl⟩
    | linkDown => exact absurd (step_linkDown he) (awake _ hd)

/-! ## A placed word of the opcode table -/

/-- What a word of the table is read as: an inbound byte's operation, or one that is not inbound (log 14). -/
theorem decodeTableWord_cases {nbits w : Nat} {i : Instr} (h : decodeTableWord nbits w = some i) :
    i = decodeIn (BitVec.ofNat 8 (w % 2 ^ nbits)) ∨ i.direction ≠ .inbound := by
  simp only [decodeTableWord] at h
  split at h
  · exact .inl (Option.some.inj h).symm
  · split at h
    · rename_i hd
      cases h
      obtain ⟨_, ⟨ho, _⟩, _⟩ := isFrameOf_of_decodeOut hd
      exact .inr (by simp [ho])
    · cases h
  · cases h
    refine .inr ?_
    unfold callOfSelector
    split_ifs <;> exact nofun

/-- An operation put in front of the inputs by its name runs next. -/
theorem step_withNext_invoke {i : Instr} (hi : i.direction ≠ .inbound) (s : State) (b : Byte) :
    step (s.withNext i b) = exec i s := by
  have he : s.withNext i b = s.setEvents (.invoke i :: s.events) := by
    unfold State.withNext
    split
    · exact absurd ‹_› hi
    · rfl
    · rfl
  rw [he, step_invoke (wellFormed_of_not_inbound hi) rfl]
  rfl

/-- The operation of a byte put in front of the panel's input runs next, by a poll. -/
theorem step_withNext_poll {s : State} (ha : s.active = true) (b : Byte) :
    step (s.withNext (decodeIn b) b) = exec (decodeIn b) s := by
  have hi : (decodeIn b).direction = .inbound := (encode_decodeIn b .w22 .three 0 0).1
  have he : s.withNext (decodeIn b) b = (s.setRx (some b :: s.rx)).setEvents (.poll :: s.events) := by
    rw [State.withNext, hi]
  rw [he]
  exact step_poll_byte (s := (s.setRx (some b :: s.rx)).setEvents (.poll :: s.events)) ha rfl rfl

/-! ## The obligations -/

/-- Settles O6: a step, by the kind of its input. -/
theorem stepRunsDecodedOperation : Obligations.StepRunsDecodedOperation :=
  ⟨fun _ _ _ he => ⟨fun hw => step_invoke hw he, fun hw => step_invoke_illFormed hw he⟩,
    fun _ _ he => ⟨fun _ _ ha hx => step_poll_byte ha he hx, fun _ ha hx => step_poll_nothing ha he hx,
      fun ha => step_poll_inactive ha he⟩,
    fun _ he => step_nil he⟩

/-- Settles O7: the word is placed as a poll that finds its byte, or as a request by name. -/
theorem placedWordRunsNext : Obligations.PlacedWordRunsNext := by
  intro s nbits w i ha h
  rw [State.withFetchWord, placeTableWord, h]
  obtain rfl | hi := decodeTableWord_cases h
  · exact step_withNext_poll ha _
  · exact step_withNext_invoke hi s _

/-- Settles O8: only `SET_BIT` has an arm without a next state, the one for a bit of another producer. -/
theorem onlySetBitCanBeRefused : Obligations.OnlySetBitCanBeRefused := by
  intro i s
  by_cases hi : ∃ field flag on, i = .setBit field flag on
  · obtain ⟨field, flag, on, rfl⟩ := hi
    cases ha : s.active with
    | false => exact .inl ⟨s, exec_inactive ha _⟩
    | true =>
      cases hb : s.flagBreaks Config.hw field flag with
      | false => exact .inl ⟨_, by rw [exec_setBit_active ha, if_neg (by simp [hb])]⟩
      | true => exact .inr ⟨field, flag, on, rfl, rfl, hb, by rw [exec_setBit_active ha, if_pos hb]⟩
  · exact .inl (exec_next (fun field flag on e => hi ⟨field, flag, on, e⟩) s)

/-- Settles O9: the registers of the reset state, read off. -/
theorem resetRegisters : Obligations.ResetRegisters := by
  unfold Obligations.ResetRegisters
  exact ⟨rfl, rfl, rfl, rfl, rfl, rfl, rfl, rfl, rfl, rfl, rfl, rfl, rfl, rfl, rfl⟩

/-- Settles O10: an attach that opens writes every register its reset value. -/
theorem attachIsReset : Obligations.AttachIsReset := fun _ _ _ _ _ ha he => step_attach ha he

/-- Settles O11: the attach of no variant leaves a dormant session, in which only a detach has an effect. -/
theorem unsupportedVariantGoesDormant : Obligations.UnsupportedVariantGoesDormant :=
  ⟨fun _ _ _ _ _ ha he => ⟨_, step_attach ha he, rfl, rfl, rfl, rfl, rfl, rfl⟩, fun _ i hd => exec_dormant hd i,
    fun _ _ ha hd e hv => detach_of_dormant_ends ha hd e hv⟩

/-- Settles O12: the failed attach discards the state and reports. -/
theorem failedTransportLeavesNoSession : Obligations.FailedTransportLeavesNoSession :=
  fun _ _ _ _ _ ha he => ⟨_, step_attach ha he, rfl, rfl, rfl, rfl, rfl, rfl, exec_discard_report _ _⟩

/-- Settles O13: the discarded state is absent, and the attach after it resets every register. -/
theorem detachDiscardsState : Obligations.DetachDiscardsState := by
  intro s m kind line rest he
  exact ⟨_, step_detach he, rfl, exec_discard _, step_attach (s := (s.setEvents _).discard) rfl rfl⟩

/-- Settles O14: the step of each of the two inputs. -/
theorem linkDownClearsConnected : Obligations.LinkDownClearsConnected :=
  ⟨fun _ _ he => step_linkDown he, fun _ _ _ _ _ _ ha he => step_attach_within ha he⟩

end Sys2Proof.Machine
end

section
/-! PROOFS. The three histories only grow, and which frames an operation adds (10_state.md R27, 20_memory.md R55,
30_encoding.md R70, 43_console_commands.md R155). -/

namespace Sys2Proof.Machine

/-! ## Growing histories -/

/-- The frame begins with a byte that `ok` accepts. -/
def TagIs (ok : Byte → Prop) (frame : List Byte) : Prop := ∃ tag payload, frame = tag :: payload ∧ ok tag

theorem AddsOnly.refl (ok : Byte → Prop) (s : State) : AddsOnly ok s s := ⟨[], (List.append_nil _).symm, nofun⟩

theorem AddsOnly.recordTx {ok : Byte → Prop} {s t : State} (h : AddsOnly ok s t) {frame : List Byte}
    (hf : TagIs ok frame) (k : Nat) : AddsOnly ok s (t.recordTx frame k) := by
  obtain ⟨added, ht, hok⟩ := h
  refine ⟨added ++ [⟨frame, k⟩], by rw [State.recordTx_tx, ht, List.append_assoc], fun e he => ?_⟩
  obtain he | he := List.mem_append.mp he
  · exact hok e he
  · exact List.mem_singleton.mp he ▸ hf

/-- The histories of `t` are those of `s` with something added, to the frames only such as `ok` accepts. -/
def Grows (ok : Byte → Prop) (s t : State) : Prop :=
  AddsOnly ok s t ∧ (∃ g, t.signals = s.signals ++ g) ∧ ∃ r, t.reports = s.reports ++ r

theorem Grows.refl (ok : Byte → Prop) (s : State) : Grows ok s s :=
  ⟨AddsOnly.refl ok s, ⟨[], (List.append_nil _).symm⟩, ⟨[], (List.append_nil _).symm⟩⟩

section
variable {ok : Byte → Prop} {s t : State}

theorem Grows.recordTx (h : Grows ok s t) {frame : List Byte} (hf : TagIs ok frame) (k : Nat) :
    Grows ok s (t.recordTx frame k) := ⟨h.1.recordTx hf k, h.2⟩

theorem Grows.signal (h : Grows ok s t) (x : Signal) : Grows ok s (t.signal x) := by
  obtain ⟨htx, ⟨g, hg⟩, hr⟩ := h
  exact ⟨htx, ⟨g ++ [x], by rw [State.signal_signals, hg, List.append_assoc]⟩, hr⟩

theorem Grows.report (h : Grows ok s t) (k : ErrorKind) : Grows ok s (t.report k) := by
  obtain ⟨htx, hg, r, hr⟩ := h
  exact ⟨htx, hg, r ++ [k], by rw [State.report_reports, hr, List.append_assoc]⟩

/-- A write of the status fields leaves the histories. -/
theorem Grows.of_status {u : State} (h : Grows ok s t) (only : ∃ v0 v1, u = { t with s0 := v0, s1 := v1 }) :
    Grows ok s u := by
  obtain ⟨v0, v1, rfl⟩ := only
  exact h

/-- What the sending of a frame keeps of the histories. -/
theorem keptBySend_grows (ok : Byte → Prop) (s : State) : KeptBySend (Grows ok s) (TagIs ok) where
  answered _ _ _ h := h
  recorded _ _ k hf _ h := h.recordTx hf k
  failed _ h := h.report _
  abandoned _ h := h

end

/-! ## Every operation, every step -/

/-- A frame of the codec begins with one of the ten tags. -/
theorem CodecFrame.tagIs {frame : List Byte} (h : CodecFrame frame) : TagIs (· ∈ frameTags) frame := h.1

/-- Every elementary update only adds to the histories, frames of the ten tags. -/
theorem keptByUpdates_grows (s : State) : KeptByUpdates fun t => Grows (· ∈ frameTags) s t ∧ t.model = s.model where
  answered _ _ _ h := h
  recorded := fun _ _ k hf _ ⟨h, hm⟩ => ⟨h.recordTx hf.tagIs k, hm⟩
  failed := fun _ ⟨h, hm⟩ => ⟨h.report _, hm⟩
  abandoned _ h := h
  read _ _ _ h := h
  model _ _ h h' := h.2.trans h'.2.symm
  sw _ _ h := h
  rot _ _ h := h
  ackq _ _ h := h
  addr _ _ _ h := h
  inv _ _ h := h
  exam _ _ h := h
  dep _ _ h := h
  mode _ _ h := h
  zero _ h := h
  count _ _ h := h
  rzero _ h := h
  rcount _ _ h := h
  sig := fun _ x ⟨h, hm⟩ => ⟨h.signal x, hm⟩
  rep := fun _ k ⟨h, hm⟩ => ⟨h.report k, hm⟩
  err := fun t on ⟨h, hm⟩ =>
    have only := t.driveAddrErr_only Config.hw on
    ⟨h.of_status only, by obtain ⟨v0, v1, e⟩ := only; rw [e]; exact hm⟩
  bits := fun t f flag on _ ⟨h, hm⟩ =>
    ⟨h.of_status (t.driveStatus_only f flag on), (State.setStatus_model t f _).trans hm⟩
  ring := fun t level ⟨h, hm⟩ =>
    have only := t.applyRing_only Config.hw level
    ⟨h.of_status only, by obtain ⟨v0, v1, e⟩ := only; rw [e]; exact hm⟩
  mmu := fun t e18 e22 ⟨h, hm⟩ =>
    have only := t.applyMmu_only Config.hw e18 e22
    ⟨h.of_status only, by obtain ⟨v0, v1, e⟩ := only; rw [e]; exact hm⟩

/-- No operation takes anything back, and what it sends has one of the ten tags. -/
theorem exec_grows {i : Instr} {s t : State} (e : exec i s = .next t) : Grows (· ∈ frameTags) s t :=
  (keep_exec (keptByUpdates_grows s) e ⟨Grows.refl _ s, rfl⟩).1

/-- Attach adds at most a report, whatever comes of it. -/
theorem attachSession_grows (ok : Byte → Prop) (s : State) (variant : Option Model) (kind : TransportKind)
    (line : List Char) (opened : Bool) : Grows ok s (s.attachSession variant kind line opened) := by
  cases variant with
  | none => exact (Grows.refl ok s).report .configError
  | some m =>
    cases opened with
    | true => exact Grows.refl ok s
    | false => exact (Grows.refl ok s).report .linkError

/-- No step takes anything back, and what it sends has one of the ten tags. -/
theorem step_grows {s t : State} (e : step s = .next t) : Grows (· ∈ frameTags) s t := by
  obtain rfl | ⟨rest, ⟨rx, n, rfl⟩ | ⟨i, rx, n, e⟩ | rfl | rfl | ⟨m, kind, line, opened, _, rfl⟩⟩ := step_cases e
  · exact Grows.refl _ _
  · exact Grows.refl _ s
  · have grown := exec_grows e
    exact grown
  · exact Grows.refl _ s
  · exact Grows.refl _ s
  · exact attachSession_grows _ (s.setEvents rest) m kind line opened

/-! ## The obligations -/

/-- Settles O59: every step grows the histories. -/
theorem historiesOnlyGrow : Obligations.HistoriesOnlyGrow := by
  intro s t e
  obtain ⟨⟨added, htx, _⟩, hsig, hrep⟩ := step_grows e
  exact ⟨⟨added, htx⟩, hsig, hrep⟩

/-- Settles O60: the frames a step adds have the ten tags; a byte is one of the seven letters, or selects an operation
without an effect. -/
theorem onlyTheTenTagsAreEmitted : Obligations.OnlyTheTenTagsAreEmitted := by
  refine ⟨fun s t e => ?_, fun b s rest rx ha he hx => ?_⟩
  · obtain ⟨added, htx, hok⟩ := (step_grows e).1
    refine ⟨added, htx, fun x hx => ?_⟩
    obtain ⟨tag, payload, hf, ht⟩ := hok x hx
    exact ⟨tag, payload, hf, by simpa [frameTags] using ht⟩
  · have hstep := step_poll_byte ha he hx
    refine ⟨?_, fun hb => ?_, fun hb => ?_⟩
    · rw [hstep]
      exact exec_inbound_next (encode_decodeIn b .w22 .three 0 0).1 _
    · simp only [List.mem_cons, List.not_mem_nil, or_false] at hb
      obtain rfl | rfl | rfl | rfl | rfl | rfl | rfl := hb <;> decide
    · rw [hstep]
      by_cases hz : b = 0x00
      · subst hz
        exact exec_cmdNul _
      · have hout : reservedInboundBytes.contains b = false := by
          simp [reservedInboundBytes] at hb ⊢
          tauto
        rw [decodeIn_ignored hout, exec_cmdIgn]

/-- Settles O42: each of the four commands sends status frames only. -/
theorem continueNeverAcknowledges : Obligations.ContinueNeverAcknowledges := by
  intro i s t hi e
  have k : KeptBySend (Grows (· ≠ 0x63) s) (TagIs (· ≠ 0x63)) := keptBySend_grows _ s
  have okF (a b : Byte) : TagIs (· ≠ 0x63) (frameF a b) := ⟨_, _, rfl, by decide⟩
  have start : Grows (· ≠ 0x63) s s := Grows.refl _ s
  simp only [List.mem_cons, List.not_mem_nil, or_false] at hi
  obtain rfl | rfl | rfl | rfl := hi <;> cases e
  · exact (State.guarded_keeps start fun _ => keep_runContinue k (fun _ x h => h.signal x)
      (fun _ on h => keep_driveAddrErr (fun _ _ _ h => h) h on) okF start).1
  · exact (State.guarded_keeps start fun _ => keep_runStart k (fun _ x h => h.signal x) (fun _ h => h) okF start).1
  · exact (State.guarded_keeps start fun _ => keep_runHaltDown k (fun _ h => h) okF start).1
  · exact (State.guarded_keeps start fun _ =>
      keep_runHaltUp (c := Config.hw) k (fun _ h => h) (fun _ h => h) nofun okF start).1

end Sys2Proof.Machine
end

section
/-! PROOFS. The outbound operations (40_outbound_frames.md R80 to R91, 70_reset_and_hazards.md R201): each is one `Send`
of its own frame, and what follows it reads the panel or empties the acknowledge queue. -/

namespace Sys2Proof.Machine

/-! ## One `Send` of the operation's frame -/

/-- What is pending while the frame of `i` goes out: the acknowledgement of `SEND_c` itself (R87). -/
def State.pendingFor (s : State) (i : Instr) : Option Ack :=
  match i with
  | .sendAck p m => some ⟨p, m⟩
  | _ => s.ackq

/-- The bytes of an operation on the wire of the active model, with the status fields as they are (R92). -/
def State.frameOf (s : State) (i : Instr) : Option (List Byte) :=
  encode (Config.hw.wm s.model) (Config.hw.addrLen (Config.hw.wm s.model)) s.s0 s.s1 i

/-- A part that just goes on adds nothing. -/
theorem Ran.andThen_goes_on (r : Ran) : r.andThen .on = r := by cases r <;> rfl

/-- No frame is empty. -/
theorem State.frameOf_pos {s : State} {i : Instr} {frame : List Byte} (h : s.frameOf i = some frame) :
    0 < frame.length := by
  cases i with
  | setBit f flag on => cases h
  | setRing level => cases h
  | setMmu e18 e22 => cases h
  | tick a d => cases h
  | _ => cases h; exact Nat.succ_pos _

/-- An operation that is one `Send`, when the transport takes the frame. -/
theorem State.guarded_send_ok {s : State} {rest : List SendResult} (ha : s.active = true) (hs : s.sends = .ok :: rest)
    {op : State → Ran} {frame : List Byte} (hop : op s = send frame s) :
    s.guarded op = (s.setSends rest).recordTx frame frame.length := by
  rw [State.guarded_active ha, hop, send_ok hs, Ran.state_on]

/-! ## The queries -/

/-- A query whose `Send` fails receives nothing (R91). -/
theorem querySwitches_fail {s : State} {k : Nat} {rest : List SendResult} (hs : s.sends = .fail k :: rest) :
    querySwitches s = .stop (((s.setSends rest).recordTx frameQ (k % 1)).report .transportIOError) := by
  rw [querySwitches, send_fail hs]
  rfl

/-- A switch response that breaks off is reported, and what came of it is consumed (R85, log 9). -/
theorem querySwitches_short {s : State} {rest : List SendResult} {came : List Byte} {rx : List (Option Byte)}
    (hs : s.sends = .ok :: rest) (hc : came.length < 5) (hx : s.rx = came.map some ++ none :: rx) :
    querySwitches s = .stop ((((s.setSends rest).recordTx frameQ 1).setRx rx).report .transportIOError) := by
  have gap := recv_gap came (s := (s.setSends rest).recordTx frameQ 1) hc hx
  have hf : frameQ.length = 1 := rfl
  simp only [querySwitches, send_ok hs, Ran.andThen_on, receive, hf, gap]

/-- A rotary response that does not come is reported (R86). -/
theorem queryRotary_none {s : State} {rest : List SendResult} {rx : List (Option Byte)}
    (hs : s.sends = .ok :: rest) (hx : s.rx = none :: rx) :
    queryRotary s = .stop ((((s.setSends rest).recordTx frameR 1).setRx rx).report .transportIOError) := by
  have gap := recv_gap [] (n := 1) (s := (s.setSends rest).recordTx frameR 1) (by decide) hx
  have hf : frameR.length = 1 := rfl
  simp only [queryRotary, send_ok hs, Ran.andThen_on, receive, hf, gap]

/-- A response, stored or broken off, adds no frame and takes no further `Send`. -/
theorem receive_keeps_tx {n : Nat} {store : List Byte → State → State} {s : State}
    (stored : ∀ bytes t, (store bytes t).tx = t.tx ∧ (store bytes t).sends = t.sends) :
    (receive n store s).state.tx = s.tx ∧ (receive n store s).state.sends = s.sends := by
  obtain ⟨rx, k, ⟨bytes, _, h⟩ | h⟩ := receive_cases n store s <;> rw [h]
  · exact stored bytes _
  · exact ⟨rfl, rfl⟩

theorem storeSnapshot_keeps_tx (bytes : List Byte) (t : State) :
    (storeSnapshot bytes t).tx = t.tx ∧ (storeSnapshot bytes t).sends = t.sends := by
  unfold storeSnapshot
  split <;> exact ⟨rfl, rfl⟩

theorem storeRotary_keeps_tx (bytes : List Byte) (t : State) :
    (storeRotary bytes t).tx = t.tx ∧ (storeRotary bytes t).sends = t.sends := by
  unfold storeRotary
  split <;> exact ⟨rfl, rfl⟩

/-! ## The shape of an outbound operation -/

/-- An active outbound operation sends its own frame, with its acknowledgement pending, and goes on from there without
another `Send`. -/
theorem exec_outbound_active {i : Instr} {s : State} (ho : i.direction = .outbound) (ha : s.active = true) :
    ∃ frame next, s.frameOf i = some frame ∧
      exec i s = .next ((send frame (s.setAckq (s.pendingFor i))).andThen next).state ∧
        ∀ t, (next t).state.tx = t.tx ∧ (next t).state.sends = t.sends := by
  have alone {op : State → Ran} {frame : List Byte} (hop : op s = send frame s) :
      (Host.Outcome.next (s.guarded op) : Host.Outcome State Fault Refusal) =
        .next ((send frame s).andThen .on).state := by
    rw [State.guarded_active ha, Ran.andThen_goes_on, hop]
  cases i with
  | sendQ => exact ⟨_, _, rfl, exec_sendQ_active ha, fun _ => receive_keeps_tx storeSnapshot_keeps_tx⟩
  | sendR => exact ⟨_, _, rfl, exec_sendR_active ha, fun _ => receive_keeps_tx storeRotary_keeps_tx⟩
  | sendAck p m => exact ⟨_, _, rfl, congrArg _ (State.guarded_active ha (acknowledge ⟨p, m⟩)), fun _ => ⟨rfl, rfl⟩⟩
  | sendA a => exact ⟨_, _, rfl, alone rfl, fun _ => ⟨rfl, rfl⟩⟩
  | sendD d => exact ⟨_, _, rfl, alone rfl, fun _ => ⟨rfl, rfl⟩⟩
  | sendB a d => exact ⟨_, _, rfl, alone rfl, fun _ => ⟨rfl, rfl⟩⟩
  | sendU a d => exact ⟨_, _, rfl, alone rfl, fun _ => ⟨rfl, rfl⟩⟩
  | sendF => exact ⟨_, _, rfl, alone rfl, fun _ => ⟨rfl, rfl⟩⟩
  | sendClearI => exact ⟨_, _, rfl, alone rfl, fun _ => ⟨rfl, rfl⟩⟩
  | sendClearA => exact ⟨_, _, rfl, alone rfl, fun _ => ⟨rfl, rfl⟩⟩
  | _ => cases ho

/-! ## What outbound operations leave alone -/

/-- The registers an outbound operation `i` leaves alone: all but the response of its query and its acknowledgement. -/
def OutboundKeeps (i : Instr) (s t : State) : Prop :=
  (SameStatus s t ∧ SameMirror s t ∧ SameCounters s t ∧ SameLink s t ∧ t.signals = s.signals) ∧
    (i ≠ .sendQ → t.sw = s.sw) ∧ (i ≠ .sendR → t.rot = s.rot) ∧ ((∀ p m, i ≠ .sendAck p m) → t.ackq = s.ackq)

theorem OutboundKeeps.refl (i : Instr) (s : State) : OutboundKeeps i s s :=
  ⟨⟨⟨rfl, rfl⟩, ⟨rfl, rfl, rfl, rfl, rfl⟩, ⟨rfl, rfl⟩, ⟨rfl, rfl, rfl, rfl, rfl, rfl⟩, rfl⟩, fun _ => rfl, fun _ => rfl,
    fun _ => rfl⟩

/-- No part of a `Send` writes a register. -/
theorem keptBySend_outboundKeeps (i : Instr) (s : State) : KeptBySend (OutboundKeeps i s) fun _ => True where
  answered _ _ _ h := h
  recorded _ _ _ _ _ h := h
  failed _ h := h
  abandoned _ h := h

/-- An outbound operation writes only what its rule names (40_outbound_frames.md R80 to R91). -/
theorem exec_outbound_keeps {i : Instr} {s t : State} (ho : i.direction = .outbound) (e : exec i s = .next t) :
    OutboundKeeps i s t := by
  have before := OutboundKeeps.refl i s
  have k := keptBySend_outboundKeeps i s
  cases i with
  | sendQ =>
    cases e
    exact State.guarded_keeps before fun _ => keep_querySwitches k (fun _ _ _ h => h)
      (fun _ _ ⟨h, _, hrot, hack⟩ => ⟨h, fun hne => absurd rfl hne, hrot, hack⟩) trivial before
  | sendR =>
    cases e
    exact State.guarded_keeps before fun _ => keep_queryRotary k (fun _ _ _ h => h)
      (fun _ _ ⟨h, hsw, _, hack⟩ => ⟨h, hsw, fun hne => absurd rfl hne, hack⟩) trivial before
  | sendAck p m =>
    cases e
    exact State.guarded_keeps before fun _ => keep_acknowledge k
      (fun _ _ ⟨h, hsw, hrot, _⟩ => ⟨h, hsw, hrot, fun hne => absurd rfl (hne p m)⟩) trivial before
  | sendA a => cases e; exact State.guarded_keeps before fun _ => keep_send k trivial before
  | sendD d => cases e; exact State.guarded_keeps before fun _ => keep_send k trivial before
  | sendB a d => cases e; exact State.guarded_keeps before fun _ => keep_send k trivial before
  | sendU a d => cases e; exact State.guarded_keeps before fun _ => keep_send k trivial before
  | sendF => cases e; exact State.guarded_keeps before fun _ => keep_send k trivial before
  | sendClearI => cases e; exact State.guarded_keeps before fun _ => keep_send k trivial before
  | sendClearA => cases e; exact State.guarded_keeps before fun _ => keep_send k trivial before
  | _ => cases ho

/-- One `Send`, and a part after it that adds no frame, add one frame. -/
theorem send_andThen_tx {s u : State} (hu : u.tx = s.tx) (frame : List Byte) {next : State → Ran}
    (hn : ∀ t, (next t).state.tx = t.tx) : ∃ e, ((send frame u).andThen next).state.tx = s.tx ++ [e] := by
  obtain ⟨k, hk⟩ := send_tx_one frame u
  rw [hu] at hk
  refine ⟨⟨frame, k⟩, ?_⟩
  cases hr : send frame u with
  | on v => rw [hr] at hk; exact (hn v).trans hk
  | stop v => rw [hr] at hk; exact hk

/-- An outbound operation adds at most its one frame. -/
theorem exec_outbound_tx {i : Instr} {s t : State} (ho : i.direction = .outbound) (e : exec i s = .next t) :
    t.tx = s.tx ∨ ∃ x, t.tx = s.tx ++ [x] := by
  cases ha : s.active with
  | false =>
    cases e.symm.trans (exec_inactive ha i)
    exact .inl rfl
  | true =>
    obtain ⟨frame, next, _, he, hn⟩ := exec_outbound_active ho ha
    cases e.symm.trans he
    exact .inr (send_andThen_tx rfl frame fun t => (hn t).1)

/-- A `Send` of an outbound operation that a detach abandons: a part of the frame is in the history, nothing else, and
the detach is taken next (70_reset_and_hazards.md R201). -/
theorem exec_outbound_abandoned {i : Instr} {s : State} {k : Nat} {rest : List SendResult}
    (ho : i.direction = .outbound) (ha : s.active = true) (hs : s.sends = .abandoned k :: rest) :
    ∃ frame, s.frameOf i = some frame ∧
      exec i s = .next
        (((s.setAckq (s.pendingFor i)).setSends rest).recordTx frame (k % (frame.length + 1))).detachNext := by
  obtain ⟨frame, next, hf, he, _⟩ := exec_outbound_active ho ha
  refine ⟨frame, hf, ?_⟩
  rw [he, send_abandoned (s := s.setAckq (s.pendingFor i)) hs]
  rfl

/-! ## The obligations -/

/-- Settles O16: one `Send` of the `A` frame. -/
theorem sendAddressFrame : Obligations.SendAddressFrame :=
  fun _ _ _ ha hs => congrArg _ (State.guarded_send_ok ha hs rfl)

/-- Settles O17: one `Send` of the `D` frame. -/
theorem sendDataFrame : Obligations.SendDataFrame :=
  fun _ _ _ ha hs => congrArg _ (State.guarded_send_ok ha hs rfl)

/-- Settles O18: one `Send` each, of the `B`, the `U` and the `F` frame. -/
theorem sendCompositeFrames : Obligations.SendCompositeFrames :=
  fun _ _ _ _ ha hs => ⟨congrArg _ (State.guarded_send_ok ha hs rfl), congrArg _ (State.guarded_send_ok ha hs rfl),
    congrArg _ (State.guarded_send_ok ha hs rfl)⟩

/-- Settles O19: the query is sent once, and its response is no frame. -/
theorem queryFramesSent : Obligations.QueryFramesSent := by
  refine fun s t rest ha hs => ⟨fun e => ?_, fun e => ?_⟩
  · rw [exec_sendQ_active ha, querySwitches, send_ok hs] at e
    cases e
    exact receive_keeps_tx storeSnapshot_keeps_tx
  · rw [exec_sendR_active ha, queryRotary, send_ok hs] at e
    cases e
    exact receive_keeps_tx storeRotary_keeps_tx

/-- Settles O21: the query is sent, and a shortfall ends it. -/
theorem shortResponseStoresNothing : Obligations.ShortResponseStoresNothing := by
  refine ⟨fun s rest came rx ha hs hc hx => ?_, fun s rest rx ha hs hx => ?_⟩
  · rw [exec_sendQ_active ha, querySwitches_short hs hc hx]
    rfl
  · rw [exec_sendR_active ha, queryRotary_none hs hx]
    rfl

/-- Settles O22: one `Send` each; the acknowledge empties the queue after it. -/
theorem toggleFramesSent : Obligations.ToggleFramesSent := by
  refine fun p m s rest ha hs => ⟨?_, congrArg _ (State.guarded_send_ok ha hs rfl),
    congrArg _ (State.guarded_send_ok ha hs rfl)⟩
  show Host.Outcome.next (s.guarded (acknowledge ⟨p, m⟩)) = _
  rw [State.guarded_active ha, acknowledge_ok hs]
  rfl

/-- Settles O23: the one `Send` fails, and what would follow it is skipped. -/
theorem failedSendEndsOperation : Obligations.FailedSendEndsOperation := by
  intro i s k rest ho ha hs
  obtain ⟨frame, next, hf, he, _⟩ := exec_outbound_active ho ha
  refine ⟨⟨frame, k % frame.length⟩, hf, rfl, Nat.mod_lt _ (State.frameOf_pos hf), ?_⟩
  rw [he, send_fail (s := s.setAckq (s.pendingFor i)) hs]
  rfl

/-- Settles O25: each operation keeps the registers its rule does not name, and adds at most its frame. -/
theorem outboundOperationsFrame : Obligations.OutboundOperationsFrame := by
  intro i s t ho e
  obtain ⟨⟨hstatus, hmirror, hcount, hlink, hsig⟩, hsw, hrot, hack⟩ := exec_outbound_keeps ho e
  exact ⟨hstatus, hmirror, hcount, hlink, hsig, exec_events e, hsw, hrot, hack,
    fun hq hr => (exec_outbound_sameResponses ho hq hr e).1, exec_outbound_tx ho e⟩

end Sys2Proof.Machine
end

section
/-! PROOFS. The console commands (43_console_commands.md R141 to R155): load-address, examine and deposit end in the
same three frames, the other commands in one status frame, and each command's result is the result of that end. -/

namespace Sys2Proof.Machine

/-! ## The meanings of the commands while the link is up -/

/-- The operation of a symbol runs the symbol's command under the guard (R140). -/
theorem exec_symbol (sym : Symbol) (b : Byte) (s : State) :
    exec (sym.instr b) s = .next (s.guarded (runSymbol Config.hw sym)) := by
  cases sym <;> rfl

section
variable {s : State} (ha : s.active = true)
include ha

theorem exec_symbol_active (sym : Symbol) (b : Byte) :
    exec (sym.instr b) s = .next (runSymbol Config.hw sym s).state := by
  rw [exec_symbol, State.guarded_active ha]

theorem exec_cmdH_active : exec .cmdH s = .next (runHaltDown s).state := exec_symbol_active ha .haltDown 0x48
theorem exec_cmdE_active : exec .cmdE s = .next (runHaltUp Config.hw s).state := exec_symbol_active ha .haltUp 0x45
theorem exec_cmdC_active : exec .cmdC s = .next (runContinue Config.hw s).state := exec_symbol_active ha .continue_ 0x63
theorem exec_cmdD_active : exec .cmdD s = .next (runDeposit Config.hw s).state := exec_symbol_active ha .deposit 0x64
theorem exec_cmdL_active : exec .cmdL s = .next (runLoadAddress Config.hw s).state :=
  exec_symbol_active ha .loadAddress 0x6C
theorem exec_cmdS_active : exec .cmdS s = .next (runStart s).state := exec_symbol_active ha .start 0x73
theorem exec_cmdX_active : exec .cmdX s = .next (runExamine Config.hw s).state := exec_symbol_active ha .examine 0x78

end

/-! ## The two ways a command ends -/

/-- The closing status frame, taken (R141). -/
theorem putF_ok {s : State} {rest : List SendResult} (hs : s.sends = .ok :: rest) :
    putF s = .on ((s.setSends rest).recordTx (frameF s.s0 s.s1) 3) := send_ok hs _

/-- The closing status frame, failed (R142). -/
theorem putF_fail {s : State} {k : Nat} {rest : List SendResult} (hs : s.sends = .fail k :: rest) :
    putF s = .stop (((s.setSends rest).recordTx (frameF s.s0 s.s1) (k % 3)).report .transportIOError) := send_fail hs _

/-- The switch query with its five bytes, as one update (40_outbound_frames.md R85). -/
theorem querySwitches_answered {s : State} {rest : List SendResult} {b0 b1 b2 b3 b4 : Byte} {rx : List (Option Byte)}
    (hs : s.sends = .ok :: rest) (hx : s.rx = some b0 :: some b1 :: some b2 :: some b3 :: some b4 :: rx) :
    querySwitches s = .on { s with
      sw := ⟨b0, b1, b2, b3, b4⟩, sends := rest, rx := rx, tx := s.tx ++ [⟨[0x51], 1⟩] } := querySwitches_ok hs hx

/-- How load-address, examine and deposit end: the frame that shows the address, the acknowledge and the status frame
(R145 to R147). -/
def showAndAcknowledge (frame : List Byte) (a : Ack) (s : State) : Ran :=
  (send frame s).andThen fun s => (acknowledge a s).andThen putF

/-- The three frames, taken; `past` is what the command has sent before them. -/
theorem showAndAcknowledge_ok {s : State} {rest : List SendResult} {before past : List Sent}
    (hs : s.sends = .ok :: .ok :: .ok :: rest) (htx : s.tx = before ++ past) (frame : List Byte) (a : Ack) :
    showAndAcknowledge frame a s = .on { s with
      ackq := none, sends := rest
      tx := before ++ (past ++ [⟨frame, frame.length⟩, ⟨frameAck a, 3⟩, ⟨frameF s.s0 s.s1, 3⟩]) } := by
  rw [showAndAcknowledge, send_ok hs, Ran.andThen_on, acknowledge_ok (rest := .ok :: rest) rfl, Ran.andThen_on,
    putF_ok (rest := rest) rfl]
  simp [State.recordTx, State.setSends, State.setAckq, htx]

/-- The history when the frame at fault comes after the first one. -/
theorem cutShort_cons (frame : List Byte) (frames : List (List Byte)) (n k : Nat) :
    cutShort (frame :: frames) (n + 1) k = ⟨frame, frame.length⟩ :: cutShort frames n k := rfl

/-- The history when the first frame is at fault. -/
theorem cutShort_zero (frame : List Byte) (frames : List (List Byte)) (k : Nat) :
    cutShort (frame :: frames) 0 k = [⟨frame, k % frame.length⟩] := rfl

/-- One of the three frames fails: the ones before it are in the history, an acknowledge that fails stays pending, and
the rest is skipped (R142; 40_outbound_frames.md R87). -/
theorem showAndAcknowledge_fails {s : State} {n k : Nat} {rest : List SendResult} {before past : List Sent} (hn : n < 3)
    (hs : s.sends = List.replicate n .ok ++ .fail k :: rest) (htx : s.tx = before ++ past) (frame : List Byte)
    (a : Ack) :
    showAndAcknowledge frame a s = .stop { s with
      ackq := if n = 0 then s.ackq else if n = 1 then some a else none
      sends := rest, reports := s.reports ++ [.transportIOError]
      tx := before ++ (past ++ cutShort [frame, frameAck a, frameF s.s0 s.s1] n k) } := by
  match n, hn with
  | 0, _ =>
    rw [showAndAcknowledge, send_fail hs]
    simp [State.recordTx, State.setSends, State.report, htx, cutShort_zero]
  | 1, _ =>
    rw [showAndAcknowledge, send_ok hs, Ran.andThen_on, acknowledge,
      send_fail (s := State.setAckq _ (some a)) (rest := rest) (k := k) rfl]
    simp [State.recordTx, State.setSends, State.setAckq, State.report, htx, cutShort_cons, cutShort_zero]
  | 2, _ =>
    rw [showAndAcknowledge, send_ok hs, Ran.andThen_on, acknowledge_ok (rest := .fail k :: rest) rfl, Ran.andThen_on,
      putF_fail (k := k) (rest := rest) rfl]
    simp [State.recordTx, State.setSends, State.setAckq, State.report, htx, cutShort_cons, cutShort_zero, frameF,
      frameAck]

/-! ## The commands by their ends -/

/-- Load-address is the query, its write, and the three frames (R145). -/
theorem runLoadAddress_eq (c : Config) (s : State) :
    runLoadAddress c s = (querySwitches s).andThen fun u =>
      showAndAcknowledge (frameA (c.wm u.model) (c.addrLen (c.wm u.model)) (u.switchAddr c)) c.ackLoad
        (loadSwitchAddr c u) := rfl

/-- Examine is its step and the three frames (R146). -/
theorem runExamine_eq (c : Config) (s : State) :
    runExamine c s =
      showAndAcknowledge
        (frameA (c.wm (examineStep c s).model) (c.addrLen (c.wm (examineStep c s).model)) (examineStep c s).actAddr)
        c.ackExam (examineStep c s) := rfl

theorem Ran.andThen_assoc (r : Ran) (f g : State → Ran) :
    (r.andThen f).andThen g = r.andThen fun s => (f s).andThen g := by
  cases r <;> rfl

/-- What load-address writes after its query, as one update (R145). -/
theorem loadSwitchAddr_eq (c : Config) (s : State) :
    loadSwitchAddr c s =
      { s with actAddr := s.switchAddr c, invAddr := false, firstExam := true, firstDep := true } := rfl

/-- What a deposit writes and signals before its frames (R147). -/
def depositMove (t : Addr) (s : State) : State :=
  { s with actAddr := t, firstDep := false, signals := s.signals ++ [.deposit t (s.switchData Config.hw)] }

/-- Deposit with a target in range and outside ROM is the query, its move, and the three frames (R147). -/
theorem runDeposit_moves {s : State} (hi : s.invAddr = false)
    (ht : s.inRange Config.hw (s.target Config.hw s.firstDep) = true)
    (hr : s.inRomWindow Config.hw (s.target Config.hw s.firstDep) = false) :
    runDeposit Config.hw s = (querySwitches s).andThen fun u =>
      showAndAcknowledge
        (frameB (Config.hw.width u.model) .three (s.target Config.hw s.firstDep) (u.switchData Config.hw))
        Config.hw.ackDepo (depositMove (s.target Config.hw s.firstDep) u) := by
  rw [runDeposit, depositStep_moves hi ht hr, Ran.andThen_assoc]
  cases querySwitches s with
  | stop u => rfl
  | on u => exact Ran.andThen_assoc _ _ _

/-- A target is in range on the hardware when it is within the model's width (R150). -/
theorem State.inRange_iff {s : State} {t : Addr} :
    s.inRange Config.hw t = true ↔ t ≤ (Config.hw.width s.model).fullMask := decide_eq_true_iff

theorem State.inRange_eq_false {s : State} {t : Addr} (h : ¬ t ≤ (Config.hw.width s.model).fullMask) :
    s.inRange Config.hw t = false := decide_eq_false h

/-! ## The address-error bit and the invalid path, by model -/

/-- The status fields `v0` and `v1` are those of `s`, but for the address-error bit, which is driven to `on` where the
model has it (R148, R152). -/
def AddrErrDriven (s : State) (on : Bool) (v0 v1 : Byte) : Prop :=
  (s.model = .m3 ∨ s.model = .m4 →
    { s with s0 := v0, s1 := v1 }.statusBit Config.hw.layout.addrErr = on ∧
    SameStatusBut [Config.hw.layout.addrErr] s { s with s0 := v0, s1 := v1 }) ∧
  (s.model ≠ .m3 → s.model ≠ .m4 → v0 = s.s0 ∧ v1 = s.s1)

theorem addrErrDriven_of_effect {s : State} {on : Bool} {v0 v1 : Byte}
    (has : s.model.addrErrBit = true → { s with s0 := v0, s1 := v1 }.statusBit Config.hw.layout.addrErr = on ∧
      ∀ p, p ≠ Config.hw.layout.addrErr → { s with s0 := v0, s1 := v1 }.statusBit p = s.statusBit p)
    (hasNot : s.model.addrErrBit = false → v0 = s.s0 ∧ v1 = s.s1) : AddrErrDriven s on v0 v1 := by
  refine ⟨fun hm => ?_, fun h3 h4 => hasNot ?_⟩
  · obtain ⟨hbit, hother⟩ := has (by obtain h | h := hm <;> rw [h] <;> rfl)
    exact ⟨hbit, fun p hp => hother p fun e => hp (by simp [e])⟩
  · cases hm : s.model with
    | m3 => exact absurd hm h3
    | m4 => exact absurd hm h4
    | _ => rfl

/-- A write of the address-error bit, as one update. -/
theorem State.driveAddrErr_eq (s : State) (on : Bool) :
    ∃ v0 v1, s.driveAddrErr Config.hw on = { s with s0 := v0, s1 := v1 } ∧ AddrErrDriven s on v0 v1 := by
  obtain ⟨v0, v1, e, has, hasNot⟩ := s.driveAddrErr_effect on
  exact ⟨v0, v1, e, addrErrDriven_of_effect has hasNot⟩

/-- The invalid path, as one update. -/
theorem invalidPath_eq (s : State) :
    ∃ v0 v1, invalidPath Config.hw s = { s with
        s0 := v0, s1 := v1, invAddr := true, reports := s.reports ++ [.invalidAddress]
        signals := s.signals ++ if s.model = .m0 ∨ s.model = .m1 then [.freeze] else [] } ∧
      AddrErrDriven s true v0 v1 := by
  have freezes : (if s.model.freezeOnInvalid then [Signal.freeze] else []) =
      if s.model = .m0 ∨ s.model = .m1 then [.freeze] else [] := by cases s.model <;> rfl
  obtain ⟨v0, v1, e, has, hasNot⟩ := invalidPath_effect s
  exact ⟨v0, v1, freezes ▸ e, addrErrDriven_of_effect has hasNot⟩

end Sys2Proof.Machine
end

section
/-! PROOFS. What each console command does (43_console_commands.md R144 to R154, 60_exceptions.md R183, R184, R187), on
every path and with each of its frames at fault. -/

namespace Sys2Proof.Machine

/-! ## Commands of one frame -/

/-- Settles O28: each of the two keys is its write and the status frame. -/
theorem haltKeySetsMode : Obligations.HaltKeySetsMode := by
  refine fun s rest ha hs => ⟨?_, ?_⟩
  · rw [exec_cmdH_active ha, runHaltDown, putF_ok (rest := rest)]
    · rfl
    · exact hs
  · rw [exec_cmdE_active ha]
    show Host.Outcome.next (putF ((s.setHaltMode .enableIdle).setAckq none)).state = _
    rw [putF_ok (rest := rest)]
    · rfl
    · exact hs

/-- Settles O30: the signal is the mode's, and the mode is Run after it. -/
theorem startSignals : Obligations.StartSignals := by
  intro s rest ha hs
  rw [exec_cmdS_active ha, runStart]
  split
  · rw [putF_ok (rest := rest)]
    · rfl
    · exact hs
  · rw [putF_ok (rest := rest)]
    · rfl
    · exact hs

/-- Settles O29: in HaltDown nothing but the signal is written, else the address-error bit is cleared too. -/
theorem continueSignals : Obligations.ContinueSignals := by
  refine fun s rest ha hs => ⟨fun hm => ?_, fun hm => ?_⟩
  · rw [exec_cmdC_active ha, runContinue, if_pos hm, putF_ok (rest := rest)]
    · rfl
    · exact hs
  · obtain ⟨v0, v1, e, has, hasNot⟩ := (s.signal .continue_).driveAddrErr_eq false
    refine ⟨v0, v1, ?_, has, hasNot⟩
    rw [exec_cmdC_active ha, runContinue, if_neg hm, e, putF_ok (rest := rest)]
    · rfl
    · exact hs

/-! ## Load-address, examine and deposit, when their frames get through -/

/-- Settles O31: the query stores the snapshot, the masked switch value is loaded from it, and the three frames go
out. -/
theorem loadAddressLoadsSwitches : Obligations.LoadAddressLoadsSwitches := by
  rintro s rest b0 b1 b2 b3 b4 rx _ ha hs hx rfl
  rw [exec_cmdL_active ha, runLoadAddress_eq, querySwitches_answered hs hx, Ran.andThen_on, loadSwitchAddr_eq,
    showAndAcknowledge_ok (rest := rest) (before := s.tx) (past := [⟨[0x51], 1⟩]) rfl rfl]
  rfl

/-- Settles O35: the examine moves, and the three frames show it. -/
theorem examineMovesAddress : Obligations.ExamineMovesAddress := by
  rintro s rest _ ha hs hi rfl ht
  rw [exec_cmdX_active ha, runExamine_eq, examineStep_moves hi (State.inRange_iff.mpr ht),
    showAndAcknowledge_ok (rest := rest) (before := s.tx) (past := [])]
  · rfl
  · exact hs
  · exact (List.append_nil _).symm

/-- Settles O36: the query stores the snapshot the datum is taken from, the deposit moves, and the three frames show
it. -/
theorem depositMovesAddress : Obligations.DepositMovesAddress := by
  rintro s rest b0 b1 b2 b3 b4 rx _ _ ha hs hx hi rfl ht hr rfl
  rw [exec_cmdD_active ha, runDeposit_moves hi (State.inRange_iff.mpr ht) hr, querySwitches_answered hs hx,
    Ran.andThen_on, depositMove,
    showAndAcknowledge_ok (rest := rest) (before := s.tx) (past := [⟨[0x51], 1⟩]) rfl rfl]
  rfl

/-! ## The invalid path and the ROM windows -/

/-- An address marked invalid, or a target beyond the model's mask, takes the invalid path (R146 to R148). -/
theorem invalid_or_out_of_range {s : State} {t : Addr}
    (h : s.invAddr = true ∨ ¬ t ≤ (Config.hw.width s.model).fullMask) :
    s.invAddr = true ∨ s.inRange Config.hw t = false := h.imp id State.inRange_eq_false

/-- Examine on the invalid path: the three frames after its writes. -/
theorem exec_cmdX_invalid {s : State} {rest : List SendResult} (ha : s.active = true)
    (hs : s.sends = .ok :: .ok :: .ok :: rest)
    (h : s.invAddr = true ∨ ¬ s.target Config.hw s.firstExam ≤ (Config.hw.width s.model).fullMask) :
    ∃ v0 v1, AddrErrDriven s true v0 v1 ∧ exec .cmdX s = .next { s with
      s0 := v0, s1 := v1, invAddr := true, ackq := none, sends := rest
      reports := s.reports ++ [.invalidAddress]
      signals := s.signals ++ if s.model = .m0 ∨ s.model = .m1 then [.freeze] else []
      tx := s.tx ++ [⟨0x41 :: addrBytes (Config.hw.width s.model) .three s.actAddr, 4⟩,
        ⟨[0x63, Config.hw.ackExam.port, Config.hw.ackExam.mask], 3⟩, ⟨[0x46, v0, v1], 3⟩] } := by
  obtain ⟨v0, v1, e, driven⟩ := invalidPath_eq s
  refine ⟨v0, v1, driven, ?_⟩
  rw [exec_cmdX_active ha, runExamine_eq, examineStep_invalid (invalid_or_out_of_range h), e,
    showAndAcknowledge_ok (rest := rest) (before := s.tx) (past := [])]
  · rfl
  · exact hs
  · exact (List.append_nil _).symm

/-- Deposit on the invalid path: the status frame after its writes. -/
theorem exec_cmdD_invalid {s : State} {rest : List SendResult} (ha : s.active = true) (hs : s.sends = .ok :: rest)
    (h : s.invAddr = true ∨ ¬ s.target Config.hw s.firstDep ≤ (Config.hw.width s.model).fullMask) :
    ∃ v0 v1, AddrErrDriven s true v0 v1 ∧ exec .cmdD s = .next { s with
      s0 := v0, s1 := v1, invAddr := true, sends := rest
      reports := s.reports ++ [.invalidAddress]
      signals := s.signals ++ if s.model = .m0 ∨ s.model = .m1 then [.freeze] else []
      tx := s.tx ++ [⟨[0x46, v0, v1], 3⟩] } := by
  obtain ⟨v0, v1, e, driven⟩ := invalidPath_eq s
  refine ⟨v0, v1, driven, ?_⟩
  rw [exec_cmdD_active ha, runDeposit, depositStep_invalid (invalid_or_out_of_range h), e, Ran.andThen_on,
    putF_ok (rest := rest)]
  · rfl
  · exact hs

/-- Deposit into a ROM window: the report and the status frame. -/
theorem exec_cmdD_rom {s : State} {rest : List SendResult} (ha : s.active = true) (hs : s.sends = .ok :: rest)
    (hi : s.invAddr = false) (ht : s.target Config.hw s.firstDep ≤ (Config.hw.width s.model).fullMask)
    (hr : inRom (Config.hw.width s.model) (s.target Config.hw s.firstDep) = true) :
    exec .cmdD s = .next { s with
      sends := rest, reports := s.reports ++ [.bootRomProtected], tx := s.tx ++ [⟨[0x46, s.s0, s.s1], 3⟩] } := by
  rw [exec_cmdD_active ha, runDeposit, depositStep_rom hi (State.inRange_iff.mpr ht) hr, Ran.andThen_on,
    putF_ok (rest := rest)]
  · rfl
  · exact hs

/-- The ROM windows in numbers (20_memory.md R42). -/
theorem inRom_iff (w : Width) (t : Addr) :
    inRom w t = true ↔
      (0xEA00 ≤ t.toNat ∧ t.toNat < 0xEC00) ∨ (0xF600 ≤ t.toNat ∧ t.toNat < 0xF800) ∨
        (w = .w22 ∧ ((0x3FEA00 ≤ t.toNat ∧ t.toNat < 0x3FEC00) ∨ (0x3FF600 ≤ t.toNat ∧ t.toNat < 0x3FF800))) := by
  simp [inRom, BitVec.le_def, BitVec.lt_def, or_assoc]

/-- The reports of `t` are those of `s` and others that are no rejection by a ROM window. -/
def NoRomReport (s t : State) : Prop := ∃ added, t.reports = s.reports ++ added ∧ .bootRomProtected ∉ added

theorem NoRomReport.refl (s : State) : NoRomReport s s := ⟨[], (List.append_nil _).symm, nofun⟩

theorem NoRomReport.report {s t : State} (h : NoRomReport s t) {k : ErrorKind} (hk : .bootRomProtected ≠ k) :
    NoRomReport s (t.report k) := by
  obtain ⟨added, he, hn⟩ := h
  exact ⟨added ++ [k], by rw [State.report_reports, he, List.append_assoc], by simp [hn, hk]⟩

theorem keptBySend_noRomReport (s : State) : KeptBySend (NoRomReport s) fun _ => True where
  answered _ _ _ h := h
  recorded _ _ _ _ _ h := h
  failed _ h := h.report (by decide)
  abandoned _ h := h

/-- Examine and load-address never report a ROM window (R149). -/
theorem exec_noRomReport {i : Instr} {s t : State} (hi : i = .cmdX ∨ i = .cmdL) (e : exec i s = .next t) :
    NoRomReport s t := by
  have k := keptBySend_noRomReport s
  have before := NoRomReport.refl s
  obtain rfl | rfl := hi
  · cases e
    exact State.guarded_keeps before fun _ => keep_runExamine k (fun _ _ h => h) (fun _ _ _ h => h) (fun _ _ h => h)
      (fun _ _ h => h) nofun (fun _ on h => keep_driveAddrErr (fun _ _ _ h => h) h on)
      (fun _ h => h.report (by decide)) (fun _ _ h => h) (fun _ _ _ => trivial) trivial (fun _ _ => trivial) before
  · cases e
    exact State.guarded_keeps before fun _ => keep_runLoadAddress k (fun _ _ _ h => h) (fun _ _ h => h) (fun _ h => h)
      (fun _ _ h => h) (fun _ _ h => h) (fun _ _ h => h) (fun _ _ h => h) trivial (fun _ _ _ => trivial) trivial
      (fun _ _ => trivial) before

/-- Settles O37: the writes of the invalid path, before the frames of each command. -/
theorem invalidAddressPath : Obligations.InvalidAddressPath := by
  refine ⟨fun s rest ha hs h => ?_, fun s rest ha hs h => ?_⟩
  · obtain ⟨v0, v1, driven, e⟩ := exec_cmdX_invalid ha hs h
    exact ⟨v0, v1, _, e, driven⟩
  · obtain ⟨v0, v1, driven, e⟩ := exec_cmdD_invalid ha hs h
    exact ⟨v0, v1, _, e, driven⟩

/-- Settles O38: the deposit reports and sends its status frame; the other two commands have no such report. -/
theorem romDepositRejected : Obligations.RomDepositRejected := by
  refine ⟨?_, fun i s t hi e => exec_noRomReport hi e⟩
  rintro s rest _ ha hs hi rfl ht hw
  exact ⟨_, exec_cmdD_rom ha hs hi ht ((inRom_iff _ _).mpr hw)⟩

/-- Settles O39: the frames of the invalid path of each command, and of the ROM path. -/
theorem rejectedCommandFrames : Obligations.RejectedCommandFrames := by
  refine fun s t rest ha hs => ⟨fun h e => ?_, fun h e => ?_⟩
  · obtain ⟨v0, v1, _, e'⟩ := exec_cmdX_invalid ha hs h
    cases e.symm.trans e'
    rfl
  · by_cases hinv : s.invAddr = true ∨ ¬ s.target Config.hw s.firstDep ≤ (Config.hw.width s.model).fullMask
    · obtain ⟨v0, v1, _, e'⟩ := exec_cmdD_invalid ha hs hinv
      cases e.symm.trans e'
      rfl
    · rw [not_or, not_not, Bool.not_eq_true] at hinv
      have hr : inRom (Config.hw.width s.model) (s.target Config.hw s.firstDep) = true := by
        simpa [hinv.1, hinv.2] using h
      cases e.symm.trans (exec_cmdD_rom ha hs hinv.1 hinv.2 hr)
      rfl

end Sys2Proof.Machine
end

section
/-! PROOFS. Commands that end early: a query or a frame at fault (43_console_commands.md R142), a frame that a detach
abandons (70_reset_and_hazards.md R201); and the frame that ends a command that does not (R141). -/

namespace Sys2Proof.Machine

/-! ## A query at fault -/

/-- Load-address, and deposit with a target in range and outside ROM, begin with the switch query (R145, R147). -/
theorem exec_query_first {i : Instr} {s : State} (ha : s.active = true)
    (hi : i = .cmdL ∨ i = .cmdD ∧ s.invAddr = false ∧
      s.target Config.hw s.firstDep ≤ (Config.hw.width s.model).fullMask ∧
      inRom (Config.hw.width s.model) (s.target Config.hw s.firstDep) = false) :
    ∃ next, exec i s = .next ((querySwitches s).andThen next).state := by
  obtain rfl | ⟨rfl, hinv, ht, hr⟩ := hi
  · exact ⟨_, by rw [exec_cmdL_active ha, runLoadAddress_eq]⟩
  · exact ⟨_, by rw [exec_cmdD_active ha, runDeposit_moves hinv (State.inRange_iff.mpr ht) hr]⟩

/-- Settles O33: the query stops the command before its first write. -/
theorem failedQueryWritesNoAddress : Obligations.FailedQueryWritesNoAddress := by
  intro i s ha hi
  obtain ⟨next, e⟩ := exec_query_first ha hi
  refine ⟨fun k rest hs => ?_, fun rest came rx hs hc hx => ?_⟩
  · rw [e, querySwitches_fail hs, Nat.mod_one]
    rfl
  · rw [e, querySwitches_short hs hc hx]
    rfl

/-! ## One frame at fault -/

/-- The query got through, and `n` frames after it, before the `k`-th answer fails. -/
theorem replicate_succ_append {n : Nat} {r : SendResult} {rest l : List SendResult}
    (hs : l = List.replicate (n + 1) .ok ++ r :: rest) : l = .ok :: (List.replicate n .ok ++ r :: rest) := hs

/-- Which acknowledgement is pending when the frame after the query and `n` others is at fault. -/
theorem ite_succ (n : Nat) (x y z : Option Ack) :
    (if n + 1 = 1 then x else if n + 1 = 2 then y else z) = if n = 0 then x else if n = 1 then y else z := by
  simp

/-- Driving the address-error bit does not touch the transport's input. -/
theorem State.driveAddrErr_sends (s : State) (on : Bool) (l : List SendResult) :
    { s with sends := l }.driveAddrErr Config.hw on = { s.driveAddrErr Config.hw on with sends := l } := by
  unfold State.driveAddrErr State.writeBit State.driveStatus
  split
  · cases Config.hw.layout.addrErr.field <;> rfl
  · rfl

/-- A command of one frame: what it writes does not rest on the transport, and then the status frame is sent. -/
theorem exec_one_frame {i : Instr} (hi : i ∈ [Instr.cmdH, .cmdE, .cmdC, .cmdS]) {s : State} (ha : s.active = true) :
    ∃ u : State, u.tx = s.tx ∧ u.reports = s.reports ∧
      ∀ l, exec i { s with sends := l } = .next (putF { u with sends := l }).state := by
  simp only [List.mem_cons, List.not_mem_nil, or_false] at hi
  obtain rfl | rfl | rfl | rfl := hi
  · exact ⟨s.setHaltMode .haltDown, rfl, rfl, fun l => exec_cmdH_active (s := { s with sends := l }) ha⟩
  · exact ⟨(s.setHaltMode .enableIdle).setAckq none, rfl, rfl,
      fun l => exec_cmdE_active (s := { s with sends := l }) ha⟩
  · by_cases hm : s.haltMode = .haltDown
    · refine ⟨s.signal .step, rfl, rfl, fun l => ?_⟩
      rw [exec_cmdC_active (s := { s with sends := l }) ha, runContinue, if_pos hm]
      rfl
    · obtain ⟨v0, v1, e⟩ := (s.signal .continue_).driveAddrErr_only Config.hw false
      refine ⟨(s.signal .continue_).driveAddrErr Config.hw false, by rw [e]; rfl, by rw [e]; rfl, fun l => ?_⟩
      rw [exec_cmdC_active (s := { s with sends := l }) ha, runContinue, if_neg hm]
      exact congrArg (fun v => Host.Outcome.next (putF v).state) ((s.signal .continue_).driveAddrErr_sends false l)
  · by_cases hm : s.haltMode = .haltDown
    · refine ⟨(s.signal .resetAll).setHaltMode .run, rfl, rfl, fun l => ?_⟩
      rw [exec_cmdS_active (s := { s with sends := l }) ha, runStart, if_pos hm]
      rfl
    · refine ⟨(s.signal (.run s.actAddr)).setHaltMode .run, rfl, rfl, fun l => ?_⟩
      rw [exec_cmdS_active (s := { s with sends := l }) ha, runStart, if_neg hm]
      rfl

/-- Settles O32: by the end each command has, cut at the frame at fault. -/
theorem failedFrameSkipsRestOfCommand : Obligations.FailedFrameSkipsRestOfCommand := by
  intro s n k rest ha hs
  refine ⟨?_, ?_, ?_, ?_⟩
  · rintro b0 b1 b2 b3 b4 rx _ h1 h4 hx rfl
    obtain ⟨m, rfl⟩ : ∃ m, n = m + 1 := ⟨n - 1, by omega⟩
    rw [exec_cmdL_active ha, runLoadAddress_eq, querySwitches_answered (replicate_succ_append hs) hx, Ran.andThen_on,
      loadSwitchAddr_eq, showAndAcknowledge_fails (n := m) (k := k) (rest := rest) (before := s.tx)
        (past := [⟨[0x51], 1⟩]) (by omega) rfl rfl, ite_succ]
    rfl
  · rintro _ h3 hi rfl ht
    rw [exec_cmdX_active ha, runExamine_eq, examineStep_moves hi (State.inRange_iff.mpr ht),
      showAndAcknowledge_fails (n := n) (k := k) (rest := rest) (before := s.tx) (past := []) h3]
    · rfl
    · exact hs
    · exact (List.append_nil _).symm
  · rintro b0 b1 b2 b3 b4 rx _ _ h1 h4 hx hi rfl ht hr rfl
    obtain ⟨m, rfl⟩ : ∃ m, n = m + 1 := ⟨n - 1, by omega⟩
    rw [exec_cmdD_active ha, runDeposit_moves hi (State.inRange_iff.mpr ht) hr,
      querySwitches_answered (replicate_succ_append hs) hx, Ran.andThen_on, depositMove,
      showAndAcknowledge_fails (n := m) (k := k) (rest := rest) (before := s.tx) (past := [⟨[0x51], 1⟩]) (by omega)
        rfl rfl, ite_succ]
    rfl
  · rintro i t rfl hi e
    obtain ⟨u, htx, hrep, run⟩ := exec_one_frame hi ha
    have hfail : exec i s = .next (putF { u with sends := .fail k :: rest }).state :=
      (run s.sends).trans (by rw [hs]; rfl)
    rw [run, putF_ok (rest := rest) rfl] at e
    cases e
    rw [hfail, putF_fail (k := k) (rest := rest) rfl, ← htx, ← hrep]
    rfl

/-! ## A frame that a detach abandons -/

/-- The frame that shows the address, abandoned: the acknowledge and the status frame are not sent (R201). -/
theorem showAndAcknowledge_abandoned {s : State} {k : Nat} {rest : List SendResult} {before past : List Sent}
    (hs : s.sends = .abandoned k :: rest) (htx : s.tx = before ++ past) (frame : List Byte) (a : Ack) :
    showAndAcknowledge frame a s = .stop { s with
      sends := rest, events := .detach :: s.events
      tx := before ++ (past ++ [⟨frame, k % (frame.length + 1)⟩]) } := by
  rw [showAndAcknowledge, send_abandoned hs]
  simp [State.recordTx, State.setSends, State.detachNext, State.setEvents, htx]

/-- Settles O24: the one `Send` of an outbound operation, the address frame of a load-address, and in general the detach
that an operation leaves, which the next step takes. -/
theorem detachAbandonsSend : Obligations.DetachAbandonsSend := by
  refine ⟨fun i s k rest ev ho ha hs hev => ?_, ?_, fun i s t e => ?_⟩
  · have hw : i.wellFormed = true := wellFormed_of_not_inbound (by simp [ho])
    obtain ⟨frame, hf, he⟩ := exec_outbound_abandoned (s := s.setEvents ev) ho ha hs
    exact ⟨frame, _, _, hf, (step_invoke hw hev).trans he, step_detach rfl, rfl, rfl, rfl, rfl, rfl, rfl,
      exec_discard _⟩
  · rintro s k rest b0 b1 b2 b3 b4 rx _ ha hs hx rfl
    rw [exec_cmdL_active ha, runLoadAddress_eq, querySwitches_answered hs hx, Ran.andThen_on, loadSwitchAddr_eq,
      showAndAcknowledge_abandoned (k := k) (rest := rest) (before := s.tx) (past := [⟨[0x51], 1⟩]) rfl rfl]
    rfl
  · obtain h | h := exec_events e
    · exact .inl h
    · exact .inr ⟨h, _, step_detach h, rfl, rfl, rfl, rfl, rfl⟩

/-! ## The closing status frame -/

/-- The last frame of the history is a status frame with the status fields as they are (R141). -/
def EndsWithStatus (t : State) : Prop := t.tx.getLast? = some ⟨[0x46, t.s0, t.s1], 3⟩

theorem endsWithStatus_putF {s : State} {rest : List SendResult} (hs : s.sends = .ok :: rest) :
    EndsWithStatus (putF s).state := by
  rw [putF_ok hs]
  exact List.getLast?_concat

theorem endsWithStatus_showAndAcknowledge {s : State} {rest : List SendResult}
    (hs : s.sends = .ok :: .ok :: .ok :: rest) (frame : List Byte) (a : Ack) :
    EndsWithStatus (showAndAcknowledge frame a s).state := by
  rw [showAndAcknowledge_ok (before := s.tx) (past := []) hs (List.append_nil _).symm]
  exact List.getLast?_append_of_ne_nil _ (List.cons_ne_nil _ _)

/-- The writes before the frames of a command take no `Send`. -/
theorem State.driveAddrErr_keeps_sends (s : State) (on : Bool) : (s.driveAddrErr Config.hw on).sends = s.sends := by
  obtain ⟨v0, v1, e⟩ := s.driveAddrErr_only Config.hw on
  rw [e]

theorem invalidPath_keeps_sends (s : State) : (invalidPath Config.hw s).sends = s.sends := by
  obtain ⟨v0, v1, e, _⟩ := invalidPath_eq s
  rw [e]

theorem examineStep_keeps_sends (s : State) : (examineStep Config.hw s).sends = s.sends :=
  keep_examineStep (P := fun t => t.sends = s.sends) (fun _ _ h => h) (fun _ _ _ h => h) (fun _ _ h => h)
    (fun _ _ h => h) nofun (fun t on h => (t.driveAddrErr_keeps_sends on).trans h) (fun _ h => h) rfl

/-- The bytes of a whole switch response, one by one. -/
theorem exists_of_length_five {came : List Byte} (h : came.length = 5) :
    ∃ b0 b1 b2 b3 b4, came = [b0, b1, b2, b3, b4] := by
  match came, h with
  | [b0, b1, b2, b3, b4], _ => exact ⟨b0, b1, b2, b3, b4, rfl⟩

/-- Settles O41: every path of every command ends in the status frame, alone or after the other two frames. -/
theorem commandEndsWithStatusFrame : Obligations.CommandEndsWithStatusFrame := by
  intro i s t rest came rx hi ha hs hc hx e
  obtain ⟨b0, b1, b2, b3, b4, rfl⟩ := exists_of_length_five hc
  show EndsWithStatus t
  simp only [List.mem_cons, List.not_mem_nil, or_false] at hi
  obtain rfl | rfl | rfl | rfl | rfl | rfl | rfl := hi
  · cases (exec_cmdH_active ha).symm.trans e
    exact endsWithStatus_putF hs
  · cases (exec_cmdE_active ha).symm.trans e
    exact endsWithStatus_putF hs
  · cases (exec_cmdC_active ha).symm.trans e
    unfold runContinue
    split
    · exact endsWithStatus_putF (s := s.signal .step) hs
    · exact endsWithStatus_putF ((State.driveAddrErr_keeps_sends _ _).trans hs)
  · cases (exec_cmdD_active ha).symm.trans e
    by_cases hinv : s.invAddr = true ∨ s.inRange Config.hw (s.target Config.hw s.firstDep) = false
    · rw [runDeposit, depositStep_invalid hinv]
      exact endsWithStatus_putF ((invalidPath_keeps_sends s).trans hs)
    · simp only [not_or, Bool.not_eq_true, Bool.not_eq_false] at hinv
      obtain ⟨hi, ht⟩ := hinv
      cases hr : s.inRomWindow Config.hw (s.target Config.hw s.firstDep) with
      | true =>
        rw [runDeposit, depositStep_rom hi ht hr]
        exact endsWithStatus_putF (s := s.report .bootRomProtected) hs
      | false =>
        rw [runDeposit_moves hi ht hr, querySwitches_answered hs hx, Ran.andThen_on, depositMove]
        exact endsWithStatus_showAndAcknowledge (rest := rest) rfl _ _
  · cases (exec_cmdL_active ha).symm.trans e
    rw [runLoadAddress_eq, querySwitches_answered hs hx, Ran.andThen_on, loadSwitchAddr_eq]
    exact endsWithStatus_showAndAcknowledge (rest := rest) rfl _ _
  · cases (exec_cmdS_active ha).symm.trans e
    unfold runStart
    split
    · exact endsWithStatus_putF (s := (s.signal .resetAll).setHaltMode .run) hs
    · exact endsWithStatus_putF (s := (s.signal (.run s.actAddr)).setHaltMode .run) hs
  · cases (exec_cmdX_active ha).symm.trans e
    rw [runExamine_eq]
    exact endsWithStatus_showAndAcknowledge ((examineStep_keeps_sends s).trans hs) _ _

end Sys2Proof.Machine
end

section
/-! PROOFS. The increment, and what each inbound operation leaves alone, whatever the transport and the panel do
(43_console_commands.md R143 to R154). -/

namespace Sys2Proof.Machine

/-! ## The increment -/

/-- Masking off the lowest of 22 bits leaves the even part. -/
theorem and_even_mask (n : Nat) (h : n < 2 ^ 22) : n &&& 0x3FFFFE = n / 2 * 2 := by
  have high : (n &&& 0x3FFFFE) / 2 = n / 2 :=
    Nat.and_div_two.trans (Nat.and_two_pow_sub_one_of_lt_two_pow (n := 21) (by omega))
  have low : (n &&& 0x3FFFFE) % 2 = 0 := (Nat.and_mod_two_pow (n := 1)).trans (Nat.and_zero _)
  omega

/-- Settles O34: inside the window the next address, outside it the even part of the next but one. -/
theorem incrementRule : Obligations.IncrementRule := by
  refine ⟨fun a h0 h1 => ?_, fun a h => ?_, fun s => ⟨rfl, rfl⟩⟩
  · have hw : inRegWindow a = true := by
      simp only [inRegWindow, BitVec.le_def, Bool.and_eq_true, decide_eq_true_eq]
      exact ⟨h0, h1⟩
    rw [incr, Config.hw_regWindow, if_pos hw, BitVec.toNat_add, Nat.mod_eq_of_lt]
    · rfl
    · exact Nat.lt_of_le_of_lt (Nat.succ_le_succ h1) (by decide)
  · have hw : ¬ inRegWindow a = true := by
      simp only [inRegWindow, BitVec.le_def, Bool.and_eq_true, decide_eq_true_eq, not_and, not_le]
      intro h0
      exact h.resolve_left (Nat.not_lt.mpr h0)
    rw [incr, Config.hw_regWindow, if_neg hw, BitVec.toNat_and, BitVec.toNat_add]
    refine (and_even_mask _ (Nat.mod_lt _ (by decide))).trans ?_
    show (a.toNat + 2) % 2 ^ 22 / 2 * 2 = _
    omega

/-! ## The console commands -/

/-- The registers and inputs an inbound operation `i` leaves alone (R145 to R154). -/
structure CommandKeeps (i : Instr) (s t : State) : Prop where
  counters : SameCounters s t
  link : SameLink s t
  rot : t.rot = s.rot
  status : i ≠ .cmdX → i ≠ .cmdD → i ≠ .cmdC → SameStatus s t
  statusOfModel : s.model.addrErrBit = false → SameStatus s t
  statusBits : SameStatusBut [Config.hw.layout.addrErr] s t
  responses : i ≠ .cmdL → i ≠ .cmdD → t.sw = s.sw ∧ t.rx = s.rx
  addr : i ≠ .cmdL → i ≠ .cmdX → i ≠ .cmdD → t.actAddr = s.actAddr ∧ t.invAddr = s.invAddr
  exam : i ≠ .cmdL → i ≠ .cmdX → t.firstExam = s.firstExam
  dep : i ≠ .cmdL → i ≠ .cmdD → t.firstDep = s.firstDep
  ack : i ≠ .cmdL → i ≠ .cmdX → i ≠ .cmdD → i ≠ .cmdE → t.ackq = s.ackq
  mode : i ≠ .cmdH → i ≠ .cmdE → i ≠ .cmdS → t.haltMode = s.haltMode

namespace CommandKeeps

theorem refl (i : Instr) (s : State) : CommandKeeps i s s where
  counters := ⟨rfl, rfl⟩
  link := ⟨rfl, rfl, rfl, rfl, rfl, rfl⟩
  rot := rfl
  status _ _ _ := ⟨rfl, rfl⟩
  statusOfModel _ := ⟨rfl, rfl⟩
  statusBits _ _ := rfl
  responses _ _ := ⟨rfl, rfl⟩
  addr _ _ _ := ⟨rfl, rfl⟩
  exam _ _ := rfl
  dep _ _ := rfl
  ack _ _ _ _ := rfl
  mode _ _ _ := rfl

/-- No part of a `Send` writes a register. -/
theorem send (i : Instr) (s : State) : KeptBySend (CommandKeeps i s) fun _ => True where
  answered _ _ _ h := { h with }
  recorded _ _ _ _ _ h := { h with }
  failed _ h := { h with }
  abandoned _ h := { h with }

section
variable {i : Instr} {s t : State} (h : CommandKeeps i s t)
include h

theorem model_eq : t.model = s.model := h.link.2.2.2.1

theorem signal (x : Signal) : CommandKeeps i s (t.signal x) := { h with }

theorem report (k : ErrorKind) : CommandKeeps i s (t.report k) := { h with }

theorem read (hi : i = .cmdL ∨ i = .cmdD) (rx : List (Option Byte)) (n : Nat) :
    CommandKeeps i s { t with rx := rx, draws := n } :=
  { h with responses := fun hL hD => absurd hi (not_or.mpr ⟨hL, hD⟩) }

theorem setSw (hi : i = .cmdL ∨ i = .cmdD) (v : Snapshot) : CommandKeeps i s (t.setSw v) :=
  { h with responses := fun hL hD => absurd hi (not_or.mpr ⟨hL, hD⟩) }

theorem setActAddr (hi : i = .cmdL ∨ i = .cmdX ∨ i = .cmdD) (v : Addr) : CommandKeeps i s (t.setActAddr v) :=
  { h with addr := fun hL hX hD => absurd hi (by simp [hL, hX, hD]) }

theorem setInvAddr (hi : i = .cmdL ∨ i = .cmdX ∨ i = .cmdD) (v : Bool) : CommandKeeps i s (t.setInvAddr v) :=
  { h with addr := fun hL hX hD => absurd hi (by simp [hL, hX, hD]) }

theorem setFirstExam (hi : i = .cmdL ∨ i = .cmdX) (v : Bool) : CommandKeeps i s (t.setFirstExam v) :=
  { h with exam := fun hL hX => absurd hi (not_or.mpr ⟨hL, hX⟩) }

theorem setFirstDep (hi : i = .cmdL ∨ i = .cmdD) (v : Bool) : CommandKeeps i s (t.setFirstDep v) :=
  { h with dep := fun hL hD => absurd hi (not_or.mpr ⟨hL, hD⟩) }

theorem setAckq (hi : i = .cmdL ∨ i = .cmdX ∨ i = .cmdD ∨ i = .cmdE) (v : Option Ack) :
    CommandKeeps i s (t.setAckq v) :=
  { h with ack := fun hL hX hD hE => absurd hi (by simp [hL, hX, hD, hE]) }

theorem setHaltMode (hi : i = .cmdH ∨ i = .cmdE ∨ i = .cmdS) (v : HaltMode) : CommandKeeps i s (t.setHaltMode v) :=
  { h with mode := fun hH hE hS => absurd hi (by simp [hH, hE, hS]) }

/-- The address-error bit is the one status bit a command writes, on the models that have it. -/
theorem driveAddrErr (hi : i = .cmdX ∨ i = .cmdD ∨ i = .cmdC) (on : Bool) :
    CommandKeeps i s (t.driveAddrErr Config.hw on) := by
  obtain ⟨v0, v1, e, _, hasNot⟩ := t.driveAddrErr_effect on
  have bits : SameStatusBut [Config.hw.layout.addrErr] s (t.driveAddrErr Config.hw on) := fun p hp =>
    (State.driveAddrErr_other on fun _ hq => hp (by simp [hq])).trans (h.statusBits p hp)
  rw [e] at bits ⊢
  refine { h with status := fun hX hD hC => absurd hi (by simp [hX, hD, hC]), statusOfModel := fun hm => ?_,
                  statusBits := bits }
  obtain ⟨rfl, rfl⟩ := hasNot (h.model_eq ▸ hm)
  exact h.statusOfModel hm

end

end CommandKeeps

/-- Every inbound operation keeps what its rule does not name. -/
theorem exec_inbound_keeps {i : Instr} {s t : State} (hi : i.direction = .inbound) (e : exec i s = .next t) :
    CommandKeeps i s t := by
  have before := CommandKeeps.refl i s
  have k := CommandKeeps.send i s
  cases i with
  | cmdNul => cases (exec_cmdNul s).symm.trans e; exact before
  | cmdIgn b => cases (exec_cmdIgn b s).symm.trans e; exact before
  | cmdH =>
    cases e
    exact State.guarded_keeps before fun _ =>
      keep_runHaltDown k (fun _ h => h.setHaltMode (by simp) _) (fun _ _ => trivial) before
  | cmdE =>
    cases e
    exact State.guarded_keeps before fun _ => keep_runHaltUp (c := Config.hw) k (fun _ h => h.setHaltMode (by simp) _)
      (fun _ h => h.setAckq (by simp) _) nofun (fun _ _ => trivial) before
  | cmdS =>
    cases e
    exact State.guarded_keeps before fun _ => keep_runStart k (fun _ x h => h.signal x)
      (fun _ h => h.setHaltMode (by simp) _) (fun _ _ => trivial) before
  | cmdC =>
    cases e
    exact State.guarded_keeps before fun _ => keep_runContinue k (fun _ x h => h.signal x)
      (fun _ on h => h.driveAddrErr (by simp) on) (fun _ _ => trivial) before
  | cmdX =>
    cases e
    exact State.guarded_keeps before fun _ => keep_runExamine k (fun _ x h => h.signal x)
      (fun _ v _ h => h.setActAddr (by simp) v) (fun _ v h => h.setInvAddr (by simp) v)
      (fun _ v h => h.setFirstExam (by simp) v) nofun (fun _ on h => h.driveAddrErr (by simp) on)
      (fun _ h => h.report _) (fun _ v h => h.setAckq (by simp) v) (fun _ _ _ => trivial) trivial
      (fun _ _ => trivial) before
  | cmdL =>
    cases e
    exact State.guarded_keeps before fun _ => keep_runLoadAddress k (fun _ rx n h => h.read (by simp) rx n)
      (fun _ v h => h.setSw (by simp) v) (fun _ h => h.setActAddr (by simp) _) (fun _ v h => h.setInvAddr (by simp) v)
      (fun _ v h => h.setFirstExam (by simp) v) (fun _ v h => h.setFirstDep (by simp) v)
      (fun _ v h => h.setAckq (by simp) v) trivial (fun _ _ _ => trivial) trivial (fun _ _ => trivial) before
  | cmdD =>
    cases e
    exact State.guarded_keeps before fun _ => keep_runDeposit k (fun _ rx n h => h.read (by simp) rx n)
      (fun _ h => h.model_eq) (fun _ v h => h.setSw (by simp) v) (fun _ x h => h.signal x)
      (fun _ v _ h => h.setActAddr (by simp) v) (fun _ v h => h.setInvAddr (by simp) v)
      (fun _ v h => h.setFirstDep (by simp) v) nofun (fun _ on h => h.driveAddrErr (by simp) on)
      (fun _ h => h.report _) (fun _ h => h.report _) (fun _ v h => h.setAckq (by simp) v) trivial
      (fun _ _ _ _ => trivial) trivial (fun _ _ => trivial) before
  | _ => cases hi

/-- Settles O40: the registers each inbound operation keeps, and the host's input. -/
theorem consoleCommandsFrame : Obligations.ConsoleCommandsFrame := by
  intro i s t hi e
  have h := exec_inbound_keeps hi e
  exact ⟨h.counters, h.link, h.rot, exec_events e, h.status, h.statusOfModel, h.statusBits, h.responses, h.addr, h.exam,
    h.dep, h.ack, h.mode⟩

end Sys2Proof.Machine
end

section
/-! PROOFS. The scheduler tick (44_scheduler_cadence.md R170 to R174): what it sends, counts and reads off a fifth tick,
on one and on a third one. -/

namespace Sys2Proof.Machine

/-! ## A tick on the hardware -/

/-- The meaning of `TICK` while the link is up. -/
theorem exec_tick_active {s : State} (ha : s.active = true) (a : Addr) (d : Datum) :
    exec (.tick a d) s = .next (runTick Config.hw a d s).state := congrArg _ (State.guarded_active ha _)

/-- The display frame of a tick (R172). -/
def tickDisplayFrame (s : State) (a : Addr) (d : Datum) : List Byte :=
  0x42 :: (addrBytes (Config.hw.width s.model) .three a ++ [d.extractLsb' 8 8, d.extractLsb' 0 8])

/-- Off a fifth tick: the display frame, and the counter goes on (R170, D30, D33). -/
theorem runTick_off_fifth {s : State} (hu : s.updateCount + 1 ≠ 5) (a : Addr) (d : Datum) :
    runTick Config.hw a d s =
      (send (tickDisplayFrame s a d) s).andThen fun u => .on (u.setUpdateCount (s.updateCount + 1)) := by
  have hf : decide (s.updateCount + 1 = Config.hw.updateThreshold) = false := decide_eq_false hu
  simp only [runTick, displayFrames, Config.hw_statusTick, hf, Bool.false_eq_true, if_false, Ran.andThen_goes_on]
  show (send (tickDisplayFrame s a d) s).andThen _ = _
  obtain ⟨rest, n, e | ⟨k, e⟩ | ⟨k, e⟩⟩ := send_cases (tickDisplayFrame s a d) s <;> rw [e] <;> rfl

/-- On a fifth tick: the display and the status frame, the counter restarts, the rotary step, and the HALT poll. -/
theorem runTick_fifth {s : State} (hu : s.updateCount = 4) (a : Addr) (d : Datum) :
    runTick Config.hw a d s =
      ((send (tickDisplayFrame s a d) s).andThen putF).andThen fun u =>
        (rotaryStep Config.hw (u.setUpdateCount 0)).andThen (haltPoll Config.hw) := by
  have hf : decide (s.updateCount + 1 = Config.hw.updateThreshold) = true := decide_eq_true (by rw [hu]; rfl)
  simp only [runTick, displayFrames, Config.hw_statusTick, hf, if_true]
  rfl

/-- The state after the two frames of a fifth tick, with the counter restarted (R170, R172). -/
def afterFifthFrames (s : State) (a : Addr) (d : Datum) (rest : List SendResult) : State :=
  { s with
    updateCount := 0, sends := rest
    tx := s.tx ++ [⟨tickDisplayFrame s a d, 6⟩, ⟨[0x46, s.s0, s.s1], 3⟩] }

/-- A fifth tick whose two frames are taken ends with the rotary step and the HALT poll. -/
theorem runTick_fifth_ok {s : State} {rest : List SendResult} (hu : s.updateCount = 4)
    (hs : s.sends = .ok :: .ok :: rest) (a : Addr) (d : Datum) :
    runTick Config.hw a d s =
      (rotaryStep Config.hw (afterFifthFrames s a d rest)).andThen (haltPoll Config.hw) := by
  have hl : (tickDisplayFrame s a d).length = 6 := rfl
  rw [runTick_fifth hu, send_ok hs, Ran.andThen_on, putF_ok (rest := rest) rfl, Ran.andThen_on, hl]
  simp [State.recordTx, State.setSends, State.setUpdateCount, frameF, tagF, afterFifthFrames]

/-- The rotary query with its byte, as one update; `past` is what the tick has sent before it (R173). -/
theorem queryRotary_answered {s : State} {rest : List SendResult} {r : Byte} {rx : List (Option Byte)}
    {before past : List Sent} (hs : s.sends = .ok :: rest) (hx : s.rx = some r :: rx) (htx : s.tx = before ++ past) :
    queryRotary s = .on { s with rot := r, sends := rest, rx := rx, tx := before ++ (past ++ [⟨[0x52], 1⟩]) } := by
  rw [queryRotary_ok hs hx, ← List.append_assoc, ← htx]
  rfl

/-- A rotary answer that does not come, as one update. -/
theorem queryRotary_unanswered {s : State} {rest : List SendResult} {rx : List (Option Byte)}
    {before past : List Sent} (hs : s.sends = .ok :: rest) (hx : s.rx = none :: rx) (htx : s.tx = before ++ past) :
    queryRotary s = .stop { s with
      sends := rest, rx := rx, reports := s.reports ++ [.transportIOError]
      tx := before ++ (past ++ [⟨[0x52], 1⟩]) } := by
  rw [queryRotary_none hs hx, ← List.append_assoc, ← htx]
  rfl

/-- The HALT poll that finds an entry: the key's code runs HALT down with its status frame, and anything else is dropped
(R174, D29, D32). -/
theorem haltPoll_hw {s : State} {x : Option Byte} {rx : List (Option Byte)} (hx : s.rx = x :: rx) :
    haltPoll Config.hw s =
      if x = some 0x48 then putF { s with rx := rx, haltMode := .haltDown } else .on { s with rx := rx } := by
  rw [haltPoll_cons hx]
  cases x with
  | none => rfl
  | some b =>
    by_cases hb : b = 0x48
    · subst hb
      rfl
    · have hn : ¬ some b = some (0x48 : Byte) := fun h => hb (Option.some.inj h)
      have ht : ¬ Config.hw.tickPollAccept b = true := fun h => hb (eq_of_beq h)
      rw [if_neg hn]
      exact if_neg ht

section
variable {u : State} {x : Option Byte} {rx : List (Option Byte)} {rest : List SendResult}

/-- The HALT poll as one update, when the status frame of the key, if it is there, is taken. -/
theorem haltPoll_ok (hx : u.rx = x :: rx) (hs : x = some 0x48 → u.sends = .ok :: rest) :
    haltPoll Config.hw u = .on { u with
      rx := rx, haltMode := if x = some 0x48 then .haltDown else u.haltMode
      sends := if x = some 0x48 then rest else u.sends
      tx := u.tx ++ if x = some 0x48 then [⟨[0x46, u.s0, u.s1], 3⟩] else [] } := by
  rw [haltPoll_hw hx]
  by_cases h : x = some 0x48
  · simp only [h, if_true]
    rw [putF_ok (rest := rest)]
    · rfl
    · exact hs h
  · simp only [h, if_false, List.append_nil]

/-- The end of a fifth tick that is no third one: the second counter goes on, and the poll (R170, R173, R174). -/
theorem countAndPoll (hr : u.rotaryCount + 1 ≠ 3) (hx : u.rx = x :: rx) (hs : x = some 0x48 → u.sends = .ok :: rest) :
    (rotaryStep Config.hw u).andThen (haltPoll Config.hw) = .on { u with
      rotaryCount := u.rotaryCount + 1, rx := rx, haltMode := if x = some 0x48 then .haltDown else u.haltMode
      sends := if x = some 0x48 then rest else u.sends
      tx := u.tx ++ if x = some 0x48 then [⟨[0x46, u.s0, u.s1], 3⟩] else [] } := by
  rw [rotaryStep_counts hr, Ran.andThen_on, haltPoll_ok (x := x) (rx := rx) (rest := rest)]
  · rfl
  · exact hx
  · exact hs

/-- The end of a third fifth tick on a model without knobs: the second counter restarts, and the poll (D31). -/
theorem cycleAndPoll (hr : u.rotaryCount = 2) (hrot : Config.hw.rotary u.model = false) (hx : u.rx = x :: rx)
    (hs : x = some 0x48 → u.sends = .ok :: rest) :
    (rotaryStep Config.hw u).andThen (haltPoll Config.hw) = .on { u with
      rotaryCount := 0, rx := rx, haltMode := if x = some 0x48 then .haltDown else u.haltMode
      sends := if x = some 0x48 then rest else u.sends
      tx := u.tx ++ if x = some 0x48 then [⟨[0x46, u.s0, u.s1], 3⟩] else [] } := by
  rw [rotaryStep_cycles (by rw [hr]; rfl), hrot, if_neg Bool.false_ne_true, Ran.andThen_on,
    haltPoll_ok (x := x) (rx := rx) (rest := rest)]
  · rfl
  · exact hx
  · exact hs

variable {before past : List Sent} (hr : u.rotaryCount = 2) (hrot : Config.hw.rotary u.model = true)
include hr hrot

/-- The end of a third fifth tick on a model with knobs: the second counter restarts, the answer of the query is stored,
and the poll takes the entry after it (R173, D43). -/
theorem queryAndPoll {r : Byte} {rest' : List SendResult} (hx : u.rx = some r :: x :: rx)
    (hs : u.sends = .ok :: rest') (hs' : x = some 0x48 → rest' = .ok :: rest) (htx : u.tx = before ++ past) :
    (rotaryStep Config.hw u).andThen (haltPoll Config.hw) = .on { u with
      rotaryCount := 0, rot := r, rx := rx, haltMode := if x = some 0x48 then .haltDown else u.haltMode
      sends := if x = some 0x48 then rest else rest'
      tx := before ++ (past ++ [⟨[0x52], 1⟩]) ++ if x = some 0x48 then [⟨[0x46, u.s0, u.s1], 3⟩] else [] } := by
  rw [rotaryStep_cycles (by rw [hr]; rfl), hrot, if_pos rfl,
    queryRotary_answered (s := u.setRotaryCount 0) hs hx htx, Ran.andThen_on,
    haltPoll_ok (x := x) (rx := rx) (rest := rest) rfl hs']
  rfl

/-- An answer that does not come is reported and ends the tick (D35). -/
theorem queryUnanswered (hx : u.rx = none :: rx) (hs : u.sends = .ok :: rest) (htx : u.tx = before ++ past) :
    (rotaryStep Config.hw u).andThen (haltPoll Config.hw) = .stop { u with
      rotaryCount := 0, sends := rest, rx := rx, reports := u.reports ++ [.transportIOError]
      tx := before ++ (past ++ [⟨[0x52], 1⟩]) } := by
  rw [rotaryStep_cycles (by rw [hr]; rfl), hrot, if_pos rfl,
    queryRotary_unanswered (s := u.setRotaryCount 0) hs hx htx]
  rfl

end

/-! ## The obligations on one tick -/

/-- Settles O49: the display frame is taken and the counter goes on. -/
theorem tickSendsDisplayFrame : Obligations.TickSendsDisplayFrame := by
  intro a d s rest ha hu hs
  rw [exec_tick_active ha, runTick_off_fifth hu, send_ok hs]
  rfl

/-- Settles O52: the display frame fails, and the tick with it. -/
theorem failedTickIsSkipped : Obligations.FailedTickIsSkipped := by
  intro a d s k rest ha hs
  rw [exec_tick_active ha]
  by_cases hu : s.updateCount + 1 = 5
  · rw [runTick_fifth (by omega), send_fail hs]
    rfl
  · rw [runTick_off_fifth hu, send_fail hs]
    rfl

/-- Settles O50: two frames, the second counter goes on, and the poll by what it finds. -/
theorem fifthTickSendsStatusAndPolls : Obligations.FifthTickSendsStatusAndPolls := by
  intro a d s rest x rx ha hu hr hs hx
  rw [exec_tick_active ha, runTick_fifth_ok hu hs,
    countAndPoll (u := afterFifthFrames s a d _) (rest := rest) hr hx fun _ => rfl, afterFifthFrames]
  by_cases h : x = some 0x48
  · simp only [h, if_true, List.append_assoc]
    rfl
  · simp only [h, if_false, List.append_nil]
    rfl

/-- Settles O51: two frames, the second counter restarts, the rotary query where there are knobs, and the poll. -/
theorem fifteenthTickPollsRotary : Obligations.FifteenthTickPollsRotary := by
  intro a d s rest y rx ha hu hc hs hx
  rw [exec_tick_active ha, runTick_fifth_ok hu hs]
  refine ⟨fun hrot => ⟨?_, ?_⟩, fun hrot => ?_⟩
  · rintro r x rx' rfl rfl
    rw [queryAndPoll (u := afterFifthFrames s a d _) (rest := rest) (before := s.tx) hc hrot hx rfl (fun _ => rfl) rfl]
    rfl
  · rintro rfl
    rw [queryUnanswered (u := afterFifthFrames s a d _) (before := s.tx) hc hrot hx rfl rfl]
    rfl
  · rw [cycleAndPoll (u := afterFifthFrames s a d _) (rest := .ok :: rest) hc hrot hx fun _ => rfl]
    rfl

end Sys2Proof.Machine
end

section
/-! PROOFS. Many ticks in a row (44_scheduler_cadence.md R175): the two counters are one phase modulo 15, which says how
many status frames and rotary queries any number of ticks sends. -/

namespace Sys2Proof.Machine

/-! ## The phase, and what is due -/

/-- The two counters as one number below 15. -/
def phase (s : State) : Nat := 5 * s.rotaryCount + s.updateCount

/-- The status frames of `n` ticks from phase `p`: one for each multiple of 5 passed. -/
def statusDue (p n : Nat) : Nat := (p + n) / 5 - p / 5

/-- The rotary queries of `n` ticks from phase `p` on a model: one for each multiple of 15 passed, where there are
knobs. -/
def queriesDue (m : Model) (p n : Nat) : Nat := if Config.hw.rotary m = true then (p + n) / 15 - p / 15 else 0

/-- The first tick, and the `n` after it from the phase it leaves. -/
theorem statusDue_succ (p n : Nat) :
    statusDue p (1 + n) = statusDue p 1 + statusDue ((p + 1) % 15) n := by
  unfold statusDue
  omega

theorem queriesDue_succ (m : Model) (p n : Nat) :
    queriesDue m p (1 + n) = queriesDue m p 1 + queriesDue m ((p + 1) % 15) n := by
  unfold queriesDue
  split <;> omega

/-! ## What ticks send, and what they need -/

/-- `t` is what `n` ticks without a HALT notification leave of `s`, having sent `added`. -/
structure TicksSend (n : Nat) (added : List Sent) (s t : State) : Prop where
  active : t.active = true
  model : t.model = s.model
  below : CountersBelow Config.hw t
  phase : phase t = (phase s + n) % 15
  tx : t.tx = s.tx ++ added
  display : countTag 0x42 added = n
  status : countTag 0x46 added = statusDue (Machine.phase s) n
  queries : countTag 0x52 added = queriesDue s.model (Machine.phase s) n
  length : added.length = n + statusDue (Machine.phase s) n + queriesDue s.model (Machine.phase s) n

/-- The coming `Send`s succeed, `sends` of them at least, and the coming reads find no HALT notification, `reads` of
them at least. -/
structure Quiet (sends reads : Nat) (s : State) : Prop where
  allOk : ∀ r ∈ s.sends, r = .ok
  noHalt : ∀ x ∈ s.rx, x ≠ some 0x48
  enoughSends : sends ≤ s.sends.length
  enoughReads : reads ≤ s.rx.length

/-- One more `Send` that succeeds. -/
theorem Quiet.send {n m : Nat} {s : State} (q : Quiet (n + 1) m s) :
    ∃ rest, s.sends = .ok :: rest ∧ Quiet n m (s.setSends rest) := by
  obtain ⟨allOk, noHalt, enough, reads⟩ := q
  cases hs : s.sends with
  | nil => rw [hs] at enough; exact absurd enough (Nat.not_succ_le_zero n)
  | cons r rest =>
    rw [hs] at allOk enough
    obtain rfl := allOk r List.mem_cons_self
    exact ⟨rest, rfl, fun r hr => allOk r (List.mem_cons_of_mem _ hr), noHalt, Nat.le_of_succ_le_succ enough, reads⟩

/-- One more read, which finds no HALT notification. -/
theorem Quiet.read {n m : Nat} {s : State} (q : Quiet n (m + 1) s) :
    ∃ x rx, s.rx = x :: rx ∧ x ≠ some 0x48 ∧ Quiet n m (s.setRx rx) := by
  obtain ⟨allOk, noHalt, enough, reads⟩ := q
  cases hx : s.rx with
  | nil => rw [hx] at reads; exact absurd reads (Nat.not_succ_le_zero m)
  | cons x rx =>
    rw [hx] at noHalt reads
    exact ⟨x, rx, rfl, noHalt x List.mem_cons_self, allOk, fun x hx => noHalt x (List.mem_cons_of_mem _ hx), enough,
      Nat.le_of_succ_le_succ reads⟩

theorem countTag_append (tag : Byte) (l l' : List Sent) : countTag tag (l ++ l') = countTag tag l + countTag tag l' :=
  List.countP_append

/-- No tick sends nothing. -/
theorem TicksSend.nil {s : State} (ha : s.active = true) (hb : CountersBelow Config.hw s) : TicksSend 0 [] s s where
  active := ha
  model := rfl
  below := hb
  phase := by
    obtain ⟨hu, hr⟩ : s.updateCount < 5 ∧ s.rotaryCount < 3 := hb
    unfold Machine.phase
    omega
  tx := (List.append_nil _).symm
  display := rfl
  status := (Nat.sub_self _).symm
  queries := by rw [queriesDue, Nat.add_zero, Nat.sub_self, ite_self]; rfl
  length := by rw [statusDue, queriesDue, Nat.add_zero, Nat.sub_self, Nat.add_zero, Nat.sub_self, ite_self]; rfl

/-- One tick, and `n` after it. -/
theorem TicksSend.cons {n : Nat} {first added : List Sent} {s t u : State}
    (h : TicksSend 1 first s t) (h' : TicksSend n added t u) : TicksSend (1 + n) (first ++ added) s u where
  active := h'.active
  model := h'.model.trans h.model
  below := h'.below
  phase := by rw [h'.phase, h.phase]; omega
  tx := by rw [h'.tx, h.tx, List.append_assoc]
  display := by rw [countTag_append, h.display, h'.display]
  status := by rw [countTag_append, h.status, h'.status, h.phase, statusDue_succ]
  queries := by rw [countTag_append, h.queries, h'.queries, h.phase, h.model, queriesDue_succ]
  length := by
    rw [List.length_append, h.length, h'.length, h.phase, h.model, statusDue_succ, queriesDue_succ]
    omega

/-! ## One tick -/

section
variable {s : State} (ha : s.active = true) (a : Addr) (d : Datum) {n m : Nat}
include ha

/-- Off a fifth tick: the display frame. -/
theorem tick_quiet_off_fifth (hu : s.updateCount < 4) (hr : s.rotaryCount < 3) (q : Quiet (n + 1) m s) :
    ∃ t added, exec (.tick a d) s = .next t ∧ TicksSend 1 added s t ∧ Quiet n m t := by
  obtain ⟨rest, hs, q⟩ := q.send
  have hS : statusDue (phase s) 1 = 0 := by unfold statusDue phase; omega
  have hQ : queriesDue s.model (phase s) 1 = 0 := by unfold queriesDue phase; split <;> omega
  refine ⟨(s.setSends rest).recordTx (tickDisplayFrame s a d) 6 |>.setUpdateCount (s.updateCount + 1),
    [⟨tickDisplayFrame s a d, 6⟩], ?_, ?_, ⟨q.allOk, q.noHalt, q.enoughSends, q.enoughReads⟩⟩
  · rw [exec_tick_active ha, runTick_off_fifth (by omega), send_ok hs]
    rfl
  · exact {
      active := ha, model := rfl, below := ⟨Nat.succ_lt_succ hu, hr⟩
      phase := by
        show 5 * s.rotaryCount + (s.updateCount + 1) = (5 * s.rotaryCount + s.updateCount + 1) % 15
        omega
      tx := rfl, display := rfl, status := hS.symm, queries := hQ.symm, length := by rw [hS, hQ]; rfl }

/-- A fifth tick whose rotary step only sets the second counter, to `c`: the display and the status frame, and the poll.
-/
theorem tick_quiet_no_query (hu : s.updateCount = 4) {c : Nat} (hc : c < 3) (next : 5 * c = (5 * s.rotaryCount + 5) % 15)
    (hQ : queriesDue s.model (phase s) 1 = 0)
    (step : ∀ u : State, u.rotaryCount = s.rotaryCount → u.model = s.model →
      rotaryStep Config.hw u = .on (u.setRotaryCount c))
    (q : Quiet (n + 2) (m + 1) s) :
    ∃ t added, exec (.tick a d) s = .next t ∧ TicksSend 1 added s t ∧ Quiet n m t := by
  obtain ⟨rest, hs, q⟩ := q.send
  obtain ⟨rest', hs', q⟩ := q.send
  obtain ⟨x, rx, hx, hH, q⟩ := q.read
  have hS : statusDue (phase s) 1 = 1 := by unfold statusDue phase; omega
  refine ⟨{ afterFifthFrames s a d rest' with rotaryCount := c, rx := rx },
    [⟨tickDisplayFrame s a d, 6⟩, ⟨[0x46, s.s0, s.s1], 3⟩], ?_, ?_, ⟨q.allOk, q.noHalt, q.enoughSends, q.enoughReads⟩⟩
  · have hs2 : s.sends = .ok :: .ok :: rest' := hs.trans (congrArg _ hs')
    have poll := haltPoll_hw (s := (afterFifthFrames s a d rest').setRotaryCount c) hx
    rw [exec_tick_active ha, runTick_fifth_ok hu hs2, step (afterFifthFrames s a d rest') rfl rfl, Ran.andThen_on, poll,
      if_neg hH]
    rfl
  · exact {
      active := ha, model := rfl, below := ⟨Nat.succ_pos 4, hc⟩
      phase := by
        show 5 * c + 0 = (5 * s.rotaryCount + s.updateCount + 1) % 15
        rw [hu]
        exact next
      tx := rfl, display := rfl, status := hS.symm, queries := hQ.symm, length := by rw [hS, hQ]; rfl }

/-- A fifth tick that is no third one: the second counter goes on. -/
theorem tick_quiet_fifth (hu : s.updateCount = 4) (hr : s.rotaryCount < 2) (q : Quiet (n + 2) (m + 1) s) :
    ∃ t added, exec (.tick a d) s = .next t ∧ TicksSend 1 added s t ∧ Quiet n m t := by
  have hQ : queriesDue s.model (phase s) 1 = 0 := by unfold queriesDue phase; split <;> omega
  refine tick_quiet_no_query ha a d hu (c := s.rotaryCount + 1) (by omega) (by omega) hQ (fun u hu _ => ?_) q
  rw [← hu]
  exact rotaryStep_counts (hu ▸ Nat.ne_of_lt (Nat.succ_lt_succ hr))

/-- A third fifth tick on a model without knobs: the second counter restarts. -/
theorem tick_quiet_fifteenth (hu : s.updateCount = 4) (hr : s.rotaryCount = 2)
    (hrot : Config.hw.rotary s.model = false) (q : Quiet (n + 2) (m + 1) s) :
    ∃ t added, exec (.tick a d) s = .next t ∧ TicksSend 1 added s t ∧ Quiet n m t := by
  have hQ : queriesDue s.model (phase s) 1 = 0 := by rw [queriesDue, hrot]; rfl
  refine tick_quiet_no_query ha a d hu (c := 0) (by omega) (by omega) hQ (fun u hu hm => ?_) q
  rw [rotaryStep_cycles (by rw [hu, hr]; rfl), hm, hrot]
  rfl

/-- A third fifth tick on a model with knobs: the two frames and the query, whether it is answered or not. -/
theorem tick_quiet_query (hu : s.updateCount = 4) (hr : s.rotaryCount = 2)
    (hrot : Config.hw.rotary s.model = true) (q : Quiet (n + 3) (m + 2) s) :
    ∃ t added, exec (.tick a d) s = .next t ∧ TicksSend 1 added s t ∧ Quiet n m t := by
  obtain ⟨rest, hs, q⟩ := q.send
  obtain ⟨rest', hs', q⟩ := q.send
  obtain ⟨rest'', hs'', q⟩ := q.send
  obtain ⟨y, rx, hy, _, q⟩ := q.read
  obtain ⟨x, rx', hx, hH, q'⟩ := q.read
  have hS : statusDue (phase s) 1 = 1 := by unfold statusDue phase; omega
  have hQ : queriesDue s.model (phase s) 1 = 1 := by rw [queriesDue, if_pos hrot]; unfold phase; omega
  have hs3 : s.sends = .ok :: .ok :: .ok :: rest'' := hs.trans (congrArg _ (hs'.trans (congrArg _ hs'')))
  have sent (t : State) (ht : t = { afterFifthFrames s a d rest'' with
      rotaryCount := 0, rot := t.rot, rx := t.rx, reports := t.reports
      tx := s.tx ++ [⟨tickDisplayFrame s a d, 6⟩, ⟨[0x46, s.s0, s.s1], 3⟩, ⟨[0x52], 1⟩] }) :
      TicksSend 1 [⟨tickDisplayFrame s a d, 6⟩, ⟨[0x46, s.s0, s.s1], 3⟩, ⟨[0x52], 1⟩] s t := by
    rw [ht]
    exact {
      active := ha, model := rfl, below := ⟨Nat.succ_pos 4, Nat.succ_pos 2⟩
      phase := by
        show 5 * 0 + 0 = (5 * s.rotaryCount + s.updateCount + 1) % 15
        omega
      tx := rfl, display := rfl, status := hS.symm, queries := hQ.symm, length := by rw [hS, hQ]; rfl }
  rw [exec_tick_active ha, runTick_fifth_ok hu hs3]
  cases y with
  | none =>
    rw [queryUnanswered (u := afterFifthFrames s a d _) (before := s.tx) hr hrot hy rfl rfl]
    exact ⟨_, _, rfl, sent _ rfl, ⟨q.allOk, q.noHalt, q.enoughSends, Nat.le_of_succ_le q.enoughReads⟩⟩
  | some r =>
    rw [queryAndPoll (u := afterFifthFrames s a d _) (x := x) (rx := rx') (rest := []) (before := s.tx) hr hrot
      (hy.trans (congrArg _ hx)) rfl (fun h => absurd h hH) rfl]
    simp only [hH, if_false, List.append_nil]
    exact ⟨_, _, rfl, sent _ rfl, ⟨q'.allOk, q'.noHalt, q'.enoughSends, q'.enoughReads⟩⟩

/-- One tick sends what is due from its phase, and needs as many `Send`s and at most as many reads. -/
theorem tick_quiet (hb : CountersBelow Config.hw s)
    (q : Quiet (1 + statusDue (phase s) 1 + queriesDue s.model (phase s) 1 + n)
      (statusDue (phase s) 1 + queriesDue s.model (phase s) 1 + m) s) :
    ∃ t added, exec (.tick a d) s = .next t ∧ TicksSend 1 added s t ∧ Quiet n m t := by
  obtain ⟨hu, hr⟩ : s.updateCount < 5 ∧ s.rotaryCount < 3 := hb
  have more {i j : Nat} (hi : i ≤ 1 + statusDue (phase s) 1 + queriesDue s.model (phase s) 1 + n)
      (hj : j ≤ statusDue (phase s) 1 + queriesDue s.model (phase s) 1 + m) : Quiet i j s :=
    ⟨q.allOk, q.noHalt, hi.trans q.enoughSends, hj.trans q.enoughReads⟩
  by_cases h4 : s.updateCount = 4
  · have hS : statusDue (phase s) 1 = 1 := by unfold statusDue phase; omega
    rw [hS] at more
    by_cases h2 : s.rotaryCount = 2
    · cases hrot : Config.hw.rotary s.model with
      | false => exact tick_quiet_fifteenth ha a d h4 h2 hrot (more (by omega) (by omega))
      | true =>
        have hQ : queriesDue s.model (phase s) 1 = 1 := by rw [queriesDue, if_pos hrot]; unfold phase; omega
        rw [hQ] at more
        exact tick_quiet_query ha a d h4 h2 hrot (more (by omega) (by omega))
    · exact tick_quiet_fifth ha a d h4 (by omega) (more (by omega) (by omega))
  · exact tick_quiet_off_fifth ha a d (by omega) hr (more (by omega) (by omega))

end

/-! ## Many ticks -/

theorem ticks_succ {a : Addr} {d : Datum} {s t : State} (n : Nat) (e : exec (.tick a d) s = .next t) :
    ticks a d (n + 1) s = ticks a d n t := by
  rw [ticks, e]

/-- Any number of ticks in a row sends what is due from the phase it starts in. -/
theorem ticks_quiet (a : Addr) (d : Datum) (n : Nat) {s : State} (ha : s.active = true)
    (hb : CountersBelow Config.hw s)
    (q : Quiet (n + statusDue (phase s) n + queriesDue s.model (phase s) n)
      (statusDue (phase s) n + queriesDue s.model (phase s) n) s) :
    ∃ t added, ticks a d n s = .next t ∧ TicksSend n added s t := by
  induction n generalizing s with
  | zero => exact ⟨s, [], rfl, TicksSend.nil ha hb⟩
  | succ n ih =>
    rw [Nat.add_comm n 1, statusDue_succ, queriesDue_succ] at q
    obtain ⟨t, first, e, sent, q⟩ := tick_quiet (n := n + statusDue ((phase s + 1) % 15) n +
        queriesDue s.model ((phase s + 1) % 15) n)
      (m := statusDue ((phase s + 1) % 15) n + queriesDue s.model ((phase s + 1) % 15) n) ha a d hb
      ⟨q.allOk, q.noHalt, by have := q.enoughSends; omega, by have := q.enoughReads; omega⟩
    rw [← sent.phase, ← sent.model] at q
    obtain ⟨u, added, e', sent'⟩ := ih sent.active sent.below q
    rw [Nat.add_comm n 1]
    exact ⟨u, first ++ added, by rw [Nat.add_comm, ticks_succ n e, e'], sent.cons sent'⟩

/-- Settles O54: fifteen ticks pass each phase once, so three status frames and one query are due, and the counters come
back to where they were. -/
theorem fifteenTicksKeepRatio : Obligations.FifteenTicksKeepRatio := by
  intro a d s ha hb hs hok hx hH
  have hS : statusDue (phase s) 15 = 3 := by unfold statusDue; omega
  have hQ : queriesDue s.model (phase s) 15 = if Config.hw.rotary s.model = true then 1 else 0 := by
    unfold queriesDue
    split <;> omega
  have hQ1 : queriesDue s.model (phase s) 15 ≤ 1 := by rw [hQ]; split <;> omega
  obtain ⟨t, added, e, sent⟩ := ticks_quiet a d 15 ha hb ⟨hok, hH, by omega, by omega⟩
  obtain ⟨hus, hrs⟩ : s.updateCount < 5 ∧ s.rotaryCount < 3 := hb
  obtain ⟨hut, hrt⟩ : t.updateCount < 5 ∧ t.rotaryCount < 3 := sent.below
  have back : 5 * t.rotaryCount + t.updateCount = (5 * s.rotaryCount + s.updateCount + 15) % 15 := sent.phase
  exact ⟨t, added, e, sent.tx, sent.display, hS ▸ sent.status, hQ ▸ sent.queries, by rw [sent.length, hS, hQ],
    by omega, by omega⟩

end Sys2Proof.Machine
end

section
/-! PROOFS. What a tick leaves alone (44_scheduler_cadence.md R170 to R174), and with it who may write which register
and which status bit (10_state.md R13 to R26). -/

namespace Sys2Proof.Machine

/-! ## What any tick keeps -/

/-- The registers and the history a tick leaves alone, and the mode, which it leaves or sets to HaltDown. -/
def TickKeeps (s t : State) : Prop :=
  SameStatus s t ∧ SameLink s t ∧ t.sw = s.sw ∧ t.ackq = s.ackq ∧ t.actAddr = s.actAddr ∧ t.invAddr = s.invAddr ∧
    t.firstExam = s.firstExam ∧ t.firstDep = s.firstDep ∧ t.signals = s.signals ∧
    (t.haltMode = s.haltMode ∨ t.haltMode = .haltDown)

theorem TickKeeps.refl (s : State) : TickKeeps s s :=
  ⟨⟨rfl, rfl⟩, ⟨rfl, rfl, rfl, rfl, rfl, rfl⟩, rfl, rfl, rfl, rfl, rfl, rfl, rfl, .inl rfl⟩

/-- HALT down writes the mode only. -/
theorem TickKeeps.haltDown {s t : State} (h : TickKeeps s t) : TickKeeps s (t.setHaltMode .haltDown) := by
  obtain ⟨status, link, sw, ackq, addr, inv, exam, dep, sig, -⟩ := h
  exact ⟨status, link, sw, ackq, addr, inv, exam, dep, sig, .inr rfl⟩

/-- No part of a `Send` writes a register. -/
theorem keptBySend_tickKeeps (s : State) : KeptBySend (TickKeeps s) fun _ => True where
  answered _ _ _ h := h
  recorded _ _ _ _ _ h := h
  failed _ h := h
  abandoned _ h := h

/-- The HALT poll runs HALT down and no other command (R174, D32). -/
theorem exec_tick_keeps {a : Addr} {d : Datum} {s t : State} (e : exec (.tick a d) s = .next t) : TickKeeps s t := by
  have before := TickKeeps.refl s
  have k := keptBySend_tickKeeps s
  cases e
  refine State.guarded_keeps before fun _ => keep_runTick k (fun _ _ _ h => h) (fun _ _ h => h) (fun _ h => h)
    (fun _ _ _ h => h) (fun _ h => h) (fun _ _ h => h) (fun b u accept h => ?_) (fun _ _ _ _ => trivial)
    (fun _ _ => trivial) (fun _ _ _ _ _ _ _ => trivial) trivial a d before
  obtain rfl : b = 0x48 := eq_of_beq accept
  exact keep_runHaltDown k (fun _ h => h.haltDown) (fun _ _ => trivial) h

/-! ## Off a fifth tick -/

/-- The mode, the second counter, the rotary byte and the panel's input are those of `s`. -/
def SameReads (s t : State) : Prop :=
  t.haltMode = s.haltMode ∧ t.rotaryCount = s.rotaryCount ∧ t.rot = s.rot ∧ t.rx = s.rx

/-- No part of a `Send` writes the mode, the second counter or the rotary byte, or reads the panel. -/
theorem keptBySend_sameReads (s : State) : KeptBySend (SameReads s) fun _ => True where
  answered _ _ _ h := h
  recorded _ _ _ _ _ h := h
  failed _ h := h
  abandoned _ h := h

/-- Off a fifth tick only the display frame goes out and the first counter goes on. -/
theorem runTick_off_fifth_keeps {s : State} (hu : s.updateCount + 1 ≠ 5) (a : Addr) (d : Datum) :
    SameReads s (runTick Config.hw a d s).state := by
  rw [runTick_off_fifth hu]
  exact Ran.andThen_keeps (P := SameReads s) (keep_send (keptBySend_sameReads s) trivial ⟨rfl, rfl, rfl, rfl⟩)
    fun _ h => h

/-- The two frames of a fifth tick. -/
theorem fifthFrames_keep (s : State) (a : Addr) (d : Datum) :
    SameReads s ((send (tickDisplayFrame s a d) s).andThen putF).state :=
  Ran.andThen_keeps (P := SameReads s) (keep_send (keptBySend_sameReads s) trivial ⟨rfl, rfl, rfl, rfl⟩)
    fun _ h => keep_send (keptBySend_sameReads s) trivial h

/-! ## A tick whose reads find no HALT notification -/

/-- The next read of the panel finds something other than a HALT notification, or that nothing is there. -/
def NextIsNoHalt (s : State) : Prop := ∃ x rx, s.rx = x :: rx ∧ x ≠ some 0x48

/-- The poll that finds no HALT notification keeps the mode. -/
theorem haltPoll_noHalt {s : State} (h : NextIsNoHalt s) : (haltPoll Config.hw s).state.haltMode = s.haltMode := by
  obtain ⟨x, rx, hx, hH⟩ := h
  rw [haltPoll_hw hx, if_neg hH]
  rfl

/-- The rotary query takes one entry, or it does not go on. -/
theorem queryRotary_next {s t : State} {x y : Option Byte} {rx : List (Option Byte)} (hx : s.rx = x :: y :: rx)
    (e : queryRotary s = .on t) : t.rx = y :: rx := by
  obtain ⟨rest, n, sent | ⟨k, sent⟩ | ⟨k, sent⟩⟩ := send_cases frameR s <;> rw [queryRotary, sent] at e
  · have hx' : State.rx { s with sends := rest, draws := n, tx := s.tx ++ [⟨frameR, frameR.length⟩] } = x :: y :: rx :=
      hx
    rw [Ran.andThen_on, receive] at e
    cases x with
    | none =>
      rw [recv_gap [] (Nat.zero_lt_one) hx'] at e
      cases e
    | some b =>
      have hr := recv_bytes [b] hx'
      rw [List.length_singleton] at hr
      rw [hr] at e
      cases e
      rfl
  · cases e
  · cases e

/-- After the rotary step, which takes at most one entry, the poll finds one of the first two. -/
theorem rotaryStep_next {s t : State} {x y : Option Byte} {rx : List (Option Byte)} (hx : s.rx = x :: y :: rx)
    (hxH : x ≠ some 0x48) (hyH : y ≠ some 0x48) (e : rotaryStep Config.hw s = .on t) : NextIsNoHalt t := by
  by_cases hr : s.rotaryCount + 1 = Config.hw.rotaryThreshold
  · rw [rotaryStep_cycles hr] at e
    split at e
    · exact ⟨y, rx, queryRotary_next (s := s.setRotaryCount 0) hx e, hyH⟩
    · cases e
      exact ⟨x, y :: rx, hx, hxH⟩
  · rw [rotaryStep_counts hr] at e
    cases e
    exact ⟨x, y :: rx, hx, hxH⟩

/-- The rotary step keeps the mode. -/
theorem rotaryStep_haltMode (s : State) : (rotaryStep Config.hw s).state.haltMode = s.haltMode := by
  have k : KeptBySend (fun t => t.haltMode = s.haltMode) fun _ => True :=
    ⟨fun _ _ _ h => h, fun _ _ _ _ _ h => h, fun _ h => h, fun _ h => h⟩
  exact keep_rotaryStep k (fun _ _ _ h => h) (fun _ _ h => h) (fun _ h => h) (fun _ _ h => h) trivial rfl

/-- The rotary step and the poll, where the next two entries are no HALT notification. -/
theorem rotaryThenPoll_haltMode {s : State} {x y : Option Byte} {rx : List (Option Byte)} (hx : s.rx = x :: y :: rx)
    (hxH : x ≠ some 0x48) (hyH : y ≠ some 0x48) :
    ((rotaryStep Config.hw s).andThen (haltPoll Config.hw)).state.haltMode = s.haltMode := by
  have kept := rotaryStep_haltMode s
  cases e : rotaryStep Config.hw s with
  | stop t => rwa [e] at kept
  | on t =>
    rw [e] at kept
    exact (haltPoll_noHalt (rotaryStep_next hx hxH hyH e)).trans kept

/-- A tick whose two reads find no HALT notification keeps the mode (R174, D32). -/
theorem runTick_haltMode {s : State} {x y : Option Byte} {rx : List (Option Byte)} (hx : s.rx = x :: y :: rx)
    (hxH : x ≠ some 0x48) (hyH : y ≠ some 0x48) (a : Addr) (d : Datum) :
    (runTick Config.hw a d s).state.haltMode = s.haltMode := by
  by_cases hu : s.updateCount + 1 = 5
  · have sent := fifthFrames_keep s a d
    rw [runTick_fifth (by omega)]
    cases e : (send (tickDisplayFrame s a d) s).andThen putF with
    | stop u => exact (e ▸ sent).1
    | on u =>
      obtain ⟨mode, -, -, reads⟩ := e ▸ sent
      exact (rotaryThenPoll_haltMode (s := u.setUpdateCount 0) (reads.trans hx) hxH hyH).trans mode
  · exact (runTick_off_fifth_keeps hu a d).1

/-- Settles O53: what every tick keeps; the mode where the reads find no HALT notification; and off a fifth tick. -/
theorem tickFrame : Obligations.TickFrame := by
  intro a d s t e
  obtain ⟨status, link, sw, ackq, addr, inv, exam, dep, sig, mode⟩ := exec_tick_keeps e
  refine ⟨status, link, sw, ackq, addr, inv, exam, dep, sig, exec_events e, mode, fun enough noHalt => ?_, fun hu => ?_⟩
  · cases e
    refine State.guarded_keeps (P := fun t => t.haltMode = s.haltMode) rfl fun _ => ?_
    match hx : s.rx, enough with
    | x :: y :: rx, _ =>
      rw [hx] at noHalt
      exact runTick_haltMode hx (noHalt x (by simp)) (noHalt y (by simp)) a d
  · cases e
    exact State.guarded_keeps (P := SameReads s) ⟨rfl, rfl, rfl, rfl⟩ fun _ => runTick_off_fifth_keeps hu a d

/-! ## The producers of the owned bits -/

/-- `set_bit` changes no owned bit (42_status_manager.md R122, D9). -/
theorem exec_setBit_owned {f : StatusField} {flag : Byte} {on : Bool} {s t : State}
    (e : exec (.setBit f flag on) s = .next t) {p : BitPos} (hp : p ∈ Config.hw.ownedBits s.model) :
    t.statusBit p = s.statusBit p := by
  cases ha : s.active with
  | false =>
    cases (exec_inactive ha _).symm.trans e
    rfl
  | true =>
    rw [exec_setBit_active ha] at e
    split at e
    · cases e
    · rename_i allowed
      cases e
      exact State.driveStatus_owned on (Bool.eq_false_iff.mpr allowed) hp

/-- `set_ring_protection` changes no other bit than the ring bits (R123). -/
theorem exec_setRing_other {level : RingLevel} {s t : State} (e : exec (.setRing level) s = .next t) {p : BitPos}
    (hp : Config.hw.hasRing s.model = true → p ∉ Config.hw.layout.ringBits) : t.statusBit p = s.statusBit p := by
  cases e
  refine State.guarded_keeps (P := fun t => t.statusBit p = s.statusBit p) rfl fun _ => ?_
  rw [Ran.state_on, State.applyRing, Config.profile_hasRing]
  split
  · exact s.writeRing_other _ _ (hp ‹_›)
  · rfl

/-- `set_mmu_mode` changes no other bit than those of the model's rule (R124). -/
theorem exec_setMmu_other {e18 e22 : Bool} {s t : State} (e : exec (.setMmu e18 e22) s = .next t) {p : BitPos}
    (hp : p ∉ Config.hw.layout.mmuBits s.model.mmuRule) : t.statusBit p = s.statusBit p := by
  cases e
  exact State.guarded_keeps (P := fun t => t.statusBit p = s.statusBit p) rfl fun _ => s.writeWidth_other _ _ _ hp

/-- An inbound operation changes at most the address-error bit, which no other producer owns (R125). -/
theorem exec_inbound_owned {i : Instr} {s t : State} (hi : i.direction = .inbound) (e : exec i s = .next t)
    {p : BitPos} (hp : p ∈ Config.hw.ownedBits s.model) : t.statusBit p = s.statusBit p := by
  have h := exec_inbound_keeps hi e
  cases hm : s.model.addrErrBit with
  | false =>
    obtain ⟨h0, h1⟩ := h.statusOfModel hm
    exact State.statusBit_congr h0 h1 p
  | true => exact h.statusBits p fun hq => Config.hw_addrErr_not_owned hm (List.mem_singleton.mp hq ▸ hp)

/-- No operation but the two producers changes an owned bit (10_state.md R14). -/
theorem exec_keeps_owned {i : Instr} {s t : State} (hring : ∀ level, i ≠ .setRing level)
    (hmmu : ∀ e18 e22, i ≠ .setMmu e18 e22) (e : exec i s = .next t) {p : BitPos}
    (hp : p ∈ Config.hw.ownedBits s.model) : t.statusBit p = s.statusBit p := by
  cases hd : i.direction with
  | outbound =>
    obtain ⟨⟨⟨h0, h1⟩, -⟩, -⟩ := exec_outbound_keeps hd e
    exact State.statusBit_congr h0 h1 p
  | inbound => exact exec_inbound_owned hd e hp
  | call =>
    cases i with
    | setBit f flag on => exact exec_setBit_owned e hp
    | setRing level => exact absurd rfl (hring level)
    | setMmu e18 e22 => exact absurd rfl (hmmu e18 e22)
    | tick a d =>
      obtain ⟨⟨h0, h1⟩, -⟩ := exec_tick_keeps e
      exact State.statusBit_congr h0 h1 p
    | _ => cases hd

/-- A width bit or the virtual-addressing bit of the active model changes in `set_mmu_mode` only. -/
theorem exec_keeps_mmu {i : Instr} {s t : State} (hmmu : ∀ e18 e22, i ≠ .setMmu e18 e22) (e : exec i s = .next t)
    {p : BitPos} (hp : p ∈ Config.hw.layout.mmuBits s.model.mmuRule) : t.statusBit p = s.statusBit p := by
  by_cases hring : ∃ level, i = .setRing level
  · obtain ⟨level, rfl⟩ := hring
    exact exec_setRing_other e fun hr => Config.hw_mmu_ring_disjoint hr hp
  · exact exec_keeps_owned (not_exists.mp hring) hmmu e (Config.mem_ownedBits_of_mmu hp)

/-- A ring bit of a model with a ring display changes in `set_ring_protection` only. -/
theorem exec_keeps_ring {i : Instr} {s t : State} (hring : ∀ level, i ≠ .setRing level)
    (hr : Config.hw.hasRing s.model = true) (e : exec i s = .next t) {p : BitPos} (hp : p ∈ Config.hw.layout.ringBits) :
    t.statusBit p = s.statusBit p := by
  by_cases hmmu : ∃ e18 e22, i = .setMmu e18 e22
  · obtain ⟨e18, e22, rfl⟩ := hmmu
    exact exec_setMmu_other e fun hq => Config.hw_mmu_ring_disjoint hr hq hp
  · simp only [not_exists] at hmmu
    exact exec_keeps_owned hring hmmu e (Config.mem_ownedBits_of_ring hr hp)

/-- Settles O57: the bits of the model's rule, and the ring bits. -/
theorem ownedBitsHaveOneProducer : Obligations.OwnedBitsHaveOneProducer := by
  intro i s t e
  refine ⟨fun hmmu => ⟨fun hm => ?_, fun hm => ?_⟩, fun hring hr => ?_⟩
  · have kept {p : BitPos} (hp : p ∈ Config.hw.layout.mmuBits .threeWidthBits) : t.statusBit p = s.statusBit p :=
      exec_keeps_mmu hmmu e (by rwa [Model.mmuRule_eq, if_pos hm])
    exact ⟨kept (by simp [StatusLayout.mmuBits]), kept (by simp [StatusLayout.mmuBits]),
      kept (by simp [StatusLayout.mmuBits])⟩
  · exact exec_keeps_mmu hmmu e (by rw [Model.mmuRule_eq, if_neg hm]; exact List.mem_singleton_self _)
  · rw [State.ringShown, State.ringShown, exec_keeps_ring hring hr e (by simp [StatusLayout.ringBits]),
      exec_keeps_ring hring hr e (by simp [StatusLayout.ringBits])]

/-! ## The writers of the registers -/

/-- Settles O58: by direction, from what an outbound and an inbound operation, a tick and the status manager keep. -/
theorem registersHaveNamedWriters : Obligations.RegistersHaveNamedWriters := by
  intro i s t e
  cases hd : i.direction with
  | outbound =>
    obtain ⟨⟨status, ⟨addr, inv, exam, dep, mode⟩, count, link, -⟩, sw, rot, ack⟩ := exec_outbound_keeps hd e
    refine ⟨link, absurd status, absurd mode, (·.elim (absurd addr) (absurd inv)), absurd exam, absurd dep, fun h => ?_,
      fun h => ?_, fun h => ?_, absurd count⟩
    · exact .inl (not_imp_comm.mp sw h)
    · exact .inl (not_imp_comm.mp rot h)
    · by_contra hn
      simp only [not_or, not_exists] at hn
      exact h (ack hn.2.2.2.2)
  | inbound =>
    have h := exec_inbound_keeps hd e
    refine ⟨h.link, fun hw => ?_, fun hw => ?_, fun hw => ?_, fun hw => ?_, fun hw => ?_, fun hw => ?_, fun hw => ?_,
      fun hw => ?_, absurd h.counters⟩
    · have := h.status; tauto
    · have := h.mode; tauto
    · have := h.addr; tauto
    · have := h.exam; tauto
    · have := h.dep; tauto
    · have := h.responses; tauto
    · exact absurd h.rot hw
    · have := h.ack; tauto
  | call =>
    by_cases ht : ∃ a d, i = .tick a d
    · obtain ⟨a, d, rfl⟩ := ht
      obtain ⟨status, link, sw, ack, addr, inv, exam, dep, -, mode⟩ := exec_tick_keeps e
      exact ⟨link, absurd status, fun h => .inr (.inr (.inr ⟨a, d, rfl, mode.resolve_left h⟩)),
        (·.elim (absurd addr) (absurd inv)), absurd exam, absurd dep, absurd sw, fun _ => .inr ⟨a, d, rfl⟩, absurd ack,
        fun _ => ⟨a, d, rfl⟩⟩
    · simp only [not_exists] at ht
      have only := (statusManagerFrame i s t hd ht e).1
      rw [only]
      refine ⟨⟨rfl, rfl, rfl, rfl, rfl, rfl⟩, fun _ => ?_, absurd rfl, (·.elim (absurd rfl) (absurd rfl)), absurd rfl,
        absurd rfl, absurd rfl, absurd rfl, absurd rfl, absurd ⟨rfl, rfl⟩⟩
      cases i with
      | setBit f flag on => exact .inl ⟨f, flag, on, rfl⟩
      | setRing level => exact .inr (.inl ⟨level, rfl⟩)
      | setMmu e18 e22 => exact .inr (.inr (.inl ⟨e18, e22, rfl⟩))
      | tick a d => exact absurd rfl (ht a d)
      | _ => cases hd

end Sys2Proof.Machine
end
